-- ==== Sys2Proof/Word.lean ====
section
/-! DEFINITION. The word types of TGA-RLEPX: bytes of the input memory, the 24-bit format key, and the 32-bit words of
the registers and the output memory (spec rules R5, R6). -/

namespace Sys2Proof

/-- A byte of the input memory, unsigned (R6). -/
abbrev Byte := BitVec 8

/-- A host register, or a word of the output memory (R23, R52). -/
abbrev Word := BitVec 32

/-- A format key, `CMAP_DEPTH || DEPTH || TYPE` (R75). -/
abbrev Key := BitVec 24

end Sys2Proof
end

