-- ==== Sys2Proof/Syntax.lean ====
section
/-! DEFINITION. The instructions of TGA-RLEPX: one constructor for each of the 16 rows of spec/opcode_table.json, with
the operands its encoding gives it. The rows stand in four encodings (packet header, format key, origin descriptor, CTRL
write), and each encoding stands in a place of its own (`Slot`). -/

namespace Sys2Proof

/-- The two kinds of RLE packet (R70). -/
inductive PktKind where
  /-- A run packet: header bit 7 is 1 (R102). -/
  | run
  /-- A raw packet: header bit 7 is 0 (R103). -/
  | raw
deriving DecidableEq, Repr, Inhabited

/-- The colour models of the image type code (R74). -/
inductive ColorModel where
  /-- Palette images, TYPE 1 and 9. -/
  | pal
  /-- Truecolor images, TYPE 2 and 10. -/
  | tc
  /-- Grayscale images, TYPE 3 and 11. -/
  | gs
deriving DecidableEq, Repr

/-- The four places an instruction's bits stand in (30_encoding.md): the bits alone do not tell a packet header from an
origin descriptor. -/
inductive Slot where
  /-- A packet header byte, at IN_PTR (R70). -/
  | packet
  /-- The format key of the latched header (R75). -/
  | key
  /-- The origin descriptor of the latched header (R77). -/
  | origin
  /-- A host write to CTRL (R80). -/
  | ctrl
deriving DecidableEq, Repr

/-- The instructions. One constructor per row of the opcode table. -/
inductive Instr where
  /-- RUN: a run packet of `count` samples (R102). -/
  | run (count : Nat)
  /-- RAW: a raw packet of `count` samples (R103). -/
  | raw (count : Nat)
  /-- TC24: truecolor, depth 24; `rle` is KEY[3], and CMAP_DEPTH is don't-care (R131, R75). -/
  | tc24 (rle : Bool) (cmapDepth : Byte)
  /-- TC32: truecolor, depth 32 (R132). -/
  | tc32 (rle : Bool) (cmapDepth : Byte)
  /-- GS8: grayscale, depth 8 (R133). -/
  | gs8 (rle : Bool) (cmapDepth : Byte)
  /-- GS16: grayscale, depth 16 (R134). -/
  | gs16 (rle : Bool) (cmapDepth : Byte)
  /-- PAL24: palette, entry depth 24 (R136). -/
  | pal24 (rle : Bool)
  /-- PAL32: palette, entry depth 32 (R137). -/
  | pal32 (rle : Bool)
  /-- ORG.BL: lower-left origin; `hi` and `lo` are the ignored bits DESC[7:6] and DESC[3:0] (R163, R78). -/
  | orgBL (hi : BitVec 2) (lo : BitVec 4)
  /-- ORG.BR: lower-right origin (R164). -/
  | orgBR (hi : BitVec 2) (lo : BitVec 4)
  /-- ORG.TL: upper-left origin (R165). -/
  | orgTL (hi : BitVec 2) (lo : BitVec 4)
  /-- ORG.TR: upper-right origin (R166). -/
  | orgTR (hi : BitVec 2) (lo : BitVec 4)
  /-- START: a CTRL write with bit 0 set; its other action bits act in the order of R180, and bits 31:4 are ignored
  (R181, R80). -/
  | start (strict argb abgr : Bool) (ignored : BitVec 28)
  /-- STRICT: a CTRL write with bit 0 clear and bit 1 set (R184). -/
  | strict (argb abgr : Bool) (ignored : BitVec 28)
  /-- LOAD_ARGB: a CTRL write whose action bits are LOAD_ARGB alone (R182). -/
  | loadArgb (ignored : BitVec 28)
  /-- LOAD_ABGR: a CTRL write whose action bits are LOAD_ABGR alone (R183). -/
  | loadAbgr (ignored : BitVec 28)
deriving DecidableEq, Repr

/-- The place an instruction's encoding stands in (the "format" column of the opcode table). -/
def Instr.slot : Instr → Slot
  | .run _ | .raw _ => .packet
  | .tc24 _ _ | .tc32 _ _ | .gs8 _ _ | .gs16 _ _ | .pal24 _ | .pal32 _ => .key
  | .orgBL _ _ | .orgBR _ _ | .orgTL _ _ | .orgTR _ _ => .origin
  | .start _ _ _ _ | .strict _ _ _ | .loadArgb _ | .loadAbgr _ => .ctrl

end Sys2Proof
end

