-- ==== Sys2Proof/Config.lean ====
section
/-! DEFINITION. What the spec leaves to an implementation (R5) and the values it leaves open (93_implementation_defined.md).
Each constant here is opaque and has no body, so no proof can see which value it is. -/

namespace Sys2Proof

/-- OUT_BYTE_ORDER: the order of a word's four bytes where a platform shows the output memory as bytes (R5, R55). -/
inductive ByteOrder where
  | little
  | big
deriving DecidableEq, Repr, Inhabited

/-- The block's three open parameters (R5). They are fixed for one machine. -/
structure Params where
  /-- IN_ADDR_BITS, 18 to 32. -/
  inAddrBits : Nat
  /-- MAX_PIXELS, 0 to 65535 * 65535. -/
  maxPixels : Nat
  /-- OUT_BYTE_ORDER. -/
  outByteOrder : ByteOrder
deriving DecidableEq, Repr

/-- The ranges R5 gives the parameters. -/
abbrev Params.valid (p : Params) : Prop :=
  18 ≤ p.inAddrBits ∧ p.inAddrBits ≤ 32 ∧ p.maxPixels ≤ 4294836225

namespace Config

/-- IN_ADDR_BITS less 18: R5 leaves it open between 18 and 32. Log entry 1. -/
opaque inAddrBitsOver18 : Fin 15

/-- MAX_PIXELS: R5 leaves it open between 0 and 4294836225. Log entry 1. -/
opaque maxPixels : Fin 4294836226

/-- OUT_BYTE_ORDER: R5 leaves it open. Log entry 1. -/
opaque outByteOrder : ByteOrder

/-- The parameters of the machine that `State.reset` describes. -/
def params : Params where
  inAddrBits := 18 + inAddrBitsOver18.val
  maxPixels := maxPixels.val
  outByteOrder := outByteOrder

/-- FREE VALUE: the byte of IN at an address nothing has written since power-up (R231, U4). Log entry 5. -/
opaque powerUpIn : Nat → Byte

/-- FREE VALUE: the word of OUT at an index whose content is unspecified, for one stamp of unspecified contents
(R210, R231, R232, U2, U4). Log entry 6. -/
opaque unspecOut : Nat → Nat → Word

/-- FREE VALUE: what a host read of OUT returns while BUSY (R235, U3). Log entry 8. -/
opaque unspecRead : Nat → Word

/-- FREE VALUE: PKT_KIND after reset or START, before the first packet header (R37, U5). Log entry 9. -/
opaque unspecPktKind : Nat → PktKind

/-- FREE VALUE: the four bytes of SLATCH after reset or START, before the first run packet (R37, U5). Log entry 9. -/
opaque unspecSlatch : Nat → Word

/-- FREE VALUE: how a decode ends after the host wrote IN while BUSY: 0 is DONE, any other value an error code
(R64, R234, U1). Log entry 7. -/
opaque drawCode : Nat → BitVec 3

/-- FREE VALUE: PAL_OOR after such a decode (R64, U1). Log entry 7. -/
opaque drawPalOor : Nat → Bool

/-- FREE VALUE: the pixels counted when such a decode ends in an error, as a number that selects one within the
bounds of R32 (R64, U1). Log entry 7. -/
opaque drawPixCount : Nat → Nat

/-- FREE VALUE: the input pointer when such a decode ends, as a number that selects one within the bounds of
R22 (R64, U1). Log entry 7. -/
opaque drawInPtr : Nat → Nat

end Config

end Sys2Proof
end

