-- ==== Sys2Proof/WellFormed.lean ====
section
/-! DEFINITION. Which instruction terms an encoding can hold. Only the packet count needs a check: every other operand's
type is exactly the width of its field. -/

namespace Sys2Proof

/-- A packet count the seven count bits can hold: 1 to 128, never zero (R72). -/
def countOk (count : Nat) : Bool := decide (1 ≤ count) && decide (count ≤ 128)

/-- The terms an encoding can hold (R72, R75, R77, R80). -/
def Instr.wf : Instr → Bool
  | .run count => countOk count
  | .raw count => countOk count
  | .tc24 _ _ => true
  | .tc32 _ _ => true
  | .gs8 _ _ => true
  | .gs16 _ _ => true
  | .pal24 _ => true
  | .pal32 _ => true
  | .orgBL _ _ => true
  | .orgBR _ _ => true
  | .orgTL _ _ => true
  | .orgTR _ _ => true
  | .start _ _ _ _ => true
  | .strict _ _ _ => true
  | .loadArgb _ => true
  | .loadAbgr _ => true

end Sys2Proof
end

