-- ==== Sys2Proof/Decode.lean ====
section
/-! DEFINITION. The decoder of the four encodings of 30_encoding.md, total on any bytes and rejecting by name, and after
it the encoder, written from the same tables. -/

namespace Sys2Proof

/-- Why bits stand for no instruction of the opcode table. -/
inductive Reject where
  /-- Fewer bytes than the encoding has. -/
  | tooShort
  /-- The image type code is none of the six (R74). -/
  | imageType
  /-- The type is legal, but the format key matches no row of R75. -/
  | formatKey
  /-- A CTRL word that matches no command row: no START, STRICT 0 and neither preset alone (R80, R180). -/
  | noCommand
deriving DecidableEq, Repr

/-! ### Packet headers -/

/-- The count of a packet header: its low seven bits plus one (R72). -/
def packetCount (h : Byte) : Nat := (h.extractLsb' 0 7).toNat + 1

/-- A packet header byte. Every value is legal (R70, R73). -/
def decodePacket (h : Byte) : Instr :=
  if h.getLsbD 7 then .run (packetCount h) else .raw (packetCount h)

/-! ### Format keys -/

/-- The image type codes: whether the image is RLE, and its colour model (R74). -/
def imageType (t : Byte) : Option (Bool × ColorModel) :=
  if t = 1#8 then some (false, .pal)
  else if t = 2#8 then some (false, .tc)
  else if t = 3#8 then some (false, .gs)
  else if t = 9#8 then some (true, .pal)
  else if t = 10#8 then some (true, .tc)
  else if t = 11#8 then some (true, .gs)
  else none

/-- KEY[7:0], the image type code (R75). -/
def keyType (key : Key) : Byte := key.extractLsb' 0 8

/-- KEY[15:8], the pixel depth (R75). -/
def keyDepth (key : Key) : Byte := key.extractLsb' 8 8

/-- KEY[23:16], the colormap entry depth (R75). -/
def keyCmapDepth (key : Key) : Byte := key.extractLsb' 16 8

/-- The format key that three header bytes make (R75). -/
def mkKey (cmapDepth depth typ : Byte) : Key := cmapDepth ++ depth ++ typ

/-- The table of legal keys (R75); a depth outside it is reserved and never rounded (R76). -/
def decodeKey (key : Key) : Except Reject Instr :=
  match imageType (keyType key) with
  | none => .error .imageType
  | some (rle, .tc) =>
    if keyDepth key = 24#8 then .ok (.tc24 rle (keyCmapDepth key))
    else if keyDepth key = 32#8 then .ok (.tc32 rle (keyCmapDepth key))
    else .error .formatKey
  | some (rle, .gs) =>
    if keyDepth key = 8#8 then .ok (.gs8 rle (keyCmapDepth key))
    else if keyDepth key = 16#8 then .ok (.gs16 rle (keyCmapDepth key))
    else .error .formatKey
  | some (rle, .pal) =>
    if keyDepth key = 8#8 ∧ keyCmapDepth key = 24#8 then .ok (.pal24 rle)
    else if keyDepth key = 8#8 ∧ keyCmapDepth key = 32#8 then .ok (.pal32 rle)
    else .error .formatKey

/-! ### Origin descriptors -/

/-- The origin descriptor: bit 5 is upper-origin, bit 4 right-origin, the others are ignored (R77, R78). -/
def decodeOrigin (d : Byte) : Instr :=
  match d.getLsbD 5, d.getLsbD 4 with
  | false, false => .orgBL (d.extractLsb' 6 2) (d.extractLsb' 0 4)
  | false, true => .orgBR (d.extractLsb' 6 2) (d.extractLsb' 0 4)
  | true, false => .orgTL (d.extractLsb' 6 2) (d.extractLsb' 0 4)
  | true, true => .orgTR (d.extractLsb' 6 2) (d.extractLsb' 0 4)

/-! ### CTRL writes -/

/-- A CTRL write as the instruction of one table row (R80). Several rows may match one word; the row of the last action
in the order of R180 names the write, and the other action bits are its operands. Log entry 14. -/
def decodeCtrl (w : Word) : Except Reject Instr :=
  match w.getLsbD 0, w.getLsbD 1, w.getLsbD 2, w.getLsbD 3 with
  | true, strict, argb, abgr => .ok (.start strict argb abgr (w.extractLsb' 4 28))
  | false, true, argb, abgr => .ok (.strict argb abgr (w.extractLsb' 4 28))
  | false, false, true, false => .ok (.loadArgb (w.extractLsb' 4 28))
  | false, false, false, true => .ok (.loadAbgr (w.extractLsb' 4 28))
  | false, false, false, false => .error .noCommand
  | false, false, true, true => .error .noCommand

/-- The instruction at the head of a list of bytes that stand in a place, with the bytes after it. Multi-byte encodings
have their least significant byte first (the table's bit 0 is the lowest bit of the first byte). -/
def decode : Slot → List Byte → Except Reject (Instr × List Byte)
  | .packet, h :: rest => .ok (decodePacket h, rest)
  | .origin, d :: rest => .ok (decodeOrigin d, rest)
  | .key, t :: d :: c :: rest =>
    match decodeKey (mkKey c d t) with
    | .ok i => .ok (i, rest)
    | .error r => .error r
  | .ctrl, b0 :: b1 :: b2 :: b3 :: rest =>
    match decodeCtrl (b3 ++ b2 ++ b1 ++ b0) with
    | .ok i => .ok (i, rest)
    | .error r => .error r
  | .packet, [] => .error .tooShort
  | .origin, [] => .error .tooShort
  | .key, [] => .error .tooShort
  | .key, [_] => .error .tooShort
  | .key, [_, _] => .error .tooShort
  | .ctrl, [] => .error .tooShort
  | .ctrl, [_] => .error .tooShort
  | .ctrl, [_, _] => .error .tooShort
  | .ctrl, [_, _, _] => .error .tooShort

/-! ### The encoder -/

/-- The header byte of a packet (R70, R72, R81). -/
def encodePacket (kind : PktKind) (count : Nat) : Byte :=
  match kind with
  | .run => BitVec.ofNat 8 (128 + (count - 1))
  | .raw => BitVec.ofNat 8 (count - 1)

/-- The type code of a model with or without RLE: the base code, plus 8 for RLE (R74). -/
def encodeType (rle : Bool) (model : ColorModel) : Byte :=
  match rle, model with
  | false, .pal => 1#8
  | false, .tc => 2#8
  | false, .gs => 3#8
  | true, .pal => 9#8
  | true, .tc => 10#8
  | true, .gs => 11#8

/-- A key's bytes in the table's bit order: TYPE, DEPTH, CMAP_DEPTH (R75). -/
def encodeKey (rle : Bool) (model : ColorModel) (depth cmapDepth : Byte) : List Byte :=
  [encodeType rle model, depth, cmapDepth]

/-- An origin descriptor (R77, R78). -/
def encodeOrigin (upper right : Bool) (hi : BitVec 2) (lo : BitVec 4) : Byte :=
  hi ++ BitVec.ofBool upper ++ BitVec.ofBool right ++ lo

/-- A CTRL word (R80). -/
def ctrlWordOf (start strict argb abgr : Bool) (ignored : BitVec 28) : Word :=
  ignored ++ BitVec.ofBool abgr ++ BitVec.ofBool argb ++ BitVec.ofBool strict ++ BitVec.ofBool start

/-- The four bytes of a word, the least significant first. -/
def wordBytes (w : Word) : List Byte :=
  [w.extractLsb' 0 8, w.extractLsb' 8 8, w.extractLsb' 16 8, w.extractLsb' 24 8]

/-- The bytes of an instruction's encoding, in the table's bit order. -/
def encode : Instr → List Byte
  | .run count => [encodePacket .run count]
  | .raw count => [encodePacket .raw count]
  | .tc24 rle c => encodeKey rle .tc 24#8 c
  | .tc32 rle c => encodeKey rle .tc 32#8 c
  | .gs8 rle c => encodeKey rle .gs 8#8 c
  | .gs16 rle c => encodeKey rle .gs 16#8 c
  | .pal24 rle => encodeKey rle .pal 8#8 24#8
  | .pal32 rle => encodeKey rle .pal 8#8 32#8
  | .orgBL hi lo => [encodeOrigin false false hi lo]
  | .orgBR hi lo => [encodeOrigin false true hi lo]
  | .orgTL hi lo => [encodeOrigin true false hi lo]
  | .orgTR hi lo => [encodeOrigin true true hi lo]
  | .start strict argb abgr ignored => wordBytes (ctrlWordOf true strict argb abgr ignored)
  | .strict argb abgr ignored => wordBytes (ctrlWordOf false true argb abgr ignored)
  | .loadArgb ignored => wordBytes (ctrlWordOf false false true false ignored)
  | .loadAbgr ignored => wordBytes (ctrlWordOf false false false true ignored)

/-! ### The opcode table's words -/

/-- The place a word of the opcode table stands in, from its width and, where that is not enough, its value. A packet
header, an origin descriptor and a short CTRL word all have 8 bits and the bits alone do not say which they are, so the
words that are a row's fixed bits with every other bit 0 are taken for that row, and every other 8-bit word for a packet
header. 0x00 is both RAW and ORG.BL; it is taken for RAW. Log entry 4. -/
def tableSlot (nbits w : Nat) : Slot :=
  if 24 < nbits then .ctrl
  else if 8 < nbits then .key
  else if w = 1 ∨ w = 2 ∨ w = 4 ∨ w = 8 then .ctrl
  else if w = 0x10 ∨ w = 0x20 ∨ w = 0x30 then .origin
  else .packet

/-- How many bytes the encoding in a place has. -/
def Slot.bytes : Slot → Nat
  | .packet => 1
  | .key => 3
  | .origin => 1
  | .ctrl => 4

/-- The first `n` bytes of a number, the least significant first. -/
def leBytes : Nat → Nat → List Byte
  | 0, _ => []
  | n + 1, w => BitVec.ofNat 8 w :: leBytes n (w / 256)

/-- The instruction the decoder reads from a word of the opcode table; bits above the given ones are 0. -/
def decodeTableWord (nbits w : Nat) : Option Instr :=
  match decode (tableSlot nbits w) (leBytes (tableSlot nbits w).bytes w) with
  | .ok (i, _) => some i
  | .error _ => none

end Sys2Proof
end

