-- ==== Sys2Proof/Machine/State.lean ====
section
/-! DEFINITION. The state of TGA-RLEPX as plain data: the host-visible registers (R23 to R33), the internal decode state
(R36 to R38), the two memories (R39), the parameters (R5), and the model's own fields, which INVENTORY.md lists apart.
Also the fatal errors (R200), the outcomes a step can stop with, and the state after reset (R230). -/

namespace Sys2Proof.Machine

/-- Where a TruncatedInput was raised: "each tagged with a cause the model records" (R203). -/
inductive Cause where
  | header
  | colormap
  | pixelData
  | packet
  | read
deriving DecidableEq, Repr

/-- The fatal errors (R200 to R207). -/
inductive DecodeError where
  | unsupportedImageType
  | unsupportedPixelDepth
  | truncatedInput (cause : Cause)
  | paletteIndexOutOfRange
  | invalidChannelOrder
  | packetOverrun
  | capacityExceeded
deriving DecidableEq, Repr

/-- The block's internal phase (R38). -/
inductive Phase where
  | idle
  | stream
deriving DecidableEq, Repr

/-- The decode constants that START computes and holds until the decode ends (R36). -/
structure Consts where
  /-- RLE: the samples come from packets. -/
  rle : Bool
  /-- MODEL. -/
  model : ColorModel
  /-- N = W * H. -/
  n : Nat
  /-- SS, the sample size in bytes. -/
  ss : Nat
  /-- EB, the palette entry size in bytes. -/
  eb : Nat
  /-- BASE, the input offset of the first pixel or packet byte. -/
  base : Nat
  /-- FLIPH: right-origin. -/
  flipH : Bool
  /-- FLIPV: lower-origin. -/
  flipV : Bool
  /-- RSH as it stood at START. -/
  rsh : Byte
  /-- GSH as it stood at START. -/
  gsh : Byte
  /-- BSH as it stood at START. -/
  bsh : Byte
  /-- ASH as it stood at START. -/
  ash : Byte
  /-- STRICT_D: CTRL.STRICT as it stood at START. -/
  strictD : Bool
deriving DecidableEq, Repr

/-- The output memory: the words written since its content last became unspecified, by word index in rising order, and
the stamp of the unspecified content every other word has (R52, R210, R231). Log entry 6. -/
structure OutMem where
  /-- Which unspecified content the unlisted words have. -/
  epoch : Nat
  /-- The listed words. -/
  words : List (Nat × Word)
deriving DecidableEq, Repr

/-- What the host, or time, does next (R20, R233). The model's own: the inputs of the machine as plain data. Log entry 3. -/
inductive HostEvent where
  /-- The host does nothing; the block moves. -/
  | wait
  /-- A 32-bit write to a register offset (R23). -/
  | writeReg (offset : Nat) (w : Word)
  /-- A 32-bit read of a register offset (R185). -/
  | readReg (offset : Nat)
  /-- A write of one byte of IN (R50). -/
  | writeIn (addr : Nat) (b : Byte)
  /-- A read of one byte of IN by the host, which owns it (R4). -/
  | readIn (addr : Nat)
  /-- A read of one word of OUT (R52). -/
  | readOut (index : Nat)
  /-- A read of one byte of OUT through a byte view (R55). -/
  | readOutByte (addr : Nat)
  /-- Reset (R230 to R232). -/
  | reset
deriving DecidableEq, Repr

/-- The machine's state. -/
structure State where
  /-- IN_ADDR_BITS, MAX_PIXELS and OUT_BYTE_ORDER: fixed for the machine, changed by no step (R5). Log entry 1. -/
  params : Params
  /-- CTRL.STRICT (R24). -/
  strict : Bool
  /-- STATUS.BUSY (R25). -/
  busy : Bool
  /-- STATUS.DONE (R25). -/
  done : Bool
  /-- STATUS.ERR (R25). -/
  err : Bool
  /-- STATUS.PAL_OOR (R25). -/
  palOor : Bool
  /-- ERRCODE[2:0] (R26). -/
  errCode : BitVec 3
  /-- The cause tag of a TruncatedInput (R203). -/
  errCause : Option Cause
  /-- CHORD (R27). -/
  chord : Word
  /-- IN_LEN (R28). -/
  inLen : Word
  /-- HDR0 (R29). -/
  hdr0 : Word
  /-- HDR1 (R30). -/
  hdr1 : Word
  /-- HDR2 (R31). -/
  hdr2 : Word
  /-- PIX_COUNT (R32). -/
  pixCount : Word
  /-- IN_PTR (R22, R33). -/
  inPtr : Word
  /-- The decode constants (R36). -/
  consts : Consts
  /-- PKT_KIND (R37). -/
  pktKind : PktKind
  /-- PKT_REM (R37). -/
  pktRem : Nat
  /-- SLATCH (R37). -/
  slatch : List Byte
  /-- The phase (R38). -/
  phase : Phase
  /-- IN: the bytes the host has written, by address in rising order (R50). -/
  inMem : List Host.Cell
  /-- OUT (R52). -/
  out : OutMem
  /-- The model's own: the packed pixel between the steps of one pixel step (R167, R238). Log entry 2. -/
  pixel : Word
  /-- The model's own: `pixel` waits to be written. Log entry 2. -/
  pixelReady : Bool
  /-- The model's own: the host wrote IN while BUSY, so this decode's outcome is a draw (R64). Log entry 7. -/
  tainted : Bool
  /-- The model's own: how many free values have been drawn. Log entry 13. -/
  draws : Nat
  /-- The model's own: the value the last host read returned (R185). Log entry 11. -/
  rdata : Word
  /-- The model's own: the host events to come. Log entry 3. -/
  hostQ : List HostEvent
deriving DecidableEq, Repr

/-- Why a step stops. -/
inductive Fault where
  /-- Raised by a host write or read of IN outside its 2^IN_ADDR_BITS bytes: the spec gives no such byte (R50). Safe.
  Log entry 15. -/
  | noInAddress
  /-- Raised by a host read of OUT outside its MAX_PIXELS words, and by the pixel write at an index not below N, which no
  reachable state does (R52, R66). Safe. Log entries 15 and 16. -/
  | noOutWord
  /-- Raised by the fetch in phase STREAM when the latched header holds no legal format key. START refuses every such key
  (R130), so no reachable state does this. Safe. Log entry 16. -/
  | noFormatKey
  /-- Raised by a pixel operation whose sample has not its SS bytes, or whose palette entry has not its EB bytes. START
  computes SS and EB from the same key (R36), so no reachable state does this. Safe. Log entry 16. -/
  | sampleShape
deriving DecidableEq, Repr

/-- Why an instruction has no meaning. -/
inductive Refusal where
  /-- Raised by `exec` for an instruction the model gives no meaning. No arm raises it. Safe. -/
  | notModelled (mnemonic : String)
deriving DecidableEq, Repr

/-- The outcome of a step of this machine. -/
abbrev Result := Host.Outcome State Fault Refusal

/-- The decode constants before the first START. The spec gives no value. DESIGN CHOICE, log entry 10. -/
def Consts.reset : Consts where
  rle := false
  model := .tc
  n := 0
  ss := 0
  eb := 0
  base := 0
  flipH := false
  flipV := false
  rsh := 0
  gsh := 0
  bsh := 0
  ash := 0
  strictD := false

/-- The ARGB preset, CHORD's reset value (R27, R182). -/
def chordArgb : Word := 0x18000810#32

/-- The ABGR preset (R183). -/
def chordAbgr : Word := 0x18100800#32

/-- The machine right after reset at power-up (R230, R231). -/
def State.reset : State where
  params := Config.params
  strict := false
  busy := false
  done := false
  err := false
  palOor := false
  errCode := 0
  errCause := none
  chord := chordArgb
  inLen := 0
  hdr0 := 0
  hdr1 := 0
  hdr2 := 0
  pixCount := 0
  inPtr := 0
  consts := Consts.reset
  pktKind := .raw
  pktRem := 0
  slatch := []
  phase := .idle
  inMem := []
  out := { epoch := 0, words := [] }
  pixel := 0
  pixelReady := false
  tainted := false
  draws := 0
  rdata := 0
  hostQ := []

end Sys2Proof.Machine
end

