-- ==== Sys2Proof/Machine/Flags.lean ====
section
/-! DEFINITION. The flags of the block: STATUS.BUSY, DONE, ERR and PAL_OOR (R25, R40), who sets and clears them, and the
words CTRL, STATUS and ERRCODE as the host reads them (R24 to R26). -/

namespace Sys2Proof.Machine

/-- STATUS as the host reads it (R25). -/
def statusWord (s : State) : Word :=
  0#28 ++ BitVec.ofBool s.palOor ++ BitVec.ofBool s.err ++ BitVec.ofBool s.done ++ BitVec.ofBool s.busy

/-- CTRL as the host reads it: STRICT in bit 1 and 0 elsewhere (R24, R184). -/
def ctrlWord (s : State) : Word := 0#30 ++ BitVec.ofBool s.strict ++ 0#1

/-- ERRCODE as the host reads it (R26). -/
def errCodeWord (s : State) : Word := s.errCode.setWidth 32

/-- START's flags: DONE, ERR, PAL_OOR and ERRCODE cleared, BUSY set (R181). -/
def startFlags (s : State) : State :=
  { s with busy := true, done := false, err := false, palOor := false, errCode := 0, errCause := none }

/-- The end of a decode without a fatal error (R167, R181). The phase is IDLE whenever BUSY is 0 (R38). -/
def setDone (s : State) : State := { s with busy := false, done := true, phase := .idle }

/-- A sentinel pixel was substituted (R138). -/
def setPalOor (s : State) : State := { s with palOor := true }

/-- The code of a fatal error (R200). -/
def DecodeError.code : DecodeError → BitVec 3
  | .unsupportedImageType => 1
  | .unsupportedPixelDepth => 2
  | .truncatedInput _ => 3
  | .paletteIndexOutOfRange => 4
  | .invalidChannelOrder => 5
  | .packetOverrun => 6
  | .capacityExceeded => 7

/-- The cause tag a fatal error records (R203). -/
def DecodeError.cause? : DecodeError → Option Cause
  | .truncatedInput c => some c
  | .unsupportedImageType => none
  | .unsupportedPixelDepth => none
  | .paletteIndexOutOfRange => none
  | .invalidChannelOrder => none
  | .packetOverrun => none
  | .capacityExceeded => none

/-- The flags of a fatal error (R209). -/
def errorFlags (e : DecodeError) (s : State) : State :=
  { s with errCode := e.code, errCause := e.cause?, err := true, busy := false, phase := .idle }

end Sys2Proof.Machine
end

