-- ==== Sys2Proof/Machine/Ops.lean ====
section
/-! DEFINITION. The named operations over memories and registers: the sorted lists both memories are, the guarded read of
IN (R51), the write of OUT (R52), the fields of the registers (R27 to R31), the raise of a fatal error (R209), and the host's
register reads and writes (R185 to R188). -/

namespace Sys2Proof.Machine

/-! ### Sorted lists -/

/-- The value listed at an address. -/
def memLookup {α : Type} : List (Nat × α) → Nat → Option α
  | [], _ => none
  | (b, v) :: m, a => if a = b then some v else memLookup m a

/-- The list with a value at an address, its order kept. -/
def memInsert {α : Type} : List (Nat × α) → Nat → α → List (Nat × α)
  | [], a, v => [(a, v)]
  | (b, w) :: m, a, v =>
    if a < b then (a, v) :: (b, w) :: m
    else if a = b then (a, v) :: m
    else (b, w) :: memInsert m a v

/-- The canonical form: addresses strictly rising. An unlisted address holds no value of the list, so no entry can equal
what an unlisted address reads as. Log entry 17. -/
def Memory.wf {α : Type} : List (Nat × α) → Bool
  | [] => true
  | (a, _) :: m => m.all (fun c => decide (a < c.1)) && Memory.wf m

/-! ### The input memory -/

/-- L, the number of valid input bytes (R9, R28). -/
def State.inLimit (s : State) : Nat := s.inLen.toNat

/-- The byte of IN at an address: what the host wrote there, or, where nothing was written since power-up, a free value
of the address (R231). -/
def inByte (s : State) (a : Nat) : Byte := (memLookup s.inMem a).getD (Config.powerUpIn a)

/-- The `n` bytes of IN from an address, unguarded. -/
def inBytes (s : State) (a : Nat) : Nat → List Byte
  | 0 => []
  | n + 1 => inByte s a :: inBytes s (a + 1) n

/-- MemRead(a, n): the bytes, or nothing when the bound check fails (R7, R51). -/
def memRead (s : State) (a n : Nat) : Option (List Byte) :=
  if a + n ≤ s.inLimit then some (inBytes s a n) else none

/-- le16(a): a little-endian unsigned 16-bit field (R7, R53). -/
def le16 (s : State) (a : Nat) : BitVec 16 := inByte s (a + 1) ++ inByte s a

/-! ### The output memory -/

/-- The word of OUT at an index: the listed one, or a free value where the content is unspecified (R52, R231). -/
def outWord (s : State) (d : Nat) : Word :=
  (memLookup s.out.words d).getD (Config.unspecOut s.out.epoch d)

/-- MemWrite(d, 4, v) (R7, R52). -/
def outWrite (s : State) (d : Nat) (v : Word) : State :=
  { s with out := { s.out with words := memInsert s.out.words d v } }

/-- Every word of OUT takes an unspecified value (R210). -/
def outUnspecified (s : State) : State :=
  { s with out := { epoch := s.draws + 1, words := [] }, draws := s.draws + 1 }

/-! ### Fields of the latched header and of CHORD -/

/-- TYPE (R29). -/
def State.typ (s : State) : Byte := s.hdr0.extractLsb' 0 8
/-- DEPTH (R29). -/
def State.depth (s : State) : Byte := s.hdr0.extractLsb' 8 8
/-- CMAP_DEPTH (R29). -/
def State.cmapDepth (s : State) : Byte := s.hdr0.extractLsb' 16 8
/-- DESC (R29). -/
def State.desc (s : State) : Byte := s.hdr0.extractLsb' 24 8
/-- W (R30). -/
def State.width (s : State) : Nat := (s.hdr1.extractLsb' 0 16).toNat
/-- H (R30). -/
def State.height (s : State) : Nat := (s.hdr1.extractLsb' 16 16).toNat
/-- CMAP_ORIGIN (R31). -/
def State.cmapOrigin (s : State) : Nat := (s.hdr2.extractLsb' 0 16).toNat
/-- CMAP_LEN (R31). -/
def State.cmapLen (s : State) : Nat := (s.hdr2.extractLsb' 16 16).toNat
/-- The format key of the latched header (R75). -/
def State.key (s : State) : Key := mkKey s.cmapDepth s.depth s.typ
/-- k, the storage-order position of the current sample (R9, R32). -/
def State.position (s : State) : Nat := s.pixCount.toNat
/-- The input offset IN_PTR holds (R22). -/
def State.inOffset (s : State) : Nat := s.inPtr.toNat

/-- RSH (R27). -/
def chordRsh (chord : Word) : Byte := chord.extractLsb' 0 8
/-- GSH (R27). -/
def chordGsh (chord : Word) : Byte := chord.extractLsb' 8 8
/-- BSH (R27). -/
def chordBsh (chord : Word) : Byte := chord.extractLsb' 16 8
/-- ASH (R27). -/
def chordAsh (chord : Word) : Byte := chord.extractLsb' 24 8

/-- A legal shift (R27). -/
def shiftOk (b : Byte) : Bool := b == 0#8 || b == 8#8 || b == 16#8 || b == 24#8

/-- A legal CHORD: the four shifts are a permutation of 0, 8, 16, 24 (R27, C6). -/
def chordLegal (chord : Word) : Bool :=
  shiftOk (chordRsh chord) && shiftOk (chordGsh chord) && shiftOk (chordBsh chord) && shiftOk (chordAsh chord)
    && chordRsh chord != chordGsh chord && chordRsh chord != chordBsh chord && chordRsh chord != chordAsh chord
    && chordGsh chord != chordBsh chord && chordGsh chord != chordAsh chord && chordBsh chord != chordAsh chord

/-! ### Raising a fatal error -/

/-- `raise E(cause)`: the one entry into an error (R209). PIX_COUNT, IN_PTR, HDR0 to HDR2 and PAL_OOR keep their values,
and every word of OUT becomes any value (R210). There is no return from it: START and reset clear ERR (R211). -/
def raiseError (e : DecodeError) (s : State) : State :=
  outUnspecified { errorFlags e s with pixelReady := false }

/-- What a part of the pixel step did: it went on with a value, or it raised and the decode has ended. -/
inductive Eff (α : Type) where
  | ok (a : α) (s : State)
  | raised (s : State)
deriving DecidableEq, Repr

/-- Raise in the middle of a pixel step. -/
def Eff.raise {α : Type} (e : DecodeError) (s : State) : Eff α := .raised (raiseError e s)

/-! ### Register accesses of the host -/

/-- A host read of a register offset: its current value, 0 for a reserved offset (R23, R34, R185). -/
def regRead (s : State) (offset : Nat) : Word :=
  if offset = 0x00 then ctrlWord s
  else if offset = 0x04 then statusWord s
  else if offset = 0x08 then errCodeWord s
  else if offset = 0x0C then s.chord
  else if offset = 0x10 then s.inLen
  else if offset = 0x14 then s.hdr0
  else if offset = 0x18 then s.hdr1
  else if offset = 0x1C then s.hdr2
  else if offset = 0x20 then s.pixCount
  else if offset = 0x24 then s.inPtr
  else 0

/-- The bits of IN_LEN a write keeps: IN_ADDR_BITS-1 down to 0 (R28, R188). -/
def maskInLen (s : State) (w : Word) : Word := BitVec.ofNat 32 (w.toNat % 2 ^ s.params.inAddrBits)

/-- A host write to a register offset other than CTRL's: ignored while BUSY (R186), CHORD whole (R187), IN_LEN masked
(R188), and ignored everywhere else (R34). -/
def regWrite (s : State) (offset : Nat) (w : Word) : State :=
  if s.busy then s
  else if offset = 0x0C then { s with chord := w }
  else if offset = 0x10 then { s with inLen := maskInLen s w }
  else s

end Sys2Proof.Machine
end

