-- ==== Sys2Proof/Machine/Operands.lean ====
section
/-! DEFINITION. Where an instruction's data come from and go to: the decode constants (R36), the sample sources (R100, R101,
R109), the palette lookup (R135), the packer (R140) and the destination of a pixel (R160 to R166). -/

namespace Sys2Proof.Machine

/-! ### The START-time checks and the decode constants -/

/-- BASE: past the colormap for a palette image, 18 for the others (R36, C7). -/
def baseOf (s : State) (model : ColorModel) : Nat :=
  match model with
  | .pal => 18 + s.cmapDepth.toNat / 8 * s.cmapLen
  | .tc => 18
  | .gs => 18

/-- The decode constants of the latched header, CHORD and CTRL (R36). -/
def constsOf (s : State) (rle : Bool) (model : ColorModel) : Consts where
  rle := rle
  model := model
  n := s.width * s.height
  ss := s.depth.toNat / 8
  eb := s.cmapDepth.toNat / 8
  base := baseOf s model
  flipH := s.desc.getLsbD 4
  flipV := !s.desc.getLsbD 5
  rsh := chordRsh s.chord
  gsh := chordGsh s.chord
  bsh := chordBsh s.chord
  ash := chordAsh s.chord
  strictD := s.strict

/-- Steps 5 to 8 of Validate, for a key whose image type and operation are legal (R208). -/
def validateSizes (s : State) (c : Consts) : Except DecodeError Consts :=
  if s.params.maxPixels < c.n then .error .capacityExceeded
  else if c.model = .pal ∧ s.inLimit < c.base then .error (.truncatedInput .colormap)
  else if c.rle = false ∧ s.inLimit < c.base + c.ss * c.n then .error (.truncatedInput .pixelData)
  else .ok c

/-- Validate(): the START-time checks in their priority order, and the decode constants they compute (R208). -/
def validate (s : State) : Except DecodeError Consts :=
  if chordLegal s.chord = false then .error .invalidChannelOrder
  else if s.inLimit < 18 then .error (.truncatedInput .header)
  else
    match imageType s.typ with
    | none => .error .unsupportedImageType
    | some (rle, model) =>
      match decodeKey s.key with
      | .error _ => .error .unsupportedPixelDepth
      | .ok _ => validateSizes s (constsOf s rle model)

/-! ### The sample source -/

/-- The first check of FetchPacket and the header byte it reads (R101). -/
def fetchHeader (s : State) : Eff Byte :=
  if s.inLimit < s.inOffset + 1 then .raise (.truncatedInput .packet) s
  else .ok (inByte s s.inOffset) s

/-- How many sample bytes follow a packet header (R71, R101). -/
def packetBody (kind : PktKind) (count ss : Nat) : Nat :=
  match kind with
  | .run => ss
  | .raw => count * ss

/-- The rest of FetchPacket, for a header byte of this kind and count (R101, R102, R103). -/
def takePacket (kind : PktKind) (count : Nat) (s : State) : Eff Unit :=
  if s.consts.n - s.position < count then .raise .packetOverrun s
  else if s.inLimit < s.inOffset + 1 + packetBody kind count s.consts.ss then .raise (.truncatedInput .packet) s
  else
    match kind with
    | .run =>
      match memRead s (s.inOffset + 1) s.consts.ss with
      | none => .raise (.truncatedInput .read) s
      | some smp =>
        .ok () { s with
          inPtr := s.inPtr + 1 + BitVec.ofNat 32 s.consts.ss, pktRem := count, pktKind := .run, slatch := smp }
    | .raw => .ok () { s with inPtr := s.inPtr + 1, pktRem := count, pktKind := .raw }

/-- FetchPacket(k) (R101). -/
def fetchPacket (s : State) : Eff Unit :=
  match fetchHeader s with
  | .raised s' => .raised s'
  | .ok h s' =>
    if h.getLsbD 7 then takePacket .run (packetCount h) s' else takePacket .raw (packetCount h) s'

/-- The delivery half of NextSample: one sample of the current packet (R100, R102, R103). -/
def deliver (s : State) : Eff (List Byte) :=
  match s.pktKind with
  | .run => .ok s.slatch { s with pktRem := s.pktRem - 1 }
  | .raw =>
    match memRead s s.inOffset s.consts.ss with
    | none => .raise (.truncatedInput .read) s
    | some smp => .ok smp { s with inPtr := s.inPtr + BitVec.ofNat 32 s.consts.ss, pktRem := s.pktRem - 1 }

/-- RawSample(k), for uncompressed images (R109). -/
def rawSample (s : State) : Eff (List Byte) :=
  match memRead s (s.consts.base + s.position * s.consts.ss) s.consts.ss with
  | none => .raise (.truncatedInput .read) s
  | some smp => .ok smp { s with inPtr := BitVec.ofNat 32 (s.consts.base + (s.position + 1) * s.consts.ss) }

/-- NextSample(k) (R100). The fetch has usually taken the packet header in a step of its own before this runs; where
PKT_REM is 0 it is taken here, as the rule has it. -/
def nextSample (rle : Bool) (s : State) : Eff (List Byte) :=
  if rle = false then rawSample s
  else if s.pktRem = 0 then
    match fetchPacket s with
    | .raised s' => .raised s'
    | .ok _ s' => deliver s'
  else deliver s

/-! ### Colours -/

/-- Four 8-bit channels (R130). -/
structure Rgba where
  r : Byte
  g : Byte
  b : Byte
  a : Byte
deriving DecidableEq, Repr

/-- The sentinel: fully opaque white (R138). -/
def sentinel : Rgba := { r := 0xFF#8, g := 0xFF#8, b := 0xFF#8, a := 0xFF#8 }

/-- Three bytes in blue-green-red order; alpha is opaque (R131). Nothing for another number of bytes. -/
def bgr : List Byte → Option Rgba
  | [b, g, r] => some { r := r, g := g, b := b, a := 0xFF#8 }
  | _ => none

/-- Four bytes in blue-green-red-alpha order (R132). -/
def bgra : List Byte → Option Rgba
  | [b, g, r, a] => some { r := r, g := g, b := b, a := a }
  | _ => none

/-- One intensity byte; alpha is opaque (R133). -/
def gray : List Byte → Option Rgba
  | [i] => some { r := i, g := i, b := i, a := 0xFF#8 }
  | _ => none

/-- An intensity byte and an alpha byte (R134). -/
def grayAlpha : List Byte → Option Rgba
  | [i, a] => some { r := i, g := i, b := i, a := a }
  | _ => none

/-- The palette offset of an index byte, a signed integer (R135, C9). -/
def paletteOffset (s : State) (index : Byte) : Int := (index.toNat : Int) - (s.cmapOrigin : Int)

/-- PalLookup: the palette entry of an index, read from IN, or nothing when the index is out of range (R135). -/
def palLookup (index : Byte) (s : State) : Eff (Option (List Byte)) :=
  if 0 ≤ paletteOffset s index ∧ paletteOffset s index < (s.cmapLen : Int) then
    match memRead s (18 + s.consts.eb * (paletteOffset s index).toNat) s.consts.eb with
    | none => .raise (.truncatedInput .read) s
    | some e => .ok (some e) s
  else .ok none s

/-- Pack(r, g, b, a) with the shifts latched at START; bits shifted past bit 31 are lost (R140, R6). -/
def pack (c : Consts) (p : Rgba) : Word :=
  (p.r.setWidth 32 <<< c.rsh.toNat) ||| (p.g.setWidth 32 <<< c.gsh.toNat)
    ||| (p.b.setWidth 32 <<< c.bsh.toNat) ||| (p.a.setWidth 32 <<< c.ash.toNat)

/-! ### The destination of a pixel -/

/-- The stored row of a position (R160). -/
def storedRow (w k : Nat) : Nat := k / w

/-- The stored column of a position (R160). -/
def storedCol (w k : Nat) : Nat := k % w

/-- The general mapping of a storage position to an output index (R162). -/
def dest (flipV flipH : Bool) (w h k : Nat) : Nat :=
  (if flipV then h - 1 - storedRow w k else storedRow w k) * w
    + (if flipH then w - 1 - storedCol w k else storedCol w k)

/-- ORG.BL (R163). -/
def destBL (w h k : Nat) : Nat := (h - 1 - storedRow w k) * w + storedCol w k

/-- ORG.BR (R164). -/
def destBR (w h k : Nat) : Nat := (h - 1 - storedRow w k) * w + (w - 1 - storedCol w k)

/-- ORG.TL (R165). -/
def destTL (w k : Nat) : Nat := storedRow w k * w + storedCol w k

/-- ORG.TR (R166). -/
def destTR (w k : Nat) : Nat := storedRow w k * w + (w - 1 - storedCol w k)

end Sys2Proof.Machine
end

