-- ==== Sys2Proof/Machine/Command.lean ====
section
/-! DEFINITION. The meanings of the CTRL writes (R180 to R184): the header latch (R35), START (R181), the presets (R182,
R183) and the STRICT bit (R184). -/

namespace Sys2Proof.Machine

/-- The header latch (R35). The bound check of MemRead passes for each of these bytes, since L is at least 18. -/
def headerLatch (s : State) : State :=
  if 18 ≤ s.inLimit then
    { s with
      hdr0 := inByte s 17 ++ inByte s 7 ++ inByte s 16 ++ inByte s 2
      hdr1 := le16 s 14 ++ le16 s 12
      hdr2 := le16 s 5 ++ le16 s 3 }
  else { s with hdr0 := 0, hdr1 := 0, hdr2 := 0 }

/-- What START sets before the header latch (R181). PKT_KIND and SLATCH become unspecified (R37, U5); log entry 9. The
model's own pixel flag and draw flag are cleared. -/
def startEntry (s : State) : State :=
  { startFlags s with
    pixCount := 0, inPtr := 0, pktRem := 0
    pktKind := Config.unspecPktKind s.draws
    slatch := wordBytes (Config.unspecSlatch s.draws)
    pixelReady := false, tainted := false, draws := s.draws + 1 }

/-- What START does after the checks passed (R181): an empty image ends at once (D27), any other one enters STREAM. -/
def beginStream (c : Consts) (s : State) : State :=
  let s' := { s with consts := c, inPtr := BitVec.ofNat 32 c.base }
  if c.n = 0 then setDone s' else { s' with phase := .stream }

/-- Start() (R181). -/
def start (s : State) : State :=
  let s' := headerLatch (startEntry s)
  match validate s' with
  | .error e => raiseError e s'
  | .ok c => beginStream c s'

/-- LoadARGB() (R182). -/
def loadArgb (s : State) : State := { s with chord := chordArgb }

/-- LoadABGR() (R183). -/
def loadAbgr (s : State) : State := { s with chord := chordAbgr }

/-- The preset part of a CTRL write: both bits together load neither (R180, U10). -/
def loadPreset (argb abgr : Bool) (s : State) : State :=
  match argb, abgr with
  | true, false => loadArgb s
  | false, true => loadAbgr s
  | true, true => s
  | false, false => s

/-- CtrlWrite(w), by its four action bits: ignored as a whole while BUSY, else STRICT, the preset, then START (R180, R186). -/
def ctrlWrite (startBit strict argb abgr : Bool) (s : State) : State :=
  if s.busy then s
  else
    let s' := loadPreset argb abgr { s with strict := strict }
    if startBit then start s' else s'

/-- START (R181), with the other action bits of the same write (R180). Bits 31:4 are ignored. -/
def execStart (strict argb abgr : Bool) (_ignored : BitVec 28) (s : State) : Result :=
  .next (ctrlWrite true strict argb abgr s)

/-- STRICT (R184), with the preset bits of the same write (R180). -/
def execStrict (argb abgr : Bool) (_ignored : BitVec 28) (s : State) : Result :=
  .next (ctrlWrite false true argb abgr s)

/-- LOAD_ARGB (R182). The same write clears STRICT (R180). -/
def execLoadArgb (_ignored : BitVec 28) (s : State) : Result := .next (ctrlWrite false false true false s)

/-- LOAD_ABGR (R183). The same write clears STRICT (R180). -/
def execLoadAbgr (_ignored : BitVec 28) (s : State) : Result := .next (ctrlWrite false false false true s)

end Sys2Proof.Machine
end

