-- ==== Sys2Proof/Machine/Origin.lean ====
section
/-! DEFINITION. The meanings of the origin descriptors (R163 to R166): the write of the pixel word at its destination, the
step of PIX_COUNT, and the end of the decode after the last pixel (R167). -/

namespace Sys2Proof.Machine

/-- PIX_COUNT steps, and after pixel N - 1 the decode ends with DONE (R167). -/
def advancePixel (s : State) : State :=
  let s' := { s with pixCount := s.pixCount + 1, pixelReady := false }
  if s.position + 1 = s.consts.n then setDone s' else s'

/-- The write of the pixel word at an output index, then the step (R167). Only indices below N are written (R66). -/
def writePixel (d : Nat) (s : State) : Result :=
  if d < s.consts.n then .next (advancePixel (outWrite s d s.pixel)) else .fault .noOutWord

/-- ORG.BL (R163). The bits `hi` and `lo` are ignored (R78). -/
def execOrgBL (_hi : BitVec 2) (_lo : BitVec 4) (s : State) : Result :=
  writePixel (destBL s.width s.height s.position) s

/-- ORG.BR (R164). -/
def execOrgBR (_hi : BitVec 2) (_lo : BitVec 4) (s : State) : Result :=
  writePixel (destBR s.width s.height s.position) s

/-- ORG.TL (R165). -/
def execOrgTL (_hi : BitVec 2) (_lo : BitVec 4) (s : State) : Result :=
  writePixel (destTL s.width s.position) s

/-- ORG.TR (R166). -/
def execOrgTR (_hi : BitVec 2) (_lo : BitVec 4) (s : State) : Result :=
  writePixel (destTR s.width s.position) s

end Sys2Proof.Machine
end

