-- ==== Sys2Proof/Machine/Packet.lean ====
section
/-! DEFINITION. The meanings of the packet headers RUN and RAW (R101 to R103): the checks of FetchPacket, the latching of the
packet state, and for RUN the reading of its one sample. The deliveries of a packet's samples are part of the pixel
operations (R100). -/

namespace Sys2Proof.Machine

/-- A packet instruction goes on, or its raise has ended the decode. -/
def packetResult : Eff Unit → Result
  | .ok _ s => .next s
  | .raised s => .next s

/-- RUN (R102). -/
def execRun (count : Nat) (s : State) : Result := packetResult (takePacket .run count s)

/-- RAW (R103). -/
def execRaw (count : Nat) (s : State) : Result := packetResult (takePacket .raw count s)

end Sys2Proof.Machine
end

