-- ==== Sys2Proof/Machine/Pixel.lean ====
section
/-! DEFINITION. The meanings of the format keys (R130 to R139): take the next sample, resolve it into four channels, pack
them (R140), and hold the word for the write of the same pixel step (R167). -/

namespace Sys2Proof.Machine

/-- The packed word of a colour waits for the pixel write (R143, R167). -/
def latchPixel (c : Rgba) (s : State) : State := { s with pixel := pack s.consts c, pixelReady := true }

/-- A pixel of a resolved colour; a sample of the wrong number of bytes has none. -/
def resolved : Option Rgba → State → Result
  | some c, s => .next (latchPixel c s)
  | none, _ => .fault .sampleShape

/-- A pixel operation whose sample is the colour itself (R131 to R134). -/
def directPixel (rle : Bool) (resolve : List Byte → Option Rgba) (s : State) : Result :=
  match nextSample rle s with
  | .raised s' => .next s'
  | .ok smp s' => resolved (resolve smp) s'

/-- An index out of range: the sentinel and PAL_OOR (R138), or the strict-mode error (R139). -/
def indexOutOfRange (s : State) : State :=
  if s.consts.strictD then raiseError .paletteIndexOutOfRange s else latchPixel sentinel (setPalOor s)

/-- The pixel of an index byte (R135 to R139). -/
def palettePixelOf (entry : List Byte → Option Rgba) (index : Byte) (s : State) : Result :=
  match palLookup index s with
  | .raised s' => .next s'
  | .ok none s' => .next (indexOutOfRange s')
  | .ok (some e) s' => resolved (entry e) s'

/-- A pixel operation whose sample is an index byte (R135 to R139). -/
def palettePixel (rle : Bool) (entry : List Byte → Option Rgba) (s : State) : Result :=
  match nextSample rle s with
  | .raised s' => .next s'
  | .ok [index] s' => palettePixelOf entry index s'
  | .ok _ _ => .fault .sampleShape

/-- TC24 (R131). CMAP_DEPTH is don't-care (R75). -/
def execTc24 (rle : Bool) (_cmapDepth : Byte) (s : State) : Result := directPixel rle bgr s

/-- TC32 (R132). -/
def execTc32 (rle : Bool) (_cmapDepth : Byte) (s : State) : Result := directPixel rle bgra s

/-- GS8 (R133). -/
def execGs8 (rle : Bool) (_cmapDepth : Byte) (s : State) : Result := directPixel rle gray s

/-- GS16 (R134). -/
def execGs16 (rle : Bool) (_cmapDepth : Byte) (s : State) : Result := directPixel rle grayAlpha s

/-- PAL24: the entry as a TC24 sample (R136). -/
def execPal24 (rle : Bool) (s : State) : Result := palettePixel rle bgr s

/-- PAL32: the entry as a TC32 sample (R137). -/
def execPal32 (rle : Bool) (s : State) : Result := palettePixel rle bgra s

end Sys2Proof.Machine
end

