-- ==== Sys2Proof/Machine/Dispatch.lean ====
section
/-! DEFINITION. One arm per instruction, each one call of its meaning. -/

namespace Sys2Proof.Machine

def exec (i : Instr) (s : State) : Host.Outcome State Fault Refusal :=
  match i with
  | .run count => Sys2Proof.Machine.execRun count s
  | .raw count => Sys2Proof.Machine.execRaw count s
  | .tc24 rle c => Sys2Proof.Machine.execTc24 rle c s
  | .tc32 rle c => Sys2Proof.Machine.execTc32 rle c s
  | .gs8 rle c => Sys2Proof.Machine.execGs8 rle c s
  | .gs16 rle c => Sys2Proof.Machine.execGs16 rle c s
  | .pal24 rle => Sys2Proof.Machine.execPal24 rle s
  | .pal32 rle => Sys2Proof.Machine.execPal32 rle s
  | .orgBL hi lo => Sys2Proof.Machine.execOrgBL hi lo s
  | .orgBR hi lo => Sys2Proof.Machine.execOrgBR hi lo s
  | .orgTL hi lo => Sys2Proof.Machine.execOrgTL hi lo s
  | .orgTR hi lo => Sys2Proof.Machine.execOrgTR hi lo s
  | .start strict argb abgr x => Sys2Proof.Machine.execStart strict argb abgr x s
  | .strict argb abgr x => Sys2Proof.Machine.execStrict argb abgr x s
  | .loadArgb x => Sys2Proof.Machine.execLoadArgb x s
  | .loadAbgr x => Sys2Proof.Machine.execLoadAbgr x s

end Sys2Proof.Machine
end

