-- ==== Sys2Proof/Machine/HostBus.lean ====
section
/-! DEFINITION. The host's accesses other than CTRL writes that an instruction names: register reads and writes (R185 to
R188), accesses to IN and OUT with the consequence of breaking the host's duties (R64, R66, R234, R235), and reset (R230 to
R232). -/

namespace Sys2Proof.Machine

/-- A write to CTRL that no command row matches: STRICT is cleared, no preset loads, no decode starts (R180, U10). -/
def ctrlWriteNoCommand (w : Word) (s : State) : State :=
  ctrlWrite false (w.getLsbD 1) (w.getLsbD 2) (w.getLsbD 3) s

/-- A host read of a register (R185). -/
def hostReadReg (offset : Nat) (s : State) : State := { s with rdata := regRead s offset }

/-- The address space of IN (R50). -/
def inAddressOk (s : State) (a : Nat) : Bool := decide (a < 2 ^ s.params.inAddrBits)

/-- The host writes a byte of IN. While BUSY this breaks its duty, and the running decode's outcome becomes a draw (R64,
R234, U1). -/
def hostWriteIn (a : Nat) (b : Byte) (s : State) : Result :=
  if inAddressOk s a then .next { s with inMem := memInsert s.inMem a b, tainted := s.tainted || s.busy }
  else .fault .noInAddress

/-- The host reads a byte of IN, zero-extended. -/
def hostReadIn (a : Nat) (s : State) : Result :=
  if inAddressOk s a then .next { s with rdata := (inByte s a).setWidth 32 } else .fault .noInAddress

/-- What a host read of OUT sees: the word, or while BUSY any value (R66, R235, U3). -/
def outSeen (s : State) (d : Nat) : Word := if s.busy then Config.unspecRead s.draws else outWord s d

/-- A read of OUT while BUSY draws a free value. -/
def countOutRead (s : State) : State := if s.busy then { s with draws := s.draws + 1 } else s

/-- The host reads a word of OUT (R52, R233). -/
def hostReadOut (d : Nat) (s : State) : Result :=
  if d < s.params.maxPixels then .next { countOutRead s with rdata := outSeen s d } else .fault .noOutWord

/-- Byte `i` of a word in a byte order, `i` from 0 to 3 at rising byte addresses (R55, D29). -/
def byteOf (order : ByteOrder) (w : Word) (i : Nat) : Byte :=
  match order with
  | .little => w.extractLsb' (8 * i) 8
  | .big => w.extractLsb' (8 * (3 - i)) 8

/-- The host reads a byte of OUT where the platform shows OUT as bytes (R55). -/
def hostReadOutByte (a : Nat) (s : State) : Result :=
  if a / 4 < s.params.maxPixels then
    .next { countOutRead s with rdata := (byteOf s.params.outByteOrder (outSeen s (a / 4)) (a % 4)).setWidth 32 }
  else .fault .noOutWord

/-- The running decode has written this output index: it is below N, and its storage position is below PIX_COUNT. The
mapping is its own inverse (R168). -/
def writtenByDecode (s : State) (d : Nat) : Bool :=
  decide (d < s.consts.n)
    && decide (dest s.consts.flipV s.consts.flipH s.width s.height d < s.position)

/-- The words a list holds, those the interrupted decode wrote replaced by unspecified ones (R232, U4). -/
def forgetWritten (s : State) : List (Nat × Word) → List (Nat × Word)
  | [] => []
  | (d, v) :: m => (d, if writtenByDecode s d then Config.unspecOut (s.draws + 1) d else v) :: forgetWritten s m

/-- OUT after a reset: unchanged when idle (R231); while BUSY the words the decode wrote become any value (R232), and where
the host broke its duty of R234, so that it is not known which words those are, every word does (R64). -/
def outAfterReset (s : State) : OutMem :=
  if s.busy = false then s.out
  else if s.tainted then { epoch := s.draws + 1, words := [] }
  else { s.out with words := forgetWritten s s.out.words }

/-- Reset: every register takes its reset value, the packet state of R37 with it, and the phase is IDLE (R230). IN and OUT
are not changed (R231), but the words a running decode wrote become any value (R232). -/
def resetBlock (s : State) : State :=
  { s with
    strict := false, busy := false, done := false, err := false, palOor := false, errCode := 0, errCause := none
    chord := chordArgb, inLen := 0, hdr0 := 0, hdr1 := 0, hdr2 := 0, pixCount := 0, inPtr := 0
    pktKind := Config.unspecPktKind s.draws
    slatch := wordBytes (Config.unspecSlatch s.draws)
    pktRem := 0, phase := .idle, pixelReady := false, tainted := false, draws := s.draws + 1
    out := outAfterReset s }

end Sys2Proof.Machine
end

