-- ==== Sys2Proof/Machine/Fetch.lean ====
section
/-! DEFINITION. What the machine does next: the next host event, or, when the host lets it, the block's next part of a pixel
step (R167), split into the packet header, the pixel operation and the write (R238; log entry 2). Also how a word of the
opcode table is put where the next step fetches it (log entry 4). -/

namespace Sys2Proof.Machine

/-- The next thing to do: run an instruction at a state, or something that is no instruction, already done. -/
inductive Fetched where
  | instr (i : Instr) (s : State)
  | result (r : Result)

/-- A number from `lo` to `hi` that a draw selects. -/
def between (lo hi draw : Nat) : Nat := lo + draw % (hi - lo + 1)

/-- How many pixels a drawn decode has counted: N after DONE, and after ERR at least those it had completed and fewer than N,
since an error is raised in the step of a pixel that is left (R32). -/
def drawnPixCount (s : State) : Nat :=
  if Config.drawCode s.draws = 0 then s.consts.n
  else between s.position (s.consts.n - 1) (Config.drawPixCount s.draws)

/-- The input pointer a drawn decode ends with: it never moves backwards and never passes IN_LEN (R22). -/
def drawnInPtr (s : State) : Nat := between s.inOffset s.inLimit (Config.drawInPtr s.draws)

/-- The end of a decode during which the host wrote IN: any outcome of R200, and any content of OUT (R64, U1). PIX_COUNT and
IN_PTR go on from where they stand, to any value within the bounds of R32 and R22. The draw flag stays until the next START
or reset. DESIGN CHOICE: PKT_REM, PKT_KIND and SLATCH, of which R64 and U1 say nothing, keep the values they had, also after a
drawn DONE. Log entry 7. -/
def drawResult (s : State) : State :=
  outUnspecified { s with
    busy := false, phase := .idle, pixelReady := false
    done := Config.drawCode s.draws == 0
    err := Config.drawCode s.draws != 0
    errCode := Config.drawCode s.draws
    errCause := none
    palOor := Config.drawPalOor s.draws
    pixCount := BitVec.ofNat 32 (drawnPixCount s)
    inPtr := BitVec.ofNat 32 (drawnInPtr s) }

/-- The packet header at IN_PTR (R101). -/
def fetchPacketHeader (s : State) : Fetched :=
  match fetchHeader s with
  | .raised s' => .result (.next s')
  | .ok h s' => .instr (decodePacket h) s'

/-- The pixel operation of the latched format key (R130). -/
def fetchKey (s : State) : Fetched :=
  match decodeKey s.key with
  | .ok i => .instr i s
  | .error _ => .result (.fault .noFormatKey)

/-- The block's next part of a pixel step; an idle block does nothing (R167, R217). -/
def fetchBlock (s : State) : Fetched :=
  if s.busy = false ∨ s.phase = .idle then .result (.next s)
  else if s.tainted then .result (.next (drawResult s))
  else if s.pixelReady then .instr (decodeOrigin s.desc) s
  else if s.consts.rle ∧ s.pktRem = 0 then fetchPacketHeader s
  else fetchKey s

/-- A host write to CTRL (R80, R180). -/
def fetchCtrl (w : Word) (s : State) : Fetched :=
  match decodeCtrl w with
  | .ok i => .instr i s
  | .error _ => .result (.next (ctrlWriteNoCommand w s))

/-- A host write to a register (R23). -/
def fetchRegWrite (offset : Nat) (w : Word) (s : State) : Fetched :=
  if offset = 0 then fetchCtrl w s else .result (.next (regWrite s offset w))

/-- The next thing to do. The head of the queue is taken off before it acts. -/
def fetch (s : State) : Fetched :=
  match s.hostQ with
  | [] => fetchBlock s
  | .wait :: q => fetchBlock { s with hostQ := q }
  | .writeReg offset w :: q => fetchRegWrite offset w { s with hostQ := q }
  | .readReg offset :: q => .result (.next (hostReadReg offset { s with hostQ := q }))
  | .writeIn a b :: q => .result (hostWriteIn a b { s with hostQ := q })
  | .readIn a :: q => .result (hostReadIn a { s with hostQ := q })
  | .readOut d :: q => .result (hostReadOut d { s with hostQ := q })
  | .readOutByte a :: q => .result (hostReadOutByte a { s with hostQ := q })
  | .reset :: q => .result (.next (resetBlock { s with hostQ := q }))

/-! ### Placing a word of the opcode table -/

/-- The list with bytes at rising addresses. -/
def memInsertAll (m : List Host.Cell) (a : Nat) : List Byte → List Host.Cell
  | [] => m
  | b :: bs => memInsertAll (memInsert m a b) (a + 1) bs

/-- A decode in progress, at a point where the block moves next. -/
def placeStream (s : State) : State :=
  { s with
    hostQ := .wait :: s.hostQ, busy := true, done := false, err := false, phase := .stream, tainted := false }

/-- Input bytes at an offset, IN_LEN reaching past them. -/
def placeBytes (a : Nat) (bs : List Byte) (s : State) : State :=
  { s with
    inMem := memInsertAll s.inMem a bs
    inLen := if s.inLimit < a + bs.length then BitVec.ofNat 32 (a + bs.length) else s.inLen }

/-- A packet header where the block fetches its next one, its sample bytes zero, in an RLE image with room for it. -/
def placePacket (h : Byte) (s : State) : State :=
  let ss := if s.consts.ss = 0 then 1 else s.consts.ss
  let body := if h.getLsbD 7 then ss else packetCount h * ss
  let n := if s.consts.n < s.position + packetCount h then s.position + packetCount h else s.consts.n
  placeBytes s.inOffset (h :: List.replicate body 0#8)
    { placeStream s with
      pixelReady := false, pktRem := 0, consts := { s.consts with rle := true, ss := ss, n := n } }

/-- A format key in the latched header, at the point where its pixel operation runs next, on a sample of zero bytes: the
latched sample of a run packet in an RLE image, else bytes of IN. -/
def placeKey (key : Key) (s : State) : State :=
  let ss := (keyDepth key).toNat / 8
  let rle := key.getLsbD 3
  let c : Consts := { s.consts with rle := rle, ss := ss, eb := (keyCmapDepth key).toNat / 8 }
  let s' := { placeStream s with
    pixelReady := false, hdr0 := s.desc ++ keyCmapDepth key ++ keyDepth key ++ keyType key, consts := c }
  if rle then { s' with pktKind := .run, pktRem := 1, slatch := List.replicate ss 0#8 }
  else placeBytes (c.base + s.position * ss) (List.replicate ss 0#8) s'

/-- An origin descriptor in the latched header, at the point where the pixel word is written next. Where the latched image
has no pixel left, it is made one of 1 by 1 pixels at its start. -/
def placeOrigin (d : Byte) (s : State) : State :=
  let s' := { placeStream s with
    pixelReady := true, hdr0 := d ++ s.cmapDepth ++ s.depth ++ s.typ
    consts := { s.consts with n := s.width * s.height } }
  if s.position < s.width * s.height then s'
  else { s' with pixCount := 0, hdr1 := 0x00010001#32, consts := { s.consts with n := 1 } }

/-- A CTRL write as the host's next event. -/
def placeCtrl (w : Word) (s : State) : State := { s with hostQ := .writeReg 0 w :: s.hostQ }

/-- A word of the opcode table where the next step fetches it, with all that this fetch takes. -/
def placeTableWord (s : State) (nbits w : Nat) : State :=
  match tableSlot nbits w with
  | .packet => placePacket (BitVec.ofNat 8 w) s
  | .key => placeKey (BitVec.ofNat 24 w) s
  | .origin => placeOrigin (BitVec.ofNat 8 w) s
  | .ctrl => placeCtrl (BitVec.ofNat 32 w) s

end Sys2Proof.Machine
end

