-- ==== Sys2Proof/Machine/Step.lean ====
section
/-! DEFINITION. One step: fetch what comes next and, where that is an instruction, run it. -/

namespace Sys2Proof.Machine

/-- Do what was fetched. -/
def perform : Fetched → Result
  | .instr i s => exec i s
  | .result r => r

/-- One step of the machine. -/
def step (s : State) : Host.Outcome State Fault Refusal := perform (fetch s)

/-- A word of the opcode table where the next step fetches it. -/
def State.withFetchWord (s : State) (nbits w : Nat) : State := placeTableWord s nbits w

end Sys2Proof.Machine
end

