-- ==== Sys2Proof/Machine/Whole.lean ====
section
/-! DEFINITION. The rules that speak of more than one step of the model, written as functions of their own so that claims
can compare the steps with them: the pixel step as one action (R167), the whole packet stream (R111), the deliveries of one
packet (R102, R103), and a run of steps. No step of the machine calls them. -/

namespace Sys2Proof.Machine

/-! ### The pixel step as one action -/

/-- The palette resolver (R135 to R139). -/
def resolvePalette (entry : List Byte → Option Rgba) (index : Byte) (s : State) : Option (Eff Rgba) :=
  match palLookup index s with
  | .raised s' => some (.raised s')
  | .ok none s' =>
    if s'.consts.strictD then some (.raise .paletteIndexOutOfRange s') else some (.ok sentinel (setPalOor s'))
  | .ok (some e) s' => (entry e).map (fun c => .ok c s')

/-- Resolve(s, k): the arm the format key selects (R130). Nothing for an instruction that is no format key, and for a
sample of the wrong number of bytes. -/
def resolve (op : Instr) (smp : List Byte) (s : State) : Option (Eff Rgba) :=
  match op, smp with
  | .tc24 _ _, smp => (bgr smp).map (fun c => .ok c s)
  | .tc32 _ _, smp => (bgra smp).map (fun c => .ok c s)
  | .gs8 _ _, smp => (gray smp).map (fun c => .ok c s)
  | .gs16 _ _, smp => (grayAlpha smp).map (fun c => .ok c s)
  | .pal24 _, [index] => resolvePalette bgr index s
  | .pal32 _, [index] => resolvePalette bgra index s
  | _, _ => none

/-- The end of a pixel step: MemWrite at Dest(k) by the general mapping, PIX_COUNT, and DONE after the last pixel (R162,
R167). -/
def storePixel (c : Rgba) (s : State) : State :=
  let d := dest s.consts.flipV s.consts.flipH s.width s.height s.position
  let s' := outWrite s d (pack s.consts c)
  let s'' := { s' with pixCount := s.pixCount + 1 }
  if s.position + 1 = s.consts.n then setDone s'' else s''

/-- PixelStep as the rule writes it (R167). Nothing where the latched header holds no legal key or a sample has the wrong
number of bytes, which no reachable state has. -/
def pixelStep (s : State) : Option State :=
  match decodeKey s.key with
  | .error _ => none
  | .ok op =>
    match nextSample s.consts.rle s with
    | .raised s' => some s'
    | .ok smp s' =>
      match resolve op smp s' with
      | none => none
      | some (.raised s'') => some s''
      | some (.ok c s'') => some (storePixel c s'')

/-! ### The packet stream as one function -/

/-- The `n` bytes a reading function gives from an address. -/
def readBytes (rd : Nat → Byte) (a : Nat) : Nat → List Byte
  | 0 => []
  | n + 1 => rd a :: readBytes rd (a + 1) n

/-- What Expand answers: the stream and the pointer after it, or an error with its position and its packet's offset. -/
inductive Expanded where
  | stream (out : List Byte) (p : Nat)
  | failed (e : DecodeError) (k p : Nat)
deriving DecidableEq, Repr

/-- The loop of Expand, from `k` samples already in `out` and the pointer `p` (R111). Each packet delivers at least one
sample, so as much fuel as samples still required is enough. -/
def expandFrom (rd : Nat → Byte) (limit ss n : Nat) : Nat → List Byte → Nat → Nat → Expanded
  | 0, out, _, p => .stream out p
  | fuel + 1, out, k, p =>
    if n ≤ k then .stream out p
    else if limit < p + 1 then .failed (.truncatedInput .packet) k p
    else if n - k < packetCount (rd p) then .failed .packetOverrun k p
    else if (rd p).getLsbD 7 then
      if limit < p + 1 + ss then .failed (.truncatedInput .packet) k p
      else
        expandFrom rd limit ss n fuel
          (out ++ (List.replicate (packetCount (rd p)) (readBytes rd (p + 1) ss)).flatten)
          (k + packetCount (rd p)) (p + 1 + ss)
    else if limit < p + 1 + packetCount (rd p) * ss then .failed (.truncatedInput .packet) k p
    else
      expandFrom rd limit ss n fuel (out ++ readBytes rd (p + 1) (packetCount (rd p) * ss))
        (k + packetCount (rd p)) (p + 1 + packetCount (rd p) * ss)

/-- Expand(IN, L, BASE, SS, N) (R111). -/
def expand (rd : Nat → Byte) (limit base ss n : Nat) : Expanded := expandFrom rd limit ss n n [] 0 base

/-- The samples of `m` positions, one NextSample after another, with PIX_COUNT stepping between them (R100, R167). -/
def collect : Nat → List Byte → State → Eff (List Byte)
  | 0, out, s => .ok out s
  | m + 1, out, s =>
    match nextSample true s with
    | .raised s' => .raised s'
    | .ok smp s' => collect m (out ++ smp) { s' with pixCount := s'.pixCount + 1 }

/-- The next `m` deliveries of the current packet, in order (R102, R103). -/
def deliverAll : Nat → State → Eff (List (List Byte))
  | 0, s => .ok [] s
  | m + 1, s =>
    match deliver s with
    | .raised s' => .raised s'
    | .ok smp s' =>
      match deliverAll m s' with
      | .raised s'' => .raised s''
      | .ok smps s'' => .ok (smp :: smps) s''

/-! ### Runs -/

/-- `m` steps, stopping at the first fault or refusal. -/
def run : Nat → State → Result
  | 0, s => .next s
  | m + 1, s =>
    match step s with
    | .next s' => run m s'
    | .fault f => .fault f
    | .refused r => .refused r

end Sys2Proof.Machine
end

