-- ==== Sys2Proof/Safety.lean ====
section
/-! DEFINITION. The terms claims are stated in: what a safe run is, what every reachable state satisfies, the host's duties,
and where a sample stands before a pixel operation takes it. -/

namespace Sys2Proof.Machine

/-! ### Safe runs and the host -/

/-- A run of `m` steps is safe when none of them stops. -/
def SafeFor (m : Nat) (s : State) : Prop := ∃ t, run m s = .next t

/-- The next host event, if it names an address, names one that exists (R50, R52). -/
def HeadInRange (s : State) : Prop :=
  match s.hostQ with
  | .writeIn a _ :: _ => a < 2 ^ s.params.inAddrBits
  | .readIn a :: _ => a < 2 ^ s.params.inAddrBits
  | .readOut d :: _ => d < s.params.maxPixels
  | .readOutByte a :: _ => a / 4 < s.params.maxPixels
  | [] => True
  | .wait :: _ => True
  | .writeReg _ _ :: _ => True
  | .readReg _ :: _ => True
  | .reset :: _ => True

/-- It is the block's turn to move, and `q` are the host events that stay queued. -/
def BlockMoves (s : State) (q : List HostEvent) : Prop := (s.hostQ = [] ∧ q = []) ∨ s.hostQ = .wait :: q

/-- The state with these host events still to come. -/
def State.withQueue (s : State) (q : List HostEvent) : State := { s with hostQ := q }

/-- A running decode whose input the host has left alone (R234), at a point where the block moves. -/
def Decoding (s : State) : Prop := s.busy = true ∧ s.phase = .stream ∧ s.tainted = false

/-! ### The invariant -/

/-- 1 when a pixel word waits to be written: its sample is already taken. -/
def State.readyCount (s : State) : Nat := if s.pixelReady then 1 else 0

/-- At most one of BUSY, DONE and ERR is 1 (R25). -/
def State.OneStatus (s : State) : Prop :=
  ¬(s.busy = true ∧ s.done = true) ∧ ¬(s.busy = true ∧ s.err = true) ∧ ¬(s.done = true ∧ s.err = true)

/-- What holds while BUSY: the constants are those the checks computed and still compute (R36, R186), a pixel is left, and
the packet state fits what is left of the image and of the input (R22, R101, R105, R109). -/
structure State.Streaming (s : State) : Prop where
  phase : s.phase = .stream
  valid : validate s = .ok s.consts
  pixelLeft : s.position < s.consts.n
  ptrHigh : s.inOffset ≤ s.inLimit
  ptrLow : s.consts.base ≤ s.inOffset
  flat : s.consts.rle = false →
    s.pktRem = 0 ∧ s.inOffset = s.consts.base + (s.position + s.readyCount) * s.consts.ss
  packet : s.consts.rle = true → s.position + s.readyCount + s.pktRem ≤ s.consts.n
  runLatch : s.pktRem ≠ 0 → s.pktKind = .run → s.slatch.length = s.consts.ss
  rawBody : s.pktRem ≠ 0 → s.pktKind = .raw → s.inOffset + s.pktRem * s.consts.ss ≤ s.inLimit

/-- What holds while idle (R38, R32, R105). -/
structure State.Resting (s : State) : Prop where
  phase : s.phase = .idle
  noPixel : s.pixelReady = false
  counted : s.done = true → s.position = s.consts.n
  streamUsed : s.done = true → s.tainted = false → s.pktRem = 0
  sized : s.done = true → s.consts.n = s.width * s.height

/-- The invariant of the machine. -/
structure State.Inv (s : State) : Prop where
  params : s.params.valid
  inWf : Memory.wf s.inMem = true
  outWf : Memory.wf s.out.words = true
  inSpace : ∀ c ∈ s.inMem, c.1 < 2 ^ s.params.inAddrBits
  outSpace : ∀ c ∈ s.out.words, c.1 < s.params.maxPixels
  status : s.OneStatus
  errCode : s.err = true ↔ s.errCode ≠ 0
  inLenBits : s.inLimit < 2 ^ s.params.inAddrBits
  inPtrBits : s.inOffset < 2 ^ s.params.inAddrBits
  pktRem : s.pktRem ≤ 128
  slatch : s.slatch.length ≤ 4
  epoch : s.out.epoch ≤ s.draws
  palOor : s.palOor = true → s.tainted = false → s.consts.strictD = false
  streaming : s.busy = true → s.Streaming
  resting : s.busy = false → s.Resting

/-- A bound on the block's moves left in a decode: three for each pixel left, less those of the current pixel already made
(R237). -/
def movesLeft (s : State) : Nat :=
  3 * (s.consts.n - s.position)
    - (if s.pixelReady then 2 else if s.consts.rle = true ∧ s.pktRem = 0 then 0 else 1)

/-- Every pixel the running decode has counted, or every pixel of a decode that reached DONE, stands in OUT (R168). -/
def Covered (s : State) : Prop :=
  s.tainted = false → (s.busy = true ∨ s.done = true) → ∀ k, k < s.position →
    (memLookup s.out.words (dest s.consts.flipV s.consts.flipH s.width s.height k)).isSome

/-! ### Errors -/

/-- The number of a fatal error in the table of R200. -/
def errorNumber : DecodeError → Nat
  | .unsupportedImageType => 1
  | .unsupportedPixelDepth => 2
  | .truncatedInput _ => 3
  | .paletteIndexOutOfRange => 4
  | .invalidChannelOrder => 5
  | .packetOverrun => 6
  | .capacityExceeded => 7

/-- A result is the entry into an error from a state (R209): ERRCODE, ERR, BUSY and the phase are set, and PIX_COUNT, IN_PTR,
the latched header, PAL_OOR, DONE, the configuration, the decode constants and the input keep the values they had at the
raise; no pixel waits to be written, and no word of OUT keeps a known value (R210). -/
def Raises (r : Result) (s : State) (e : DecodeError) : Prop :=
  ∃ t, r = .next t ∧ t.errCode.toNat = errorNumber e ∧ t.errCause = e.cause? ∧ t.err = true ∧ t.busy = false ∧
    t.phase = .idle ∧ t.done = s.done ∧ t.pixCount = s.pixCount ∧ t.inPtr = s.inPtr ∧ t.hdr0 = s.hdr0 ∧
    t.hdr1 = s.hdr1 ∧ t.hdr2 = s.hdr2 ∧ t.palOor = s.palOor ∧ t.strict = s.strict ∧ t.chord = s.chord ∧
    t.inLen = s.inLen ∧ t.consts = s.consts ∧ t.params = s.params ∧ t.inMem = s.inMem ∧ t.hostQ = s.hostQ ∧
    t.pixelReady = false ∧ t.out.words = []

/-- Each of the four shifts is one of 0, 8, 16 and 24, and no two are equal (R27, R208). -/
abbrev LegalShifts (rsh gsh bsh ash : Byte) : Prop :=
  (∀ b ∈ [rsh, gsh, bsh, ash], b ∈ [0#8, 8#8, 16#8, 24#8]) ∧ [rsh, gsh, bsh, ash].Nodup

/-- A legal CHORD (R27, R205). -/
abbrev LegalOrder (chord : Word) : Prop :=
  LegalShifts (chord.extractLsb' 0 8) (chord.extractLsb' 8 8) (chord.extractLsb' 16 8) (chord.extractLsb' 24 8)

/-! ### What a format key says -/

/-- The RLE bit of a format key's instruction (R74). -/
def keyRle : Instr → Bool
  | .tc24 rle _ | .tc32 rle _ | .gs8 rle _ | .gs16 rle _ | .pal24 rle | .pal32 rle => rle
  | _ => false

/-- The colour model of a format key's operation (R74, R75). -/
def keyModel : Instr → ColorModel
  | .tc24 _ _ => .tc
  | .tc32 _ _ => .tc
  | .gs8 _ _ => .gs
  | .gs16 _ _ => .gs
  | _ => .pal

/-! ### The file a START finds -/

/-- The width field of the file in IN (R59). -/
def fileWidth (s : State) : Nat := (le16 s 12).toNat
/-- The height field of the file in IN (R59). -/
def fileHeight (s : State) : Nat := (le16 s 14).toNat
/-- The colormap length field of the file in IN (R59). -/
def fileCmapLen (s : State) : Nat := (le16 s 5).toNat
/-- The colormap origin field of the file in IN (R59). -/
def fileCmapOrigin (s : State) : Nat := (le16 s 3).toNat
/-- The format key of the file in IN (R59, R75). -/
def fileKey (s : State) : Key := mkKey (inByte s 7) (inByte s 16) (inByte s 2)
/-- N of the file in IN (R36). -/
def fileN (s : State) : Nat := fileWidth s * fileHeight s
/-- BASE of the file in IN, for a colour model (R36, R59). -/
def fileBase (s : State) (model : ColorModel) : Nat :=
  if model = .pal then 18 + (inByte s 7).toNat / 8 * fileCmapLen s else 18
/-- SS of the file in IN (R36). -/
def fileSS (s : State) : Nat := (inByte s 16).toNat / 8

/-- CHORD after the preset bits of a CTRL write (R180, R182, R183). -/
def presetChord (argb abgr : Bool) (chord : Word) : Word :=
  if argb = true ∧ abgr = false then 0x18000810#32
  else if argb = false ∧ abgr = true then 0x18100800#32
  else chord

/-- Every check of Validate passes for the file in IN, with this CHORD; `op` is the operation its key selects (R208). -/
structure FileAccepted (s : State) (chord : Word) (op : Instr) : Prop where
  order : LegalOrder chord
  header : 18 ≤ s.inLimit
  key : decodeKey (fileKey s) = .ok op
  capacity : fileN s ≤ s.params.maxPixels
  colormap : keyModel op = .pal → fileBase s .pal ≤ s.inLimit
  data : keyRle op = false → fileBase s (keyModel op) + fileSS s * fileN s ≤ s.inLimit

/-- The decode constants the rule gives for the file in IN, a CHORD and a STRICT bit (R36). -/
def fileConsts (s : State) (chord : Word) (strict : Bool) (op : Instr) : Consts where
  rle := keyRle op
  model := keyModel op
  n := fileN s
  ss := fileSS s
  eb := (inByte s 7).toNat / 8
  base := fileBase s (keyModel op)
  flipH := (inByte s 17).getLsbD 4
  flipV := !(inByte s 17).getLsbD 5
  rsh := chord.extractLsb' 0 8
  gsh := chord.extractLsb' 8 8
  bsh := chord.extractLsb' 16 8
  ash := chord.extractLsb' 24 8
  strictD := strict

/-- The latched header of `t` is that of the file in IN at `s` (R35, R29 to R31), or 0 where L is below 18. -/
def HeaderLatched (s t : State) : Prop :=
  (18 ≤ s.inLimit →
    t.typ = inByte s 2 ∧ t.depth = inByte s 16 ∧ t.cmapDepth = inByte s 7 ∧ t.desc = inByte s 17 ∧
      t.width = (inByte s 12).toNat + 256 * (inByte s 13).toNat ∧
      t.height = (inByte s 14).toNat + 256 * (inByte s 15).toNat ∧
      t.cmapOrigin = (inByte s 3).toNat + 256 * (inByte s 4).toNat ∧
      t.cmapLen = (inByte s 5).toNat + 256 * (inByte s 6).toNat) ∧
  (s.inLimit < 18 → t.hdr0 = 0 ∧ t.hdr1 = 0 ∧ t.hdr2 = 0)

/-- What START leaves of the registers it writes and of all it does not write, whatever its outcome, for the STRICT bit and
the CHORD of its word (R180, R181, R35). -/
def StartCommon (s t : State) (strict : Bool) (chord : Word) : Prop :=
  HeaderLatched s t ∧ t.strict = strict ∧ t.chord = chord ∧ t.palOor = false ∧ t.pixCount = 0 ∧ t.pktRem = 0 ∧
    t.pixelReady = false ∧ t.tainted = false ∧ t.inLen = s.inLen ∧ t.params = s.params ∧ t.inMem = s.inMem ∧
    t.rdata = s.rdata ∧ t.hostQ = s.hostQ

/-- START ended in a fatal error: its flags, with PIX_COUNT and IN_PTR 0 and the header latched (R181, R208, R209). -/
def StartRaises (r : Result) (s : State) (strict : Bool) (chord : Word) (e : DecodeError) : Prop :=
  ∃ t, r = .next t ∧ StartCommon s t strict chord ∧ t.errCode.toNat = errorNumber e ∧ t.errCause = e.cause? ∧
    t.err = true ∧ t.busy = false ∧ t.done = false ∧ t.phase = .idle ∧ t.inPtr = 0

/-! ### What a decode can see -/

/-- Two states no rule of the decode tells apart (R190): the registers and the progress of the decode are equal, IN is equal
below L, and so are the words of OUT the decode wrote. The rest of OUT, the bytes of IN from L on, what the host last read,
and whatever is unspecified (PKT_KIND and SLATCH between packets, the free values drawn so far) may differ. -/
structure SameView (s t : State) : Prop where
  params : t.params = s.params
  strict : t.strict = s.strict
  busy : t.busy = s.busy
  done : t.done = s.done
  err : t.err = s.err
  palOor : t.palOor = s.palOor
  errCode : t.errCode = s.errCode
  errCause : t.errCause = s.errCause
  chord : t.chord = s.chord
  inLen : t.inLen = s.inLen
  hdr0 : t.hdr0 = s.hdr0
  hdr1 : t.hdr1 = s.hdr1
  hdr2 : t.hdr2 = s.hdr2
  pixCount : t.pixCount = s.pixCount
  inPtr : t.inPtr = s.inPtr
  pktRem : t.pktRem = s.pktRem
  phase : t.phase = s.phase
  pixelReady : t.pixelReady = s.pixelReady
  hostQ : t.hostQ = s.hostQ
  clean : s.tainted = false ∧ t.tainted = false
  consts : s.busy = true ∨ s.done = true → t.consts = s.consts
  packet : s.pktRem ≠ 0 → t.pktKind = s.pktKind ∧ (s.pktKind = .run → t.slatch = s.slatch)
  pixel : s.pixelReady = true → t.pixel = s.pixel
  input : ∀ a, a < s.inLimit → inByte t a = inByte s a
  output : s.busy = true ∨ s.done = true → ∀ k, k < s.position →
    outWord t (dest s.consts.flipV s.consts.flipH s.width s.height k)
      = outWord s (dest s.consts.flipV s.consts.flipH s.width s.height k)

/-- Host events that touch neither memory and do not change IN_LEN or CHORD: waiting, CTRL writes, register reads. -/
def QuietEvent (e : HostEvent) : Prop := e = .wait ∨ (∃ w, e = .writeReg 0 w) ∨ ∃ offset, e = .readReg offset

/-! ### The whole decode -/

/-- A decode that START has just put into STREAM, with nothing more to come from the host (R181). -/
structure AtStreamStart (s : State) : Prop where
  decoding : Decoding s
  quiet : s.hostQ = []
  position : s.position = 0
  noPixel : s.pixelReady = false
  noPacket : s.pktRem = 0
  pointer : s.inOffset = s.consts.base

/-- `stream` is the raw sample stream of the file in IN and `p` the offset after its last byte: the bytes of IN from BASE
(R109), or what Expand answers for an RLE image (R111). -/
def StreamOf (s : State) (stream : List Byte) (p : Nat) : Prop :=
  (s.consts.rle = false ∧ stream = inBytes s s.consts.base (s.consts.ss * s.consts.n) ∧
    p = s.consts.base + s.consts.ss * s.consts.n) ∨
  (s.consts.rle = true ∧ expand (inByte s) s.inLimit s.consts.base s.consts.ss s.consts.n = .stream stream p)

/-- Sample `k` of a raw sample stream (R104). -/
def sampleAt (stream : List Byte) (ss k : Nat) : List Byte := (stream.drop (k * ss)).take ss

/-! ### Where a sample stands -/

/-- A sample can be taken without a packet header: it lies in IN below L, or a packet has one left (R100, R109). -/
def SampleReady (rle : Bool) (s : State) : Prop :=
  (rle = false ∧ s.consts.base + (s.position + 1) * s.consts.ss ≤ s.inLimit) ∨
  (rle = true ∧ s.pktRem ≠ 0 ∧ s.pktKind = .run ∧ s.slatch.length = s.consts.ss) ∨
  (rle = true ∧ s.pktRem ≠ 0 ∧ s.pktKind = .raw ∧ s.inOffset + s.consts.ss ≤ s.inLimit)

/-- The bytes of that sample: those at BASE + k * SS, SLATCH, or those at IN_PTR (R100, R102, R103, R109). -/
def sampleBytes (rle : Bool) (s : State) : List Byte :=
  if rle = false then inBytes s (s.consts.base + s.position * s.consts.ss) s.consts.ss
  else
    match s.pktKind with
    | .run => s.slatch
    | .raw => inBytes s s.inOffset s.consts.ss

/-- IN_PTR after that sample (R100, R109). -/
def sampleEnd (rle : Bool) (s : State) : Word :=
  if rle = false then BitVec.ofNat 32 (s.consts.base + (s.position + 1) * s.consts.ss)
  else
    match s.pktKind with
    | .run => s.inPtr
    | .raw => s.inPtr + BitVec.ofNat 32 s.consts.ss

/-- PKT_REM after that sample (R100). -/
def sampleRem (rle : Bool) (s : State) : Nat := if rle = false then s.pktRem else s.pktRem - 1

/-- The state after a pixel operation packed a colour, with a value of PAL_OOR: the sample is taken, and nothing else has
changed (R143). -/
def afterPixel (rle : Bool) (s : State) (c : Rgba) (oor : Bool) : State :=
  { s with
    inPtr := sampleEnd rle s, pktRem := sampleRem rle s, palOor := oor
    pixel := pack s.consts c, pixelReady := true }

/-- The output index an origin instruction writes, for the mapping of its rule (R163 to R166). -/
def originDest : Instr → State → Option Nat
  | .orgBL _ _, s => some (destBL s.width s.height s.position)
  | .orgBR _ _, s => some (destBR s.width s.height s.position)
  | .orgTL _ _, s => some (destTL s.width s.position)
  | .orgTR _ _, s => some (destTR s.width s.position)
  | _, _ => none

end Sys2Proof.Machine
end

