-- ==== Sys2Proof/Certificates/Slice0/Obligations.lean ====
section
/-! DEFINITION. The statements for the provers, in the order of the spec's files: encodings, packets, pixels, addressing,
host commands, errors, reset, and the rules of the whole machine. Each docstring names the rule it formalises. -/

open Sys2Proof Sys2Proof.Machine

/-! ### Encodings (30_encoding.md) -/

/-- Decoding the encoding of any well-formed instruction, in its place and with any bytes after it, gives it back. -/
def Obligations.DecodeOfEncode : Prop :=
  ∀ (i : Instr) (rest : List Byte), i.wf = true → decode i.slot (encode i ++ rest) = .ok (i, rest)

/-- What decodes is well formed, belongs to the place it was read from, and its encoding is the bytes it was read from. -/
def Obligations.EncodeOfDecode : Prop :=
  ∀ (sl : Slot) (bs rest : List Byte) (i : Instr), decode sl bs = .ok (i, rest) →
    i.wf = true ∧ i.slot = sl ∧ encode i ++ rest = bs

/-- R72, R82: a packet header's count is its low seven bits plus one, from 1 to 128; bit 7 says RUN or RAW; no value is
illegal. -/
def Obligations.PacketHeaderDecode : Prop :=
  ∀ (h : Byte) (rest : List Byte),
    decode .packet (h :: rest)
      = .ok (if 128 ≤ h.toNat then .run (h.toNat % 128 + 1) else .raw (h.toNat % 128 + 1), rest)

/-- R74: the image type codes. The legal ones have bits 7:4 and 2 clear and bits 1:0 not 0; bit 3 is RLE and bits 1:0 are the
model. -/
def Obligations.ImageTypeDecode : Prop :=
  ∀ t : Byte,
    (imageType t = none ↔ t ∉ [1#8, 2#8, 3#8, 9#8, 10#8, 11#8]) ∧
    (∀ rle m, imageType t = some (rle, m) ↔
      t.extractLsb' 4 4 = 0 ∧ t.getLsbD 2 = false ∧ rle = t.getLsbD 3 ∧
        ((t.extractLsb' 0 2 = 1 ∧ m = .pal) ∨ (t.extractLsb' 0 2 = 2 ∧ m = .tc) ∨ (t.extractLsb' 0 2 = 3 ∧ m = .gs)))

/-- R75: the operation of a key, by the match and mask of each row, with the row's sample size; every other key is no
operation, and is told apart by whether its type is legal (R201, R202). -/
def Obligations.FormatKeyRows : Prop :=
  ∀ key : Key,
    (key &&& 0x00FFF7#24 = 0x001802#24 →
      decodeKey key = .ok (.tc24 (key.getLsbD 3) (key.extractLsb' 16 8)) ∧ (keyDepth key).toNat / 8 = 3) ∧
    (key &&& 0x00FFF7#24 = 0x002002#24 →
      decodeKey key = .ok (.tc32 (key.getLsbD 3) (key.extractLsb' 16 8)) ∧ (keyDepth key).toNat / 8 = 4) ∧
    (key &&& 0x00FFF7#24 = 0x000803#24 →
      decodeKey key = .ok (.gs8 (key.getLsbD 3) (key.extractLsb' 16 8)) ∧ (keyDepth key).toNat / 8 = 1) ∧
    (key &&& 0x00FFF7#24 = 0x001003#24 →
      decodeKey key = .ok (.gs16 (key.getLsbD 3) (key.extractLsb' 16 8)) ∧ (keyDepth key).toNat / 8 = 2) ∧
    (key &&& 0xFFFFF7#24 = 0x180801#24 →
      decodeKey key = .ok (.pal24 (key.getLsbD 3)) ∧ (keyDepth key).toNat / 8 = 1) ∧
    (key &&& 0xFFFFF7#24 = 0x200801#24 →
      decodeKey key = .ok (.pal32 (key.getLsbD 3)) ∧ (keyDepth key).toNat / 8 = 1) ∧
    (key &&& 0x00FFF7#24 ∉ [0x001802#24, 0x002002#24, 0x000803#24, 0x001003#24] →
      key &&& 0xFFFFF7#24 ∉ [0x180801#24, 0x200801#24] →
      decodeKey key = .error (if (imageType (key.extractLsb' 0 8)).isSome then .formatKey else .imageType))

/-- R77, R78: bits 5 and 4 of an origin descriptor select its row, and no other bit changes what it does or raises. -/
def Obligations.OriginBitsOnly : Prop :=
  ∀ (d : Byte) (rest : List Byte) (s : State),
    ∃ i, decode .origin (d :: rest) = .ok (i, rest) ∧
      exec i s = exec (match d.getLsbD 5, d.getLsbD 4 with
        | false, false => .orgBL 0 0
        | false, true => .orgBR 0 0
        | true, false => .orgTL 0 0
        | true, true => .orgTR 0 0) s

/-- Words written out from the tables of R70, R75, R77 and R80 decode to the instructions they stand for. -/
def Obligations.SpecWordsDecode : Prop :=
  decode .packet [0x81#8] = .ok (.run 2, []) ∧
  decode .packet [0x7F#8] = .ok (.raw 128, []) ∧
  decode .key [10#8, 24#8, 0#8] = .ok (.tc24 true 0#8, []) ∧
  decode .key [2#8, 32#8, 0#8] = .ok (.tc32 false 0#8, []) ∧
  decode .key [3#8, 8#8, 0#8] = .ok (.gs8 false 0#8, []) ∧
  decode .key [11#8, 16#8, 0#8] = .ok (.gs16 true 0#8, []) ∧
  decode .key [9#8, 8#8, 24#8] = .ok (.pal24 true, []) ∧
  decode .key [1#8, 8#8, 32#8] = .ok (.pal32 false, []) ∧
  decode .origin [0x30#8] = .ok (.orgTR 0 0, []) ∧
  decode .origin [0x10#8] = .ok (.orgBR 0 0, []) ∧
  decode .ctrl [0x07#8, 0x00#8, 0x00#8, 0x00#8] = .ok (.start true true false 0, []) ∧
  decode .ctrl [0x08#8, 0x00#8, 0x00#8, 0x00#8] = .ok (.loadAbgr 0, [])

/-- A step runs the instruction the decoder reads from where it stands: a packet header at IN_PTR, the format key and the
origin descriptor in the latched header, a CTRL write in the host's next event. What a step adds around it: the event that
let it run leaves the queue. That one step runs the packet header, the next the key and a third the origin descriptor is the
model's choice, log entry 2 (D2 fixes no step size), and so is the queue of host events, log entry 3. -/
def Obligations.StepRunsDecoded : Prop :=
  ∀ (s : State) (q : List HostEvent) (i : Instr),
    (BlockMoves s q → Decoding s → s.pixelReady = false → s.consts.rle = true → s.pktRem = 0 →
      s.inOffset < s.inLimit → decode .packet [inByte s s.inOffset] = .ok (i, []) →
      step s = exec i (s.withQueue q)) ∧
    (BlockMoves s q → Decoding s → s.pixelReady = false → (s.consts.rle = false ∨ s.pktRem ≠ 0) →
      decode .key [s.typ, s.depth, s.cmapDepth] = .ok (i, []) → step s = exec i (s.withQueue q)) ∧
    (BlockMoves s q → Decoding s → s.pixelReady = true → decode .origin [s.desc] = .ok (i, []) →
      step s = exec i (s.withQueue q)) ∧
    (∀ w, s.hostQ = .writeReg 0 w :: q → decode .ctrl (wordBytes w) = .ok (i, []) → step s = exec i (s.withQueue q))

/-! ### Packets (40_rle_expander.md) -/

/-- R101, R102: a RUN whose count and body fit takes its one sample and completes; nothing else changes. -/
def Obligations.RunPacketResult : Prop :=
  ∀ (count : Nat) (s : State), s.position + count ≤ s.consts.n → s.inOffset + 1 + s.consts.ss ≤ s.inLimit →
    exec (.run count) s = .next { s with
      inPtr := BitVec.ofNat 32 (s.inOffset + 1 + s.consts.ss), pktRem := count, pktKind := .run
      slatch := inBytes s (s.inOffset + 1) s.consts.ss }

/-- R101, R103: a RAW whose count and body fit steps past its header and completes; nothing else changes. -/
def Obligations.RawPacketResult : Prop :=
  ∀ (count : Nat) (s : State), s.position + count ≤ s.consts.n → s.inOffset + 1 + count * s.consts.ss ≤ s.inLimit →
    exec (.raw count) s = .next { s with
      inPtr := BitVec.ofNat 32 (s.inOffset + 1), pktRem := count, pktKind := .raw }

/-- R206: a packet whose count exceeds N - k raises PacketOverrun, also when it is not wholly present (D13). -/
def Obligations.PacketOverrunRaised : Prop :=
  ∀ (count : Nat) (s : State), s.consts.n - s.position < count →
    Raises (exec (.run count) s) s .packetOverrun ∧ Raises (exec (.raw count) s) s .packetOverrun

/-- R101, R203: TruncatedInput(PACKET), when no header byte remains and when the packet is not wholly present. -/
def Obligations.PacketTruncatedRaised : Prop :=
  (∀ (s : State) (q : List HostEvent), BlockMoves s q → Decoding s → s.pixelReady = false → s.consts.rle = true →
    s.pktRem = 0 → s.inLimit < s.inOffset + 1 → Raises (step s) (s.withQueue q) (.truncatedInput .packet)) ∧
  (∀ (count : Nat) (s : State), count ≤ s.consts.n - s.position → s.inLimit < s.inOffset + 1 + s.consts.ss →
    Raises (exec (.run count) s) s (.truncatedInput .packet)) ∧
  (∀ (count : Nat) (s : State), count ≤ s.consts.n - s.position → s.inLimit < s.inOffset + 1 + count * s.consts.ss →
    Raises (exec (.raw count) s) s (.truncatedInput .packet))

/-- R102: a RUN packet consumes 1 + SS bytes and delivers `count` samples, all equal to the one after its header; the
deliveries change PKT_REM alone. -/
def Obligations.RunPacketDelivers : Prop :=
  ∀ (count : Nat) (s : State), s.position + count ≤ s.consts.n → s.inOffset + 1 + s.consts.ss ≤ s.inLimit →
    ∃ t u, exec (.run count) s = .next t ∧
      deliverAll count t = .ok (List.replicate count (inBytes s (s.inOffset + 1) s.consts.ss)) u ∧
      u.inOffset = s.inOffset + 1 + s.consts.ss ∧ u = { t with pktRem := 0 }

/-- R103: a RAW packet consumes 1 + count * SS bytes and delivers them as `count` samples in input order; the deliveries change
IN_PTR and PKT_REM alone. -/
def Obligations.RawPacketDelivers : Prop :=
  ∀ (count : Nat) (s : State), s.position + count ≤ s.consts.n → s.inOffset + 1 + count * s.consts.ss ≤ s.inLimit →
    ∃ t u, exec (.raw count) s = .next t ∧
      deliverAll count t = .ok ((List.range count).map fun j =>
        inBytes s (s.inOffset + 1 + j * s.consts.ss) s.consts.ss) u ∧
      u.inOffset = s.inOffset + 1 + count * s.consts.ss ∧ u = { t with inPtr := u.inPtr, pktRem := 0 }

/-- R107: what Expand answers has SS * N bytes, and the bytes it consumed lie between the two bounds of the rule. -/
def Obligations.StreamLength : Prop :=
  ∀ (rd : Nat → Byte) (limit base ss n : Nat) (out : List Byte) (p : Nat),
    expand rd limit base ss n = .stream out p →
    out.length = ss * n ∧ base + (n + 127) / 128 * (1 + ss) ≤ p ∧ p ≤ base + n * (1 + ss)

/-- R111: from a stream's start, the step rules deliver what Expand answers, or make the same raise at the same position and
the same offset. -/
def Obligations.ExpandRefined : Prop :=
  ∀ s : State, s.Inv → AtStreamStart s → s.consts.rle = true →
    (∀ out p, expand (inByte s) s.inLimit s.consts.base s.consts.ss s.consts.n = .stream out p →
      ∃ t, collect s.consts.n [] s = .ok out t ∧ t.inOffset = p ∧ t.position = s.consts.n ∧ t.pktRem = 0) ∧
    (∀ e k p, expand (inByte s) s.inLimit s.consts.base s.consts.ss s.consts.n = .failed e k p →
      ∃ t, collect s.consts.n [] s = .raised t ∧ t.err = true ∧ t.errCode.toNat = errorNumber e ∧
        t.errCause = e.cause? ∧ t.position = k ∧ t.inOffset = p)

/-! ### Pixels (41_pixel_reconstruct.md) -/

/-- R131: TC24 completes with blue, green and red from its three bytes and an opaque alpha; only the sample's pointer or
count moves, and the packed word waits for the pixel write. -/
def Obligations.Tc24Result : Prop :=
  ∀ (rle : Bool) (c : Byte) (s : State), SampleReady rle s → s.consts.ss = 3 →
    ∃ s0 s1 s2, sampleBytes rle s = [s0, s1, s2] ∧
      exec (.tc24 rle c) s = .next (afterPixel rle s { r := s2, g := s1, b := s0, a := 0xFF#8 } s.palOor)

/-- R132: TC32 completes with the four bytes as blue, green, red and alpha. -/
def Obligations.Tc32Result : Prop :=
  ∀ (rle : Bool) (c : Byte) (s : State), SampleReady rle s → s.consts.ss = 4 →
    ∃ s0 s1 s2 s3, sampleBytes rle s = [s0, s1, s2, s3] ∧
      exec (.tc32 rle c) s = .next (afterPixel rle s { r := s2, g := s1, b := s0, a := s3 } s.palOor)

/-- R133: GS8 completes with its byte in red, green and blue and an opaque alpha. -/
def Obligations.Gs8Result : Prop :=
  ∀ (rle : Bool) (c : Byte) (s : State), SampleReady rle s → s.consts.ss = 1 →
    ∃ s0, sampleBytes rle s = [s0] ∧
      exec (.gs8 rle c) s = .next (afterPixel rle s { r := s0, g := s0, b := s0, a := 0xFF#8 } s.palOor)

/-- R134: GS16 completes with its first byte in red, green and blue and its second as alpha. -/
def Obligations.Gs16Result : Prop :=
  ∀ (rle : Bool) (c : Byte) (s : State), SampleReady rle s → s.consts.ss = 2 →
    ∃ s0 s1, sampleBytes rle s = [s0, s1] ∧
      exec (.gs16 rle c) s = .next (afterPixel rle s { r := s0, g := s0, b := s0, a := s1 } s.palOor)

/-- R135, R136: PAL24 on an index in range completes with the three bytes of its entry in IN as a TC24 sample. -/
def Obligations.Pal24Result : Prop :=
  ∀ (rle : Bool) (index : Byte) (s : State), SampleReady rle s → s.consts.ss = 1 → s.consts.eb = 3 →
    sampleBytes rle s = [index] → s.cmapOrigin ≤ index.toNat → index.toNat < s.cmapOrigin + s.cmapLen →
    18 + 3 * (index.toNat - s.cmapOrigin) + 3 ≤ s.inLimit →
    exec (.pal24 rle) s = .next (afterPixel rle s
      { r := inByte s (18 + 3 * (index.toNat - s.cmapOrigin) + 2)
        g := inByte s (18 + 3 * (index.toNat - s.cmapOrigin) + 1)
        b := inByte s (18 + 3 * (index.toNat - s.cmapOrigin))
        a := 0xFF#8 } s.palOor)

/-- R135, R137: PAL32 on an index in range completes with the four bytes of its entry in IN as a TC32 sample. -/
def Obligations.Pal32Result : Prop :=
  ∀ (rle : Bool) (index : Byte) (s : State), SampleReady rle s → s.consts.ss = 1 → s.consts.eb = 4 →
    sampleBytes rle s = [index] → s.cmapOrigin ≤ index.toNat → index.toNat < s.cmapOrigin + s.cmapLen →
    18 + 4 * (index.toNat - s.cmapOrigin) + 4 ≤ s.inLimit →
    exec (.pal32 rle) s = .next (afterPixel rle s
      { r := inByte s (18 + 4 * (index.toNat - s.cmapOrigin) + 2)
        g := inByte s (18 + 4 * (index.toNat - s.cmapOrigin) + 1)
        b := inByte s (18 + 4 * (index.toNat - s.cmapOrigin))
        a := inByte s (18 + 4 * (index.toNat - s.cmapOrigin) + 3) } s.palOor)

/-- R138: in permissive mode an index out of range completes with the sentinel and sets PAL_OOR; the decode goes on, and
under a legal CHORD the packed sentinel is 0xFFFFFFFF. -/
def Obligations.PaletteOutOfRangePermissive : Prop :=
  ∀ (rle : Bool) (index : Byte) (s : State), SampleReady rle s → s.consts.ss = 1 → s.consts.strictD = false →
    sampleBytes rle s = [index] → (index.toNat < s.cmapOrigin ∨ s.cmapOrigin + s.cmapLen ≤ index.toNat) →
    exec (.pal24 rle) s
      = .next (afterPixel rle s { r := 0xFF#8, g := 0xFF#8, b := 0xFF#8, a := 0xFF#8 } true) ∧
    exec (.pal32 rle) s
      = .next (afterPixel rle s { r := 0xFF#8, g := 0xFF#8, b := 0xFF#8, a := 0xFF#8 } true) ∧
    (LegalShifts s.consts.rsh s.consts.gsh s.consts.bsh s.consts.ash →
      (afterPixel rle s { r := 0xFF#8, g := 0xFF#8, b := 0xFF#8, a := 0xFF#8 } true).pixel = 0xFFFFFFFF#32)

/-- R139: in strict mode an index out of range raises PaletteIndexOutOfRange with PIX_COUNT k; its sample is taken, no pixel
is made and nothing is written. -/
def Obligations.PaletteOutOfRangeStrict : Prop :=
  ∀ (rle : Bool) (index : Byte) (s : State), SampleReady rle s → s.consts.ss = 1 → s.consts.strictD = true →
    sampleBytes rle s = [index] → (index.toNat < s.cmapOrigin ∨ s.cmapOrigin + s.cmapLen ≤ index.toNat) →
    Raises (exec (.pal24 rle) s) { s with inPtr := sampleEnd rle s, pktRem := sampleRem rle s }
      .paletteIndexOutOfRange ∧
    Raises (exec (.pal32 rle) s) { s with inPtr := sampleEnd rle s, pktRem := sampleRem rle s }
      .paletteIndexOutOfRange

/-- R100: a pixel operation of an RLE image whose packet is used up takes the packet header at IN_PTR first, and raises what
that raises. -/
def Obligations.PixelOpFetchesPacket : Prop :=
  ∀ (op : Instr) (s : State), op.slot = .key → keyRle op = true → s.pktRem = 0 →
    (s.inLimit ≤ s.inOffset → Raises (exec op s) s (.truncatedInput .packet)) ∧
    (s.inOffset < s.inLimit → ∃ t, exec (decodePacket (inByte s s.inOffset)) s = .next t ∧
      exec op s = if t.pktRem = 0 then .next t else exec op t)

/-- R141: unpacking gives each channel back, and packing is a bijection between channel quadruples and words. -/
def Obligations.PackUnpack : Prop :=
  ∀ c : Consts, LegalShifts c.rsh c.gsh c.bsh c.ash →
    (∀ p : Rgba,
      (pack c p >>> c.rsh.toNat) &&& 0xFF#32 = p.r.setWidth 32 ∧
      (pack c p >>> c.gsh.toNat) &&& 0xFF#32 = p.g.setWidth 32 ∧
      (pack c p >>> c.bsh.toNat) &&& 0xFF#32 = p.b.setWidth 32 ∧
      (pack c p >>> c.ash.toNat) &&& 0xFF#32 = p.a.setWidth 32) ∧
    Function.Bijective (pack c)

/-- The frame of the six pixel operations: whatever they do, the configuration, the latched header, the decode constants,
PIX_COUNT and the input stay; where the pixel is made, so do the flags but PAL_OOR and every word of OUT. -/
def Obligations.PixelOpFrame : Prop :=
  ∀ (op : Instr) (s t : State), op.slot = .key → exec op s = .next t →
    (t.params = s.params ∧ t.strict = s.strict ∧ t.chord = s.chord ∧ t.inLen = s.inLen ∧ t.hdr0 = s.hdr0 ∧
      t.hdr1 = s.hdr1 ∧ t.hdr2 = s.hdr2 ∧ t.pixCount = s.pixCount ∧ t.consts = s.consts ∧ t.rdata = s.rdata ∧
      t.hostQ = s.hostQ ∧ t.tainted = s.tainted ∧ t.done = s.done ∧ ∀ a, inByte t a = inByte s a) ∧
    (t.pixelReady = true →
      t.busy = s.busy ∧ t.err = s.err ∧ t.errCode = s.errCode ∧ t.errCause = s.errCause ∧ t.phase = s.phase ∧
        (s.palOor = true → t.palOor = true) ∧ ∀ d, outWord t d = outWord s d) ∧
    (t.pixelReady = false → t.err = true ∧ t.busy = false ∧ t.phase = .idle ∧ t.palOor = s.palOor)

/-! ### Addressing (42_output_addressing.md) -/

/-- R167: an origin instruction completes whenever a pixel of the latched image is left: it writes the pixel word at its
index, PIX_COUNT steps, and after the last pixel DONE is set and BUSY cleared. Every other word of OUT and everything else
stays. -/
def Obligations.OriginWritesPixel : Prop :=
  ∀ (i : Instr) (s : State), i.slot = .origin → s.consts.n = s.width * s.height → s.position < s.consts.n →
    ∃ d t, originDest i s = some d ∧ d < s.consts.n ∧ exec i s = .next t ∧
      outWord t d = s.pixel ∧ (∀ d', d' ≠ d → outWord t d' = outWord s d') ∧
      t = { s with
        out := t.out, pixCount := BitVec.ofNat 32 (s.position + 1), pixelReady := false
        busy := s.busy && !decide (s.position + 1 = s.consts.n)
        done := s.done || decide (s.position + 1 = s.consts.n)
        phase := if s.position + 1 = s.consts.n then .idle else s.phase }

/-- R163 to R166: the four mappings, their corner cases and their examples. -/
def Obligations.FourMappings : Prop :=
  (∀ w h k, destBL w h k = (h - 1 - k / w) * w + k % w) ∧
  (∀ w h k, destBR w h k = (h - 1 - k / w) * w + (w - 1 - k % w)) ∧
  (∀ w k, destTL w k = k / w * w + k % w) ∧
  (∀ w k, destTR w k = k / w * w + (w - 1 - k % w)) ∧
  (∀ w k, k < w → destBL w 1 k = k) ∧
  (∀ w h k, k < w * h → destBR w h k = w * h - 1 - k) ∧
  (∀ w k, destTL w k = k) ∧
  (∀ k, destTR 1 k = k) ∧
  ((List.range 6).map (destBL 3 2) = [3, 4, 5, 0, 1, 2] ∧ (List.range 6).map (destBR 3 2) = [5, 4, 3, 2, 1, 0] ∧
    (List.range 6).map (destTR 3) = [2, 1, 0, 5, 4, 3])

/-- R162: the mapping of the row a descriptor selects is the general mapping with FLIPV = NOT DESC[5] and FLIPH = DESC[4]. -/
def Obligations.GeneralMapping : Prop :=
  ∀ (d : Byte) (s : State),
    originDest (decodeOrigin d) s = some
      ((if d.getLsbD 5 = false then s.height - 1 - s.position / s.width else s.position / s.width) * s.width
        + (if d.getLsbD 4 = true then s.width - 1 - s.position % s.width else s.position % s.width))

/-- R168: each mapping is a bijection of the indices below N; it is its own inverse. -/
def Obligations.DestPermutation : Prop :=
  ∀ (flipV flipH : Bool) (w h : Nat),
    Set.BijOn (dest flipV flipH w h) (Set.Iio (w * h)) (Set.Iio (w * h)) ∧
    ∀ k, k < w * h → dest flipV flipH w h (dest flipV flipH w h k) = k

/-- From the start of a pixel step, one to three steps of the machine give what PixelStep, as R167 writes it, gives as one
action, up to the model's own pixel latch. That a pixel step takes one to three steps of the machine, and the latch, are the
model's choice, log entry 2 (R238 and D2 fix no number). -/
def Obligations.PixelStepRefined : Prop :=
  ∀ s : State, s.Inv → Decoding s → s.pixelReady = false → s.hostQ = [] →
    ∃ m t u, 1 ≤ m ∧ m ≤ 3 ∧ run m s = .next t ∧ pixelStep s = some u ∧ t = { u with pixel := t.pixel }

/-! ### Host commands (43_host_commands.md) -/

/-- R180, R80: a CTRL write does its four actions in the order STRICT, LOAD_ARGB, LOAD_ABGR, START, ignores bits 31:4, and
is ignored as a whole while BUSY. -/
def Obligations.CtrlActionBitsInOrder : Prop :=
  ∀ (s : State) (q : List HostEvent) (w : Word), s.hostQ = .writeReg 0 w :: q →
    step s = .next (
      if s.busy = true then s.withQueue q
      else
        let s1 := { s.withQueue q with strict := w.getLsbD 1 }
        let s2 := if w.getLsbD 2 = true ∧ w.getLsbD 3 = false then { s1 with chord := 0x18000810#32 } else s1
        let s3 := if w.getLsbD 3 = true ∧ w.getLsbD 2 = false then { s2 with chord := 0x18100800#32 } else s2
        if w.getLsbD 0 = true then start s3 else s3)

/-- R182, R183, R180: STRICT, LOAD_ARGB and LOAD_ABGR complete. A preset leaves its CHORD and, as the same word, clears
STRICT; STRICT sets its bit and loads a preset of the same word. Nothing else changes; while BUSY nothing changes at all. -/
def Obligations.ConfigCommandsResult : Prop :=
  ∀ (argb abgr : Bool) (x : BitVec 28) (s : State),
    (s.busy = false →
      exec (.loadArgb x) s = .next { s with strict := false, chord := 24#8 ++ 0#8 ++ 8#8 ++ 16#8 } ∧
      exec (.loadAbgr x) s = .next { s with strict := false, chord := 24#8 ++ 16#8 ++ 8#8 ++ 0#8 } ∧
      exec (.strict argb abgr x) s = .next { s with strict := true, chord := presetChord argb abgr s.chord }) ∧
    (s.busy = true →
      exec (.loadArgb x) s = .next s ∧ exec (.loadAbgr x) s = .next s ∧ exec (.strict argb abgr x) s = .next s)

/-- R181: START on a file every check accepts, with a pixel in it, completes: BUSY is set, the other flags and ERRCODE are
cleared, the header and the decode constants of R36 are latched, IN_PTR is BASE and the phase is STREAM. -/
def Obligations.StartEntersStream : Prop :=
  ∀ (strict argb abgr : Bool) (x : BitVec 28) (s : State) (op : Instr), s.busy = false →
    FileAccepted s (presetChord argb abgr s.chord) op → fileN s ≠ 0 →
    ∃ t, exec (.start strict argb abgr x) s = .next t ∧
      StartCommon s t strict (presetChord argb abgr s.chord) ∧
      t.consts = fileConsts s (presetChord argb abgr s.chord) strict op ∧ t.inOffset = fileBase s (keyModel op) ∧
      t.busy = true ∧ t.done = false ∧ t.err = false ∧ t.errCode = 0 ∧ t.errCause = none ∧ t.phase = .stream ∧
      t.out = s.out

/-- R181, D27: START on an accepted file with N = 0 ends with DONE at once and writes no OUT word. -/
def Obligations.StartEmptyImage : Prop :=
  ∀ (strict argb abgr : Bool) (x : BitVec 28) (s : State) (op : Instr), s.busy = false →
    FileAccepted s (presetChord argb abgr s.chord) op → fileN s = 0 →
    ∃ t, exec (.start strict argb abgr x) s = .next t ∧
      StartCommon s t strict (presetChord argb abgr s.chord) ∧ t.inOffset = fileBase s (keyModel op) ∧
      t.busy = false ∧ t.done = true ∧ t.err = false ∧ t.errCode = 0 ∧ t.errCause = none ∧ t.phase = .idle ∧
      t.out = s.out

/-- R208: the START-time errors in their priority order, each met only when none before it applies. -/
def Obligations.StartErrors : Prop :=
  ∀ (strict argb abgr : Bool) (x : BitVec 28) (s : State), s.busy = false →
    let r := exec (.start strict argb abgr x) s
    let chord := presetChord argb abgr s.chord
    (¬LegalOrder chord → StartRaises r s strict chord .invalidChannelOrder) ∧
    (LegalOrder chord →
      (s.inLimit < 18 → StartRaises r s strict chord (.truncatedInput .header)) ∧
      (18 ≤ s.inLimit →
        (inByte s 2 ∉ [1#8, 2#8, 3#8, 9#8, 10#8, 11#8] → StartRaises r s strict chord .unsupportedImageType) ∧
        (inByte s 2 ∈ [1#8, 2#8, 3#8, 9#8, 10#8, 11#8] → (∀ op, decodeKey (fileKey s) ≠ .ok op) →
          StartRaises r s strict chord .unsupportedPixelDepth) ∧
        (∀ op, decodeKey (fileKey s) = .ok op →
          (s.params.maxPixels < fileN s → StartRaises r s strict chord .capacityExceeded) ∧
          (fileN s ≤ s.params.maxPixels →
            (keyModel op = .pal → s.inLimit < fileBase s .pal →
              StartRaises r s strict chord (.truncatedInput .colormap)) ∧
            ((keyModel op = .pal → fileBase s .pal ≤ s.inLimit) → keyRle op = false →
              s.inLimit < fileBase s (keyModel op) + fileSS s * fileN s →
              StartRaises r s strict chord (.truncatedInput .pixelData))))))

/-- R35: whatever START's outcome, the header fields are those of IN, or 0 when L < 18; and they stay until the next START
or reset. -/
def Obligations.HeaderLatchedAndKept : Prop :=
  (∀ (strict argb abgr : Bool) (x : BitVec 28) (s : State), s.busy = false →
    ∃ t, exec (.start strict argb abgr x) s = .next t ∧ HeaderLatched s t) ∧
  (∀ s t : State, step s = .next t → (∀ q, s.hostQ ≠ .reset :: q) →
    (∀ w q, s.hostQ = .writeReg 0 w :: q → w.getLsbD 0 = false ∨ s.busy = true) →
    t.hdr0 = s.hdr0 ∧ t.hdr1 = s.hdr1 ∧ t.hdr2 = s.hdr2)

/-- R185: a register read returns the current value its rule defines, reserved bits 0, in every state, and changes nothing
else. -/
def Obligations.RegisterReads : Prop :=
  ∀ (s : State) (q : List HostEvent) (offset : Nat), s.hostQ = .readReg offset :: q →
    ∃ v : Word, step s = .next { s.withQueue q with rdata := v } ∧
      (offset = 0x00 → v.toNat = 2 * s.strict.toNat) ∧
      (offset = 0x04 → v.toNat = s.busy.toNat + 2 * s.done.toNat + 4 * s.err.toNat + 8 * s.palOor.toNat) ∧
      (offset = 0x08 → v.toNat = s.errCode.toNat) ∧
      (offset = 0x0C → v = s.chord) ∧ (offset = 0x10 → v = s.inLen) ∧ (offset = 0x14 → v = s.hdr0) ∧
      (offset = 0x18 → v = s.hdr1) ∧ (offset = 0x1C → v = s.hdr2) ∧ (offset = 0x20 → v = s.pixCount) ∧
      (offset = 0x24 → v = s.inPtr) ∧ (0x28 ≤ offset ∨ offset % 4 ≠ 0 → v = 0)

/-- R186, R187, R188, R34: register writes. While BUSY none has an effect; while idle CHORD takes the whole word, IN_LEN its
low IN_ADDR_BITS bits, and every other offset but CTRL's ignores the write. -/
def Obligations.RegisterWrites : Prop :=
  ∀ (s : State) (q : List HostEvent) (offset : Nat) (w : Word), s.hostQ = .writeReg offset w :: q →
    (s.busy = true → step s = .next (s.withQueue q)) ∧
    (s.busy = false → offset = 0x0C → step s = .next { s.withQueue q with chord := w }) ∧
    (s.busy = false → offset = 0x10 → ∃ v : Word, step s = .next { s.withQueue q with inLen := v } ∧
      ∀ b, v.getLsbD b = (decide (b < s.params.inAddrBits) && w.getLsbD b)) ∧
    (offset ≠ 0x00 → offset ≠ 0x0C → offset ≠ 0x10 → step s = .next (s.withQueue q))

/-- The host's accesses to the memories. A byte written to IN is read back and leaves the others (R50); while idle a word
of OUT is read whole (R52), or by bytes in the order of OUT_BYTE_ORDER (R55); while BUSY a read of OUT returns any value
(R66, R235, U3) and changes nothing but the value read, the counter of draws and the queue. The model's choices in it: that
the host may read IN is log entry 12, the draw of a read while BUSY log entry 8, the byte addresses 4 * d + i of word d log
entry 22, that an address outside the memories faults log entry 15, and the mark a write of IN while BUSY leaves log
entry 7. -/
def Obligations.HostMemoryAccess : Prop :=
  ∀ (s : State) (q : List HostEvent),
    (∀ a b, s.hostQ = .writeIn a b :: q → a < 2 ^ s.params.inAddrBits →
      ∃ t, step s = .next t ∧ (∀ a', inByte t a' = if a' = a then b else inByte s a') ∧
        t = { s.withQueue q with inMem := t.inMem, tainted := s.tainted || s.busy }) ∧
    (∀ a, s.hostQ = .readIn a :: q → a < 2 ^ s.params.inAddrBits →
      step s = .next { s.withQueue q with rdata := (inByte s a).setWidth 32 }) ∧
    (∀ d, s.hostQ = .readOut d :: q → d < s.params.maxPixels → s.busy = false →
      step s = .next { s.withQueue q with rdata := outWord s d }) ∧
    (∀ a, s.hostQ = .readOutByte a :: q → a / 4 < s.params.maxPixels → s.busy = false →
      ∃ v : Word, step s = .next { s.withQueue q with rdata := v } ∧
        v.toNat = (outWord s (a / 4)).toNat
          / 256 ^ (match s.params.outByteOrder with | .little => a % 4 | .big => 3 - a % 4) % 256) ∧
    (∀ d, s.hostQ = .readOut d :: q → d < s.params.maxPixels → s.busy = true →
      ∃ v : Word, step s = .next { s.withQueue q with rdata := v, draws := s.draws + 1 }) ∧
    (∀ a, s.hostQ = .readOutByte a :: q → a / 4 < s.params.maxPixels → s.busy = true →
      ∃ v : Word, v.toNat < 256 ∧ step s = .next { s.withQueue q with rdata := v, draws := s.draws + 1 }) ∧
    (∀ a b, s.hostQ = .writeIn a b :: q ∨ s.hostQ = .readIn a :: q → 2 ^ s.params.inAddrBits ≤ a →
      step s = .fault .noInAddress) ∧
    (∀ d, s.hostQ = .readOut d :: q → s.params.maxPixels ≤ d → step s = .fault .noOutWord) ∧
    (∀ a, s.hostQ = .readOutByte a :: q → s.params.maxPixels ≤ a / 4 → step s = .fault .noOutWord)

/-- R217: only START moves the block out of idle, and an idle block the host leaves alone keeps everything. -/
def Obligations.OnlyStartLeavesIdle : Prop :=
  ∀ s : State, s.busy = false →
    (∀ t, step s = .next t → t.busy = true → ∃ w q, s.hostQ = .writeReg 0 w :: q ∧ w.getLsbD 0 = true) ∧
    (∀ q, BlockMoves s q → step s = .next (s.withQueue q))

/-- R189: a decode ends only with DONE, with ERR, or by reset. -/
def Obligations.DecodeEndsOnlyBy : Prop :=
  ∀ s t : State, s.busy = true → step s = .next t → t.busy = false →
    t.done = true ∨ t.err = true ∨ ∃ q, s.hostQ = .reset :: q

/-- R25: while idle, DONE, ERR, PAL_OOR and ERRCODE keep their values until the next START or reset, and so do PIX_COUNT and
IN_PTR. -/
def Obligations.StatusKeptWhileIdle : Prop :=
  ∀ s t : State, s.busy = false → step s = .next t → (∀ q, s.hostQ ≠ .reset :: q) →
    (∀ w q, s.hostQ = .writeReg 0 w :: q → w.getLsbD 0 = false) →
    t.busy = false ∧ t.done = s.done ∧ t.err = s.err ∧ t.palOor = s.palOor ∧ t.errCode = s.errCode ∧
      t.errCause = s.errCause ∧ t.pixCount = s.pixCount ∧ t.inPtr = s.inPtr

/-- R190, R58: what START leaves depends only on IN below L, IN_LEN, CHORD and the CTRL word, not on what the block did
before. -/
def Obligations.StartForgetsHistory : Prop :=
  ∀ (strict argb abgr : Bool) (x : BitVec 28) (s t : State), s.busy = false → t.busy = false →
    t.params = s.params → t.chord = s.chord → t.inLen = s.inLen → t.hostQ = s.hostQ →
    (∀ a, a < s.inLimit → inByte t a = inByte s a) →
    ∃ s' t', exec (.start strict argb abgr x) s = .next s' ∧ exec (.start strict argb abgr x) t = .next t' ∧
      SameView s' t'

/-- R190: a decode reads nothing else: two runs from states that look alike to it look alike at every step, whatever the rest
of OUT and the bytes of IN from L on. -/
def Obligations.DecodeReadsNothingElse : Prop :=
  ∀ (m : Nat) (s t s' : State), s.Inv → SameView s t → (∀ e ∈ s.hostQ, QuietEvent e) → run m s = .next s' →
    ∃ t', run m t = .next t' ∧ SameView s' t'

/-- R190: from the start of a stream whose every sample resolves to a colour, the decode ends with DONE, every word of
OUT[0 .. N-1] is the packed colour of the sample stored there, and no other word has changed. -/
def Obligations.WholeDecode : Prop :=
  ∀ (s : State) (op : Instr) (stream : List Byte) (p : Nat) (colour : Nat → Rgba) (after : Nat → State),
    s.Inv → AtStreamStart s → decodeKey s.key = .ok op → StreamOf s stream p →
    (∀ k, k < s.consts.n → resolve op (sampleAt stream s.consts.ss k) s = some (.ok (colour k) (after k))) →
    ∃ m t, run m s = .next t ∧ t.done = true ∧ t.busy = false ∧ t.err = false ∧ t.position = s.consts.n ∧
      t.inOffset = p ∧ t.hdr0 = s.hdr0 ∧ t.hdr1 = s.hdr1 ∧ t.hdr2 = s.hdr2 ∧
      (t.palOor = true ↔ s.palOor = true ∨ ∃ k, k < s.consts.n ∧ (after k).palOor = true) ∧
      (∀ k, k < s.consts.n → outWord t (dest s.consts.flipV s.consts.flipH s.width s.height k)
        = pack s.consts (colour k)) ∧
      (∀ d, s.consts.n ≤ d → outWord t d = outWord s d)

/-! ### Errors (60_exceptions.md) -/

/-- R209: the entry into an error, with the code of R200; after it the block makes no further move in this decode. -/
def Obligations.ErrorEntry : Prop :=
  ∀ (e : DecodeError) (s : State),
    Raises (.next (raiseError e s)) s e ∧
    ∀ q, BlockMoves (raiseError e s) q → step (raiseError e s) = .next ((raiseError e s).withQueue q)

/-- R51: a TruncatedInput(READ) is never reported. -/
def Obligations.ReadErrorNeverReported : Prop :=
  ∀ s t : State, s.Inv → step s = .next t → t.errCause = some .read → s.errCause = some .read

/-! ### Reset and hazards (70_reset_and_hazards.md) -/

/-- R230: the state after reset: every register reads its reset value, no packet is current and the phase is IDLE. -/
def Obligations.ResetState : Prop :=
  (∀ offset, regRead State.reset offset = if offset = 0x0C then 0x18000810#32 else 0) ∧
  State.reset.pktRem = 0 ∧ State.reset.phase = .idle ∧ State.reset.params.valid ∧
  State.reset.inMem = [] ∧ State.reset.out.words = []

/-- R230, R231, R232: a reset at any time gives every register its reset value and leaves IN; OUT is left when idle, and
during a decode every word the decode did not write is left. Neither DONE nor ERR is set. -/
def Obligations.ResetEvent : Prop :=
  ∀ (s : State) (q : List HostEvent), s.Inv → s.hostQ = .reset :: q →
    ∃ t, step s = .next t ∧ (∀ offset, regRead t offset = if offset = 0x0C then 0x18000810#32 else 0) ∧
      t.pktRem = 0 ∧ t.phase = .idle ∧ t.params = s.params ∧ t.hostQ = q ∧ (∀ a, inByte t a = inByte s a) ∧
      (s.busy = false → ∀ d, outWord t d = outWord s d) ∧
      (s.busy = true → s.tainted = false → ∀ d,
        (∀ k, k < s.position → dest s.consts.flipV s.consts.flipH s.width s.height k ≠ d) → outWord t d = outWord s d)

/-- R64, R234: after a host write to IN while BUSY the decode's outcome is drawn: DONE or one of the errors of R200. PIX_COUNT
does not step back, is N with DONE and below N with ERR, and IN_PTR does not move backwards nor pass IN_LEN. That the decode
ends at the block's next move, and that these bounds of R32 and R22 hold of a drawn outcome too, are the model's choice, log
entry 7. -/
def Obligations.DutyBrokenDraws : Prop :=
  ∀ (s : State) (q : List HostEvent), s.Inv → BlockMoves s q → s.busy = true → s.tainted = true →
    ∃ t, step s = .next t ∧ t.busy = false ∧ t.phase = .idle ∧ (t.done = true ↔ t.err = false) ∧
      (t.err = true ↔ t.errCode ≠ 0) ∧ s.position ≤ t.position ∧ (t.done = true → t.position = s.consts.n) ∧
      (t.err = true → t.position < s.consts.n) ∧ s.inOffset ≤ t.inOffset ∧ t.inOffset ≤ s.inLimit ∧ t.hdr0 = s.hdr0 ∧ t.hdr1 = s.hdr1 ∧ t.hdr2 = s.hdr2 ∧ t.strict = s.strict ∧
      t.chord = s.chord ∧ t.inLen = s.inLen ∧ t.hostQ = q ∧ ∀ a, inByte t a = inByte s a

/-- R237: every decode the host leaves alone ends with DONE or ERR. The bound on the block's moves, at most three for each
pixel left, counts the model's own steps, which are the model's choice, log entry 2 (D2). -/
def Obligations.DecodeTerminates : Prop :=
  ∀ s : State, s.Inv → Decoding s → s.hostQ = [] →
    ∃ m t, m ≤ movesLeft s ∧ run m s = .next t ∧ t.busy = false ∧ (t.done = true ∨ t.err = true)

/-! ### The whole machine -/

/-- The invariant holds after reset. -/
def Obligations.ResetMeetsInvariant : Prop := State.reset.Inv

/-- Every step keeps the invariant. -/
def Obligations.StepKeepsInvariant : Prop := ∀ s t : State, s.Inv → step s = .next t → t.Inv

/-- From a state that meets the invariant a step stops exactly when the next host event names an address that does not
exist: with `noInAddress` for an access to IN, with `noOutWord` for a read of OUT. That such an access stops is the model's
choice, log entry 15; that nothing else does says that the checks of log entry 16 never fail. -/
def Obligations.NeverStuck : Prop :=
  ∀ s : State, s.Inv →
    (HeadInRange s → ∃ t, step s = .next t) ∧
    (¬HeadInRange s →
      (((∃ a b q, s.hostQ = .writeIn a b :: q) ∨ ∃ a q, s.hostQ = .readIn a :: q) ∧ step s = .fault .noInAddress) ∨
      (((∃ d q, s.hostQ = .readOut d :: q) ∨ ∃ a q, s.hostQ = .readOutByte a :: q) ∧ step s = .fault .noOutWord))

/-- R50, R36, R186: the block never writes IN; no step changes the parameters; and the configuration, the latched header and
the decode constants change only at an idle host write or a reset. -/
def Obligations.StepKeepsConfiguration : Prop :=
  ∀ s t : State, step s = .next t →
    t.params = s.params ∧
    ((∀ a b q, s.hostQ ≠ .writeIn a b :: q) → t.inMem = s.inMem) ∧
    ((∀ q, s.hostQ ≠ .reset :: q) → (s.busy = true ∨ ∀ offset w q, s.hostQ ≠ .writeReg offset w :: q) →
      t.strict = s.strict ∧ t.chord = s.chord ∧ t.inLen = s.inLen ∧ t.hdr0 = s.hdr0 ∧ t.hdr1 = s.hdr1 ∧
        t.hdr2 = s.hdr2 ∧ t.consts = s.consts)

/-- R66: the block writes only words below N; the others keep their content as long as no error is reported. -/
def Obligations.OutWrittenOnlyBelowN : Prop :=
  ∀ (s t : State) (d : Nat), s.tainted = false → step s = .next t → t.err = false → s.consts.n ≤ d →
    outWord t d = outWord s d

/-- R22: within a decode IN_PTR never moves backwards and never passes IN_LEN. That this holds of the drawn outcome of a
decode the host disturbed too is the model's choice, log entry 7. -/
def Obligations.InPtrNeverBack : Prop :=
  ∀ s t : State, s.Inv → s.busy = true → (∀ q, s.hostQ ≠ .reset :: q) → step s = .next t →
    s.inOffset ≤ t.inOffset ∧ t.inOffset ≤ t.inLimit

/-- R168: every step keeps it true that each pixel counted stands in OUT, so that at DONE every word of OUT[0 .. W*H-1] has
been written. -/
def Obligations.EveryPixelWritten : Prop :=
  (∀ s t : State, s.Inv → Covered s → step s = .next t → Covered t) ∧
  (∀ s : State, s.Inv → Covered s → s.done = true → s.tainted = false →
    ∀ d, d < s.width * s.height → (memLookup s.out.words d).isSome = true)
end

