-- ==== Sys2Proof/Laws/State.lean ====
section
/-! SUPPORT. One lemma per field of State for each named update of the state, true by rfl, so that no proof unfolds a
record update. -/

namespace Sys2Proof.Machine

/-! ### setDone -/

@[simp] theorem setDone_params (s : State) : (setDone s).params = s.params := rfl
@[simp] theorem setDone_strict (s : State) : (setDone s).strict = s.strict := rfl
@[simp] theorem setDone_busy (s : State) : (setDone s).busy = false := rfl
@[simp] theorem setDone_done (s : State) : (setDone s).done = true := rfl
@[simp] theorem setDone_err (s : State) : (setDone s).err = s.err := rfl
@[simp] theorem setDone_palOor (s : State) : (setDone s).palOor = s.palOor := rfl
@[simp] theorem setDone_errCode (s : State) : (setDone s).errCode = s.errCode := rfl
@[simp] theorem setDone_errCause (s : State) : (setDone s).errCause = s.errCause := rfl
@[simp] theorem setDone_chord (s : State) : (setDone s).chord = s.chord := rfl
@[simp] theorem setDone_inLen (s : State) : (setDone s).inLen = s.inLen := rfl
@[simp] theorem setDone_hdr0 (s : State) : (setDone s).hdr0 = s.hdr0 := rfl
@[simp] theorem setDone_hdr1 (s : State) : (setDone s).hdr1 = s.hdr1 := rfl
@[simp] theorem setDone_hdr2 (s : State) : (setDone s).hdr2 = s.hdr2 := rfl
@[simp] theorem setDone_pixCount (s : State) : (setDone s).pixCount = s.pixCount := rfl
@[simp] theorem setDone_inPtr (s : State) : (setDone s).inPtr = s.inPtr := rfl
@[simp] theorem setDone_consts (s : State) : (setDone s).consts = s.consts := rfl
@[simp] theorem setDone_pktKind (s : State) : (setDone s).pktKind = s.pktKind := rfl
@[simp] theorem setDone_pktRem (s : State) : (setDone s).pktRem = s.pktRem := rfl
@[simp] theorem setDone_slatch (s : State) : (setDone s).slatch = s.slatch := rfl
@[simp] theorem setDone_phase (s : State) : (setDone s).phase = .idle := rfl
@[simp] theorem setDone_inMem (s : State) : (setDone s).inMem = s.inMem := rfl
@[simp] theorem setDone_out (s : State) : (setDone s).out = s.out := rfl
@[simp] theorem setDone_pixel (s : State) : (setDone s).pixel = s.pixel := rfl
@[simp] theorem setDone_pixelReady (s : State) : (setDone s).pixelReady = s.pixelReady := rfl
@[simp] theorem setDone_tainted (s : State) : (setDone s).tainted = s.tainted := rfl
@[simp] theorem setDone_draws (s : State) : (setDone s).draws = s.draws := rfl
@[simp] theorem setDone_rdata (s : State) : (setDone s).rdata = s.rdata := rfl
@[simp] theorem setDone_hostQ (s : State) : (setDone s).hostQ = s.hostQ := rfl

/-! ### setPalOor -/

@[simp] theorem setPalOor_params (s : State) : (setPalOor s).params = s.params := rfl
@[simp] theorem setPalOor_strict (s : State) : (setPalOor s).strict = s.strict := rfl
@[simp] theorem setPalOor_busy (s : State) : (setPalOor s).busy = s.busy := rfl
@[simp] theorem setPalOor_done (s : State) : (setPalOor s).done = s.done := rfl
@[simp] theorem setPalOor_err (s : State) : (setPalOor s).err = s.err := rfl
@[simp] theorem setPalOor_palOor (s : State) : (setPalOor s).palOor = true := rfl
@[simp] theorem setPalOor_errCode (s : State) : (setPalOor s).errCode = s.errCode := rfl
@[simp] theorem setPalOor_errCause (s : State) : (setPalOor s).errCause = s.errCause := rfl
@[simp] theorem setPalOor_chord (s : State) : (setPalOor s).chord = s.chord := rfl
@[simp] theorem setPalOor_inLen (s : State) : (setPalOor s).inLen = s.inLen := rfl
@[simp] theorem setPalOor_hdr0 (s : State) : (setPalOor s).hdr0 = s.hdr0 := rfl
@[simp] theorem setPalOor_hdr1 (s : State) : (setPalOor s).hdr1 = s.hdr1 := rfl
@[simp] theorem setPalOor_hdr2 (s : State) : (setPalOor s).hdr2 = s.hdr2 := rfl
@[simp] theorem setPalOor_pixCount (s : State) : (setPalOor s).pixCount = s.pixCount := rfl
@[simp] theorem setPalOor_inPtr (s : State) : (setPalOor s).inPtr = s.inPtr := rfl
@[simp] theorem setPalOor_consts (s : State) : (setPalOor s).consts = s.consts := rfl
@[simp] theorem setPalOor_pktKind (s : State) : (setPalOor s).pktKind = s.pktKind := rfl
@[simp] theorem setPalOor_pktRem (s : State) : (setPalOor s).pktRem = s.pktRem := rfl
@[simp] theorem setPalOor_slatch (s : State) : (setPalOor s).slatch = s.slatch := rfl
@[simp] theorem setPalOor_phase (s : State) : (setPalOor s).phase = s.phase := rfl
@[simp] theorem setPalOor_inMem (s : State) : (setPalOor s).inMem = s.inMem := rfl
@[simp] theorem setPalOor_out (s : State) : (setPalOor s).out = s.out := rfl
@[simp] theorem setPalOor_pixel (s : State) : (setPalOor s).pixel = s.pixel := rfl
@[simp] theorem setPalOor_pixelReady (s : State) : (setPalOor s).pixelReady = s.pixelReady := rfl
@[simp] theorem setPalOor_tainted (s : State) : (setPalOor s).tainted = s.tainted := rfl
@[simp] theorem setPalOor_draws (s : State) : (setPalOor s).draws = s.draws := rfl
@[simp] theorem setPalOor_rdata (s : State) : (setPalOor s).rdata = s.rdata := rfl
@[simp] theorem setPalOor_hostQ (s : State) : (setPalOor s).hostQ = s.hostQ := rfl

/-! ### startFlags -/

@[simp] theorem startFlags_params (s : State) : (startFlags s).params = s.params := rfl
@[simp] theorem startFlags_strict (s : State) : (startFlags s).strict = s.strict := rfl
@[simp] theorem startFlags_busy (s : State) : (startFlags s).busy = true := rfl
@[simp] theorem startFlags_done (s : State) : (startFlags s).done = false := rfl
@[simp] theorem startFlags_err (s : State) : (startFlags s).err = false := rfl
@[simp] theorem startFlags_palOor (s : State) : (startFlags s).palOor = false := rfl
@[simp] theorem startFlags_errCode (s : State) : (startFlags s).errCode = 0 := rfl
@[simp] theorem startFlags_errCause (s : State) : (startFlags s).errCause = none := rfl
@[simp] theorem startFlags_chord (s : State) : (startFlags s).chord = s.chord := rfl
@[simp] theorem startFlags_inLen (s : State) : (startFlags s).inLen = s.inLen := rfl
@[simp] theorem startFlags_hdr0 (s : State) : (startFlags s).hdr0 = s.hdr0 := rfl
@[simp] theorem startFlags_hdr1 (s : State) : (startFlags s).hdr1 = s.hdr1 := rfl
@[simp] theorem startFlags_hdr2 (s : State) : (startFlags s).hdr2 = s.hdr2 := rfl
@[simp] theorem startFlags_pixCount (s : State) : (startFlags s).pixCount = s.pixCount := rfl
@[simp] theorem startFlags_inPtr (s : State) : (startFlags s).inPtr = s.inPtr := rfl
@[simp] theorem startFlags_consts (s : State) : (startFlags s).consts = s.consts := rfl
@[simp] theorem startFlags_pktKind (s : State) : (startFlags s).pktKind = s.pktKind := rfl
@[simp] theorem startFlags_pktRem (s : State) : (startFlags s).pktRem = s.pktRem := rfl
@[simp] theorem startFlags_slatch (s : State) : (startFlags s).slatch = s.slatch := rfl
@[simp] theorem startFlags_phase (s : State) : (startFlags s).phase = s.phase := rfl
@[simp] theorem startFlags_inMem (s : State) : (startFlags s).inMem = s.inMem := rfl
@[simp] theorem startFlags_out (s : State) : (startFlags s).out = s.out := rfl
@[simp] theorem startFlags_pixel (s : State) : (startFlags s).pixel = s.pixel := rfl
@[simp] theorem startFlags_pixelReady (s : State) : (startFlags s).pixelReady = s.pixelReady := rfl
@[simp] theorem startFlags_tainted (s : State) : (startFlags s).tainted = s.tainted := rfl
@[simp] theorem startFlags_draws (s : State) : (startFlags s).draws = s.draws := rfl
@[simp] theorem startFlags_rdata (s : State) : (startFlags s).rdata = s.rdata := rfl
@[simp] theorem startFlags_hostQ (s : State) : (startFlags s).hostQ = s.hostQ := rfl

/-! ### errorFlags -/

@[simp] theorem errorFlags_params (e : DecodeError) (s : State) : (errorFlags e s).params = s.params := rfl
@[simp] theorem errorFlags_strict (e : DecodeError) (s : State) : (errorFlags e s).strict = s.strict := rfl
@[simp] theorem errorFlags_busy (e : DecodeError) (s : State) : (errorFlags e s).busy = false := rfl
@[simp] theorem errorFlags_done (e : DecodeError) (s : State) : (errorFlags e s).done = s.done := rfl
@[simp] theorem errorFlags_err (e : DecodeError) (s : State) : (errorFlags e s).err = true := rfl
@[simp] theorem errorFlags_palOor (e : DecodeError) (s : State) : (errorFlags e s).palOor = s.palOor := rfl
@[simp] theorem errorFlags_errCode (e : DecodeError) (s : State) : (errorFlags e s).errCode = e.code := rfl
@[simp] theorem errorFlags_errCause (e : DecodeError) (s : State) : (errorFlags e s).errCause = e.cause? := rfl
@[simp] theorem errorFlags_chord (e : DecodeError) (s : State) : (errorFlags e s).chord = s.chord := rfl
@[simp] theorem errorFlags_inLen (e : DecodeError) (s : State) : (errorFlags e s).inLen = s.inLen := rfl
@[simp] theorem errorFlags_hdr0 (e : DecodeError) (s : State) : (errorFlags e s).hdr0 = s.hdr0 := rfl
@[simp] theorem errorFlags_hdr1 (e : DecodeError) (s : State) : (errorFlags e s).hdr1 = s.hdr1 := rfl
@[simp] theorem errorFlags_hdr2 (e : DecodeError) (s : State) : (errorFlags e s).hdr2 = s.hdr2 := rfl
@[simp] theorem errorFlags_pixCount (e : DecodeError) (s : State) : (errorFlags e s).pixCount = s.pixCount := rfl
@[simp] theorem errorFlags_inPtr (e : DecodeError) (s : State) : (errorFlags e s).inPtr = s.inPtr := rfl
@[simp] theorem errorFlags_consts (e : DecodeError) (s : State) : (errorFlags e s).consts = s.consts := rfl
@[simp] theorem errorFlags_pktKind (e : DecodeError) (s : State) : (errorFlags e s).pktKind = s.pktKind := rfl
@[simp] theorem errorFlags_pktRem (e : DecodeError) (s : State) : (errorFlags e s).pktRem = s.pktRem := rfl
@[simp] theorem errorFlags_slatch (e : DecodeError) (s : State) : (errorFlags e s).slatch = s.slatch := rfl
@[simp] theorem errorFlags_phase (e : DecodeError) (s : State) : (errorFlags e s).phase = .idle := rfl
@[simp] theorem errorFlags_inMem (e : DecodeError) (s : State) : (errorFlags e s).inMem = s.inMem := rfl
@[simp] theorem errorFlags_out (e : DecodeError) (s : State) : (errorFlags e s).out = s.out := rfl
@[simp] theorem errorFlags_pixel (e : DecodeError) (s : State) : (errorFlags e s).pixel = s.pixel := rfl
@[simp] theorem errorFlags_pixelReady (e : DecodeError) (s : State) : (errorFlags e s).pixelReady = s.pixelReady := rfl
@[simp] theorem errorFlags_tainted (e : DecodeError) (s : State) : (errorFlags e s).tainted = s.tainted := rfl
@[simp] theorem errorFlags_draws (e : DecodeError) (s : State) : (errorFlags e s).draws = s.draws := rfl
@[simp] theorem errorFlags_rdata (e : DecodeError) (s : State) : (errorFlags e s).rdata = s.rdata := rfl
@[simp] theorem errorFlags_hostQ (e : DecodeError) (s : State) : (errorFlags e s).hostQ = s.hostQ := rfl

/-! ### outWrite -/

@[simp] theorem outWrite_params (s : State) (d : Nat) (v : Word) : (outWrite s d v).params = s.params := rfl
@[simp] theorem outWrite_strict (s : State) (d : Nat) (v : Word) : (outWrite s d v).strict = s.strict := rfl
@[simp] theorem outWrite_busy (s : State) (d : Nat) (v : Word) : (outWrite s d v).busy = s.busy := rfl
@[simp] theorem outWrite_done (s : State) (d : Nat) (v : Word) : (outWrite s d v).done = s.done := rfl
@[simp] theorem outWrite_err (s : State) (d : Nat) (v : Word) : (outWrite s d v).err = s.err := rfl
@[simp] theorem outWrite_palOor (s : State) (d : Nat) (v : Word) : (outWrite s d v).palOor = s.palOor := rfl
@[simp] theorem outWrite_errCode (s : State) (d : Nat) (v : Word) : (outWrite s d v).errCode = s.errCode := rfl
@[simp] theorem outWrite_errCause (s : State) (d : Nat) (v : Word) : (outWrite s d v).errCause = s.errCause := rfl
@[simp] theorem outWrite_chord (s : State) (d : Nat) (v : Word) : (outWrite s d v).chord = s.chord := rfl
@[simp] theorem outWrite_inLen (s : State) (d : Nat) (v : Word) : (outWrite s d v).inLen = s.inLen := rfl
@[simp] theorem outWrite_hdr0 (s : State) (d : Nat) (v : Word) : (outWrite s d v).hdr0 = s.hdr0 := rfl
@[simp] theorem outWrite_hdr1 (s : State) (d : Nat) (v : Word) : (outWrite s d v).hdr1 = s.hdr1 := rfl
@[simp] theorem outWrite_hdr2 (s : State) (d : Nat) (v : Word) : (outWrite s d v).hdr2 = s.hdr2 := rfl
@[simp] theorem outWrite_pixCount (s : State) (d : Nat) (v : Word) : (outWrite s d v).pixCount = s.pixCount := rfl
@[simp] theorem outWrite_inPtr (s : State) (d : Nat) (v : Word) : (outWrite s d v).inPtr = s.inPtr := rfl
@[simp] theorem outWrite_consts (s : State) (d : Nat) (v : Word) : (outWrite s d v).consts = s.consts := rfl
@[simp] theorem outWrite_pktKind (s : State) (d : Nat) (v : Word) : (outWrite s d v).pktKind = s.pktKind := rfl
@[simp] theorem outWrite_pktRem (s : State) (d : Nat) (v : Word) : (outWrite s d v).pktRem = s.pktRem := rfl
@[simp] theorem outWrite_slatch (s : State) (d : Nat) (v : Word) : (outWrite s d v).slatch = s.slatch := rfl
@[simp] theorem outWrite_phase (s : State) (d : Nat) (v : Word) : (outWrite s d v).phase = s.phase := rfl
@[simp] theorem outWrite_inMem (s : State) (d : Nat) (v : Word) : (outWrite s d v).inMem = s.inMem := rfl
@[simp] theorem outWrite_out (s : State) (d : Nat) (v : Word) : (outWrite s d v).out = { s.out with words := memInsert s.out.words d v } := rfl
@[simp] theorem outWrite_pixel (s : State) (d : Nat) (v : Word) : (outWrite s d v).pixel = s.pixel := rfl
@[simp] theorem outWrite_pixelReady (s : State) (d : Nat) (v : Word) : (outWrite s d v).pixelReady = s.pixelReady := rfl
@[simp] theorem outWrite_tainted (s : State) (d : Nat) (v : Word) : (outWrite s d v).tainted = s.tainted := rfl
@[simp] theorem outWrite_draws (s : State) (d : Nat) (v : Word) : (outWrite s d v).draws = s.draws := rfl
@[simp] theorem outWrite_rdata (s : State) (d : Nat) (v : Word) : (outWrite s d v).rdata = s.rdata := rfl
@[simp] theorem outWrite_hostQ (s : State) (d : Nat) (v : Word) : (outWrite s d v).hostQ = s.hostQ := rfl

/-! ### outUnspecified -/

@[simp] theorem outUnspecified_params (s : State) : (outUnspecified s).params = s.params := rfl
@[simp] theorem outUnspecified_strict (s : State) : (outUnspecified s).strict = s.strict := rfl
@[simp] theorem outUnspecified_busy (s : State) : (outUnspecified s).busy = s.busy := rfl
@[simp] theorem outUnspecified_done (s : State) : (outUnspecified s).done = s.done := rfl
@[simp] theorem outUnspecified_err (s : State) : (outUnspecified s).err = s.err := rfl
@[simp] theorem outUnspecified_palOor (s : State) : (outUnspecified s).palOor = s.palOor := rfl
@[simp] theorem outUnspecified_errCode (s : State) : (outUnspecified s).errCode = s.errCode := rfl
@[simp] theorem outUnspecified_errCause (s : State) : (outUnspecified s).errCause = s.errCause := rfl
@[simp] theorem outUnspecified_chord (s : State) : (outUnspecified s).chord = s.chord := rfl
@[simp] theorem outUnspecified_inLen (s : State) : (outUnspecified s).inLen = s.inLen := rfl
@[simp] theorem outUnspecified_hdr0 (s : State) : (outUnspecified s).hdr0 = s.hdr0 := rfl
@[simp] theorem outUnspecified_hdr1 (s : State) : (outUnspecified s).hdr1 = s.hdr1 := rfl
@[simp] theorem outUnspecified_hdr2 (s : State) : (outUnspecified s).hdr2 = s.hdr2 := rfl
@[simp] theorem outUnspecified_pixCount (s : State) : (outUnspecified s).pixCount = s.pixCount := rfl
@[simp] theorem outUnspecified_inPtr (s : State) : (outUnspecified s).inPtr = s.inPtr := rfl
@[simp] theorem outUnspecified_consts (s : State) : (outUnspecified s).consts = s.consts := rfl
@[simp] theorem outUnspecified_pktKind (s : State) : (outUnspecified s).pktKind = s.pktKind := rfl
@[simp] theorem outUnspecified_pktRem (s : State) : (outUnspecified s).pktRem = s.pktRem := rfl
@[simp] theorem outUnspecified_slatch (s : State) : (outUnspecified s).slatch = s.slatch := rfl
@[simp] theorem outUnspecified_phase (s : State) : (outUnspecified s).phase = s.phase := rfl
@[simp] theorem outUnspecified_inMem (s : State) : (outUnspecified s).inMem = s.inMem := rfl
@[simp] theorem outUnspecified_out (s : State) : (outUnspecified s).out = { epoch := s.draws + 1, words := [] } := rfl
@[simp] theorem outUnspecified_pixel (s : State) : (outUnspecified s).pixel = s.pixel := rfl
@[simp] theorem outUnspecified_pixelReady (s : State) : (outUnspecified s).pixelReady = s.pixelReady := rfl
@[simp] theorem outUnspecified_tainted (s : State) : (outUnspecified s).tainted = s.tainted := rfl
@[simp] theorem outUnspecified_draws (s : State) : (outUnspecified s).draws = s.draws + 1 := rfl
@[simp] theorem outUnspecified_rdata (s : State) : (outUnspecified s).rdata = s.rdata := rfl
@[simp] theorem outUnspecified_hostQ (s : State) : (outUnspecified s).hostQ = s.hostQ := rfl

/-! ### raiseError -/

@[simp] theorem raiseError_params (e : DecodeError) (s : State) : (raiseError e s).params = s.params := rfl
@[simp] theorem raiseError_strict (e : DecodeError) (s : State) : (raiseError e s).strict = s.strict := rfl
@[simp] theorem raiseError_busy (e : DecodeError) (s : State) : (raiseError e s).busy = false := rfl
@[simp] theorem raiseError_done (e : DecodeError) (s : State) : (raiseError e s).done = s.done := rfl
@[simp] theorem raiseError_err (e : DecodeError) (s : State) : (raiseError e s).err = true := rfl
@[simp] theorem raiseError_palOor (e : DecodeError) (s : State) : (raiseError e s).palOor = s.palOor := rfl
@[simp] theorem raiseError_errCode (e : DecodeError) (s : State) : (raiseError e s).errCode = e.code := rfl
@[simp] theorem raiseError_errCause (e : DecodeError) (s : State) : (raiseError e s).errCause = e.cause? := rfl
@[simp] theorem raiseError_chord (e : DecodeError) (s : State) : (raiseError e s).chord = s.chord := rfl
@[simp] theorem raiseError_inLen (e : DecodeError) (s : State) : (raiseError e s).inLen = s.inLen := rfl
@[simp] theorem raiseError_hdr0 (e : DecodeError) (s : State) : (raiseError e s).hdr0 = s.hdr0 := rfl
@[simp] theorem raiseError_hdr1 (e : DecodeError) (s : State) : (raiseError e s).hdr1 = s.hdr1 := rfl
@[simp] theorem raiseError_hdr2 (e : DecodeError) (s : State) : (raiseError e s).hdr2 = s.hdr2 := rfl
@[simp] theorem raiseError_pixCount (e : DecodeError) (s : State) : (raiseError e s).pixCount = s.pixCount := rfl
@[simp] theorem raiseError_inPtr (e : DecodeError) (s : State) : (raiseError e s).inPtr = s.inPtr := rfl
@[simp] theorem raiseError_consts (e : DecodeError) (s : State) : (raiseError e s).consts = s.consts := rfl
@[simp] theorem raiseError_pktKind (e : DecodeError) (s : State) : (raiseError e s).pktKind = s.pktKind := rfl
@[simp] theorem raiseError_pktRem (e : DecodeError) (s : State) : (raiseError e s).pktRem = s.pktRem := rfl
@[simp] theorem raiseError_slatch (e : DecodeError) (s : State) : (raiseError e s).slatch = s.slatch := rfl
@[simp] theorem raiseError_phase (e : DecodeError) (s : State) : (raiseError e s).phase = .idle := rfl
@[simp] theorem raiseError_inMem (e : DecodeError) (s : State) : (raiseError e s).inMem = s.inMem := rfl
@[simp] theorem raiseError_out (e : DecodeError) (s : State) : (raiseError e s).out = { epoch := s.draws + 1, words := [] } := rfl
@[simp] theorem raiseError_pixel (e : DecodeError) (s : State) : (raiseError e s).pixel = s.pixel := rfl
@[simp] theorem raiseError_pixelReady (e : DecodeError) (s : State) : (raiseError e s).pixelReady = false := rfl
@[simp] theorem raiseError_tainted (e : DecodeError) (s : State) : (raiseError e s).tainted = s.tainted := rfl
@[simp] theorem raiseError_draws (e : DecodeError) (s : State) : (raiseError e s).draws = s.draws + 1 := rfl
@[simp] theorem raiseError_rdata (e : DecodeError) (s : State) : (raiseError e s).rdata = s.rdata := rfl
@[simp] theorem raiseError_hostQ (e : DecodeError) (s : State) : (raiseError e s).hostQ = s.hostQ := rfl

/-! ### latchPixel -/

@[simp] theorem latchPixel_params (c : Rgba) (s : State) : (latchPixel c s).params = s.params := rfl
@[simp] theorem latchPixel_strict (c : Rgba) (s : State) : (latchPixel c s).strict = s.strict := rfl
@[simp] theorem latchPixel_busy (c : Rgba) (s : State) : (latchPixel c s).busy = s.busy := rfl
@[simp] theorem latchPixel_done (c : Rgba) (s : State) : (latchPixel c s).done = s.done := rfl
@[simp] theorem latchPixel_err (c : Rgba) (s : State) : (latchPixel c s).err = s.err := rfl
@[simp] theorem latchPixel_palOor (c : Rgba) (s : State) : (latchPixel c s).palOor = s.palOor := rfl
@[simp] theorem latchPixel_errCode (c : Rgba) (s : State) : (latchPixel c s).errCode = s.errCode := rfl
@[simp] theorem latchPixel_errCause (c : Rgba) (s : State) : (latchPixel c s).errCause = s.errCause := rfl
@[simp] theorem latchPixel_chord (c : Rgba) (s : State) : (latchPixel c s).chord = s.chord := rfl
@[simp] theorem latchPixel_inLen (c : Rgba) (s : State) : (latchPixel c s).inLen = s.inLen := rfl
@[simp] theorem latchPixel_hdr0 (c : Rgba) (s : State) : (latchPixel c s).hdr0 = s.hdr0 := rfl
@[simp] theorem latchPixel_hdr1 (c : Rgba) (s : State) : (latchPixel c s).hdr1 = s.hdr1 := rfl
@[simp] theorem latchPixel_hdr2 (c : Rgba) (s : State) : (latchPixel c s).hdr2 = s.hdr2 := rfl
@[simp] theorem latchPixel_pixCount (c : Rgba) (s : State) : (latchPixel c s).pixCount = s.pixCount := rfl
@[simp] theorem latchPixel_inPtr (c : Rgba) (s : State) : (latchPixel c s).inPtr = s.inPtr := rfl
@[simp] theorem latchPixel_consts (c : Rgba) (s : State) : (latchPixel c s).consts = s.consts := rfl
@[simp] theorem latchPixel_pktKind (c : Rgba) (s : State) : (latchPixel c s).pktKind = s.pktKind := rfl
@[simp] theorem latchPixel_pktRem (c : Rgba) (s : State) : (latchPixel c s).pktRem = s.pktRem := rfl
@[simp] theorem latchPixel_slatch (c : Rgba) (s : State) : (latchPixel c s).slatch = s.slatch := rfl
@[simp] theorem latchPixel_phase (c : Rgba) (s : State) : (latchPixel c s).phase = s.phase := rfl
@[simp] theorem latchPixel_inMem (c : Rgba) (s : State) : (latchPixel c s).inMem = s.inMem := rfl
@[simp] theorem latchPixel_out (c : Rgba) (s : State) : (latchPixel c s).out = s.out := rfl
@[simp] theorem latchPixel_pixel (c : Rgba) (s : State) : (latchPixel c s).pixel = pack s.consts c := rfl
@[simp] theorem latchPixel_pixelReady (c : Rgba) (s : State) : (latchPixel c s).pixelReady = true := rfl
@[simp] theorem latchPixel_tainted (c : Rgba) (s : State) : (latchPixel c s).tainted = s.tainted := rfl
@[simp] theorem latchPixel_draws (c : Rgba) (s : State) : (latchPixel c s).draws = s.draws := rfl
@[simp] theorem latchPixel_rdata (c : Rgba) (s : State) : (latchPixel c s).rdata = s.rdata := rfl
@[simp] theorem latchPixel_hostQ (c : Rgba) (s : State) : (latchPixel c s).hostQ = s.hostQ := rfl

/-! ### loadArgb -/

@[simp] theorem loadArgb_params (s : State) : (loadArgb s).params = s.params := rfl
@[simp] theorem loadArgb_strict (s : State) : (loadArgb s).strict = s.strict := rfl
@[simp] theorem loadArgb_busy (s : State) : (loadArgb s).busy = s.busy := rfl
@[simp] theorem loadArgb_done (s : State) : (loadArgb s).done = s.done := rfl
@[simp] theorem loadArgb_err (s : State) : (loadArgb s).err = s.err := rfl
@[simp] theorem loadArgb_palOor (s : State) : (loadArgb s).palOor = s.palOor := rfl
@[simp] theorem loadArgb_errCode (s : State) : (loadArgb s).errCode = s.errCode := rfl
@[simp] theorem loadArgb_errCause (s : State) : (loadArgb s).errCause = s.errCause := rfl
@[simp] theorem loadArgb_chord (s : State) : (loadArgb s).chord = chordArgb := rfl
@[simp] theorem loadArgb_inLen (s : State) : (loadArgb s).inLen = s.inLen := rfl
@[simp] theorem loadArgb_hdr0 (s : State) : (loadArgb s).hdr0 = s.hdr0 := rfl
@[simp] theorem loadArgb_hdr1 (s : State) : (loadArgb s).hdr1 = s.hdr1 := rfl
@[simp] theorem loadArgb_hdr2 (s : State) : (loadArgb s).hdr2 = s.hdr2 := rfl
@[simp] theorem loadArgb_pixCount (s : State) : (loadArgb s).pixCount = s.pixCount := rfl
@[simp] theorem loadArgb_inPtr (s : State) : (loadArgb s).inPtr = s.inPtr := rfl
@[simp] theorem loadArgb_consts (s : State) : (loadArgb s).consts = s.consts := rfl
@[simp] theorem loadArgb_pktKind (s : State) : (loadArgb s).pktKind = s.pktKind := rfl
@[simp] theorem loadArgb_pktRem (s : State) : (loadArgb s).pktRem = s.pktRem := rfl
@[simp] theorem loadArgb_slatch (s : State) : (loadArgb s).slatch = s.slatch := rfl
@[simp] theorem loadArgb_phase (s : State) : (loadArgb s).phase = s.phase := rfl
@[simp] theorem loadArgb_inMem (s : State) : (loadArgb s).inMem = s.inMem := rfl
@[simp] theorem loadArgb_out (s : State) : (loadArgb s).out = s.out := rfl
@[simp] theorem loadArgb_pixel (s : State) : (loadArgb s).pixel = s.pixel := rfl
@[simp] theorem loadArgb_pixelReady (s : State) : (loadArgb s).pixelReady = s.pixelReady := rfl
@[simp] theorem loadArgb_tainted (s : State) : (loadArgb s).tainted = s.tainted := rfl
@[simp] theorem loadArgb_draws (s : State) : (loadArgb s).draws = s.draws := rfl
@[simp] theorem loadArgb_rdata (s : State) : (loadArgb s).rdata = s.rdata := rfl
@[simp] theorem loadArgb_hostQ (s : State) : (loadArgb s).hostQ = s.hostQ := rfl

/-! ### loadAbgr -/

@[simp] theorem loadAbgr_params (s : State) : (loadAbgr s).params = s.params := rfl
@[simp] theorem loadAbgr_strict (s : State) : (loadAbgr s).strict = s.strict := rfl
@[simp] theorem loadAbgr_busy (s : State) : (loadAbgr s).busy = s.busy := rfl
@[simp] theorem loadAbgr_done (s : State) : (loadAbgr s).done = s.done := rfl
@[simp] theorem loadAbgr_err (s : State) : (loadAbgr s).err = s.err := rfl
@[simp] theorem loadAbgr_palOor (s : State) : (loadAbgr s).palOor = s.palOor := rfl
@[simp] theorem loadAbgr_errCode (s : State) : (loadAbgr s).errCode = s.errCode := rfl
@[simp] theorem loadAbgr_errCause (s : State) : (loadAbgr s).errCause = s.errCause := rfl
@[simp] theorem loadAbgr_chord (s : State) : (loadAbgr s).chord = chordAbgr := rfl
@[simp] theorem loadAbgr_inLen (s : State) : (loadAbgr s).inLen = s.inLen := rfl
@[simp] theorem loadAbgr_hdr0 (s : State) : (loadAbgr s).hdr0 = s.hdr0 := rfl
@[simp] theorem loadAbgr_hdr1 (s : State) : (loadAbgr s).hdr1 = s.hdr1 := rfl
@[simp] theorem loadAbgr_hdr2 (s : State) : (loadAbgr s).hdr2 = s.hdr2 := rfl
@[simp] theorem loadAbgr_pixCount (s : State) : (loadAbgr s).pixCount = s.pixCount := rfl
@[simp] theorem loadAbgr_inPtr (s : State) : (loadAbgr s).inPtr = s.inPtr := rfl
@[simp] theorem loadAbgr_consts (s : State) : (loadAbgr s).consts = s.consts := rfl
@[simp] theorem loadAbgr_pktKind (s : State) : (loadAbgr s).pktKind = s.pktKind := rfl
@[simp] theorem loadAbgr_pktRem (s : State) : (loadAbgr s).pktRem = s.pktRem := rfl
@[simp] theorem loadAbgr_slatch (s : State) : (loadAbgr s).slatch = s.slatch := rfl
@[simp] theorem loadAbgr_phase (s : State) : (loadAbgr s).phase = s.phase := rfl
@[simp] theorem loadAbgr_inMem (s : State) : (loadAbgr s).inMem = s.inMem := rfl
@[simp] theorem loadAbgr_out (s : State) : (loadAbgr s).out = s.out := rfl
@[simp] theorem loadAbgr_pixel (s : State) : (loadAbgr s).pixel = s.pixel := rfl
@[simp] theorem loadAbgr_pixelReady (s : State) : (loadAbgr s).pixelReady = s.pixelReady := rfl
@[simp] theorem loadAbgr_tainted (s : State) : (loadAbgr s).tainted = s.tainted := rfl
@[simp] theorem loadAbgr_draws (s : State) : (loadAbgr s).draws = s.draws := rfl
@[simp] theorem loadAbgr_rdata (s : State) : (loadAbgr s).rdata = s.rdata := rfl
@[simp] theorem loadAbgr_hostQ (s : State) : (loadAbgr s).hostQ = s.hostQ := rfl

/-! ### startEntry -/

@[simp] theorem startEntry_params (s : State) : (startEntry s).params = s.params := rfl
@[simp] theorem startEntry_strict (s : State) : (startEntry s).strict = s.strict := rfl
@[simp] theorem startEntry_busy (s : State) : (startEntry s).busy = true := rfl
@[simp] theorem startEntry_done (s : State) : (startEntry s).done = false := rfl
@[simp] theorem startEntry_err (s : State) : (startEntry s).err = false := rfl
@[simp] theorem startEntry_palOor (s : State) : (startEntry s).palOor = false := rfl
@[simp] theorem startEntry_errCode (s : State) : (startEntry s).errCode = 0 := rfl
@[simp] theorem startEntry_errCause (s : State) : (startEntry s).errCause = none := rfl
@[simp] theorem startEntry_chord (s : State) : (startEntry s).chord = s.chord := rfl
@[simp] theorem startEntry_inLen (s : State) : (startEntry s).inLen = s.inLen := rfl
@[simp] theorem startEntry_hdr0 (s : State) : (startEntry s).hdr0 = s.hdr0 := rfl
@[simp] theorem startEntry_hdr1 (s : State) : (startEntry s).hdr1 = s.hdr1 := rfl
@[simp] theorem startEntry_hdr2 (s : State) : (startEntry s).hdr2 = s.hdr2 := rfl
@[simp] theorem startEntry_pixCount (s : State) : (startEntry s).pixCount = 0 := rfl
@[simp] theorem startEntry_inPtr (s : State) : (startEntry s).inPtr = 0 := rfl
@[simp] theorem startEntry_consts (s : State) : (startEntry s).consts = s.consts := rfl
@[simp] theorem startEntry_pktKind (s : State) : (startEntry s).pktKind = Config.unspecPktKind s.draws := rfl
@[simp] theorem startEntry_pktRem (s : State) : (startEntry s).pktRem = 0 := rfl
@[simp] theorem startEntry_slatch (s : State) : (startEntry s).slatch = wordBytes (Config.unspecSlatch s.draws) := rfl
@[simp] theorem startEntry_phase (s : State) : (startEntry s).phase = s.phase := rfl
@[simp] theorem startEntry_inMem (s : State) : (startEntry s).inMem = s.inMem := rfl
@[simp] theorem startEntry_out (s : State) : (startEntry s).out = s.out := rfl
@[simp] theorem startEntry_pixel (s : State) : (startEntry s).pixel = s.pixel := rfl
@[simp] theorem startEntry_pixelReady (s : State) : (startEntry s).pixelReady = false := rfl
@[simp] theorem startEntry_tainted (s : State) : (startEntry s).tainted = false := rfl
@[simp] theorem startEntry_draws (s : State) : (startEntry s).draws = s.draws + 1 := rfl
@[simp] theorem startEntry_rdata (s : State) : (startEntry s).rdata = s.rdata := rfl
@[simp] theorem startEntry_hostQ (s : State) : (startEntry s).hostQ = s.hostQ := rfl

/-! ### hostReadReg -/

@[simp] theorem hostReadReg_params (offset : Nat) (s : State) : (hostReadReg offset s).params = s.params := rfl
@[simp] theorem hostReadReg_strict (offset : Nat) (s : State) : (hostReadReg offset s).strict = s.strict := rfl
@[simp] theorem hostReadReg_busy (offset : Nat) (s : State) : (hostReadReg offset s).busy = s.busy := rfl
@[simp] theorem hostReadReg_done (offset : Nat) (s : State) : (hostReadReg offset s).done = s.done := rfl
@[simp] theorem hostReadReg_err (offset : Nat) (s : State) : (hostReadReg offset s).err = s.err := rfl
@[simp] theorem hostReadReg_palOor (offset : Nat) (s : State) : (hostReadReg offset s).palOor = s.palOor := rfl
@[simp] theorem hostReadReg_errCode (offset : Nat) (s : State) : (hostReadReg offset s).errCode = s.errCode := rfl
@[simp] theorem hostReadReg_errCause (offset : Nat) (s : State) : (hostReadReg offset s).errCause = s.errCause := rfl
@[simp] theorem hostReadReg_chord (offset : Nat) (s : State) : (hostReadReg offset s).chord = s.chord := rfl
@[simp] theorem hostReadReg_inLen (offset : Nat) (s : State) : (hostReadReg offset s).inLen = s.inLen := rfl
@[simp] theorem hostReadReg_hdr0 (offset : Nat) (s : State) : (hostReadReg offset s).hdr0 = s.hdr0 := rfl
@[simp] theorem hostReadReg_hdr1 (offset : Nat) (s : State) : (hostReadReg offset s).hdr1 = s.hdr1 := rfl
@[simp] theorem hostReadReg_hdr2 (offset : Nat) (s : State) : (hostReadReg offset s).hdr2 = s.hdr2 := rfl
@[simp] theorem hostReadReg_pixCount (offset : Nat) (s : State) : (hostReadReg offset s).pixCount = s.pixCount := rfl
@[simp] theorem hostReadReg_inPtr (offset : Nat) (s : State) : (hostReadReg offset s).inPtr = s.inPtr := rfl
@[simp] theorem hostReadReg_consts (offset : Nat) (s : State) : (hostReadReg offset s).consts = s.consts := rfl
@[simp] theorem hostReadReg_pktKind (offset : Nat) (s : State) : (hostReadReg offset s).pktKind = s.pktKind := rfl
@[simp] theorem hostReadReg_pktRem (offset : Nat) (s : State) : (hostReadReg offset s).pktRem = s.pktRem := rfl
@[simp] theorem hostReadReg_slatch (offset : Nat) (s : State) : (hostReadReg offset s).slatch = s.slatch := rfl
@[simp] theorem hostReadReg_phase (offset : Nat) (s : State) : (hostReadReg offset s).phase = s.phase := rfl
@[simp] theorem hostReadReg_inMem (offset : Nat) (s : State) : (hostReadReg offset s).inMem = s.inMem := rfl
@[simp] theorem hostReadReg_out (offset : Nat) (s : State) : (hostReadReg offset s).out = s.out := rfl
@[simp] theorem hostReadReg_pixel (offset : Nat) (s : State) : (hostReadReg offset s).pixel = s.pixel := rfl
@[simp] theorem hostReadReg_pixelReady (offset : Nat) (s : State) : (hostReadReg offset s).pixelReady = s.pixelReady := rfl
@[simp] theorem hostReadReg_tainted (offset : Nat) (s : State) : (hostReadReg offset s).tainted = s.tainted := rfl
@[simp] theorem hostReadReg_draws (offset : Nat) (s : State) : (hostReadReg offset s).draws = s.draws := rfl
@[simp] theorem hostReadReg_rdata (offset : Nat) (s : State) : (hostReadReg offset s).rdata = regRead s offset := rfl
@[simp] theorem hostReadReg_hostQ (offset : Nat) (s : State) : (hostReadReg offset s).hostQ = s.hostQ := rfl

/-! ### resetBlock -/

@[simp] theorem resetBlock_params (s : State) : (resetBlock s).params = s.params := rfl
@[simp] theorem resetBlock_strict (s : State) : (resetBlock s).strict = false := rfl
@[simp] theorem resetBlock_busy (s : State) : (resetBlock s).busy = false := rfl
@[simp] theorem resetBlock_done (s : State) : (resetBlock s).done = false := rfl
@[simp] theorem resetBlock_err (s : State) : (resetBlock s).err = false := rfl
@[simp] theorem resetBlock_palOor (s : State) : (resetBlock s).palOor = false := rfl
@[simp] theorem resetBlock_errCode (s : State) : (resetBlock s).errCode = 0 := rfl
@[simp] theorem resetBlock_errCause (s : State) : (resetBlock s).errCause = none := rfl
@[simp] theorem resetBlock_chord (s : State) : (resetBlock s).chord = chordArgb := rfl
@[simp] theorem resetBlock_inLen (s : State) : (resetBlock s).inLen = 0 := rfl
@[simp] theorem resetBlock_hdr0 (s : State) : (resetBlock s).hdr0 = 0 := rfl
@[simp] theorem resetBlock_hdr1 (s : State) : (resetBlock s).hdr1 = 0 := rfl
@[simp] theorem resetBlock_hdr2 (s : State) : (resetBlock s).hdr2 = 0 := rfl
@[simp] theorem resetBlock_pixCount (s : State) : (resetBlock s).pixCount = 0 := rfl
@[simp] theorem resetBlock_inPtr (s : State) : (resetBlock s).inPtr = 0 := rfl
@[simp] theorem resetBlock_consts (s : State) : (resetBlock s).consts = s.consts := rfl
@[simp] theorem resetBlock_pktKind (s : State) : (resetBlock s).pktKind = Config.unspecPktKind s.draws := rfl
@[simp] theorem resetBlock_pktRem (s : State) : (resetBlock s).pktRem = 0 := rfl
@[simp] theorem resetBlock_slatch (s : State) : (resetBlock s).slatch = wordBytes (Config.unspecSlatch s.draws) := rfl
@[simp] theorem resetBlock_phase (s : State) : (resetBlock s).phase = .idle := rfl
@[simp] theorem resetBlock_inMem (s : State) : (resetBlock s).inMem = s.inMem := rfl
@[simp] theorem resetBlock_out (s : State) : (resetBlock s).out = outAfterReset s := rfl
@[simp] theorem resetBlock_pixel (s : State) : (resetBlock s).pixel = s.pixel := rfl
@[simp] theorem resetBlock_pixelReady (s : State) : (resetBlock s).pixelReady = false := rfl
@[simp] theorem resetBlock_tainted (s : State) : (resetBlock s).tainted = false := rfl
@[simp] theorem resetBlock_draws (s : State) : (resetBlock s).draws = s.draws + 1 := rfl
@[simp] theorem resetBlock_rdata (s : State) : (resetBlock s).rdata = s.rdata := rfl
@[simp] theorem resetBlock_hostQ (s : State) : (resetBlock s).hostQ = s.hostQ := rfl

/-! ### withQueue -/

@[simp] theorem withQueue_params (s : State) (q : List HostEvent) : (s.withQueue q).params = s.params := rfl
@[simp] theorem withQueue_strict (s : State) (q : List HostEvent) : (s.withQueue q).strict = s.strict := rfl
@[simp] theorem withQueue_busy (s : State) (q : List HostEvent) : (s.withQueue q).busy = s.busy := rfl
@[simp] theorem withQueue_done (s : State) (q : List HostEvent) : (s.withQueue q).done = s.done := rfl
@[simp] theorem withQueue_err (s : State) (q : List HostEvent) : (s.withQueue q).err = s.err := rfl
@[simp] theorem withQueue_palOor (s : State) (q : List HostEvent) : (s.withQueue q).palOor = s.palOor := rfl
@[simp] theorem withQueue_errCode (s : State) (q : List HostEvent) : (s.withQueue q).errCode = s.errCode := rfl
@[simp] theorem withQueue_errCause (s : State) (q : List HostEvent) : (s.withQueue q).errCause = s.errCause := rfl
@[simp] theorem withQueue_chord (s : State) (q : List HostEvent) : (s.withQueue q).chord = s.chord := rfl
@[simp] theorem withQueue_inLen (s : State) (q : List HostEvent) : (s.withQueue q).inLen = s.inLen := rfl
@[simp] theorem withQueue_hdr0 (s : State) (q : List HostEvent) : (s.withQueue q).hdr0 = s.hdr0 := rfl
@[simp] theorem withQueue_hdr1 (s : State) (q : List HostEvent) : (s.withQueue q).hdr1 = s.hdr1 := rfl
@[simp] theorem withQueue_hdr2 (s : State) (q : List HostEvent) : (s.withQueue q).hdr2 = s.hdr2 := rfl
@[simp] theorem withQueue_pixCount (s : State) (q : List HostEvent) : (s.withQueue q).pixCount = s.pixCount := rfl
@[simp] theorem withQueue_inPtr (s : State) (q : List HostEvent) : (s.withQueue q).inPtr = s.inPtr := rfl
@[simp] theorem withQueue_consts (s : State) (q : List HostEvent) : (s.withQueue q).consts = s.consts := rfl
@[simp] theorem withQueue_pktKind (s : State) (q : List HostEvent) : (s.withQueue q).pktKind = s.pktKind := rfl
@[simp] theorem withQueue_pktRem (s : State) (q : List HostEvent) : (s.withQueue q).pktRem = s.pktRem := rfl
@[simp] theorem withQueue_slatch (s : State) (q : List HostEvent) : (s.withQueue q).slatch = s.slatch := rfl
@[simp] theorem withQueue_phase (s : State) (q : List HostEvent) : (s.withQueue q).phase = s.phase := rfl
@[simp] theorem withQueue_inMem (s : State) (q : List HostEvent) : (s.withQueue q).inMem = s.inMem := rfl
@[simp] theorem withQueue_out (s : State) (q : List HostEvent) : (s.withQueue q).out = s.out := rfl
@[simp] theorem withQueue_pixel (s : State) (q : List HostEvent) : (s.withQueue q).pixel = s.pixel := rfl
@[simp] theorem withQueue_pixelReady (s : State) (q : List HostEvent) : (s.withQueue q).pixelReady = s.pixelReady := rfl
@[simp] theorem withQueue_tainted (s : State) (q : List HostEvent) : (s.withQueue q).tainted = s.tainted := rfl
@[simp] theorem withQueue_draws (s : State) (q : List HostEvent) : (s.withQueue q).draws = s.draws := rfl
@[simp] theorem withQueue_rdata (s : State) (q : List HostEvent) : (s.withQueue q).rdata = s.rdata := rfl
@[simp] theorem withQueue_hostQ (s : State) (q : List HostEvent) : (s.withQueue q).hostQ = q := rfl

end Sys2Proof.Machine
end

