-- ==== Sys2Proof/Laws/Memory.lean ====
section
/-! SUPPORT. The laws of the sorted lists both memories are: what a read sees after a write, and that every operation keeps
the canonical form. -/

namespace Sys2Proof.Machine

variable {α : Type}

@[simp] theorem memLookup_nil (a : Nat) : memLookup ([] : List (Nat × α)) a = none := rfl

theorem memLookup_memInsert_same (m : List (Nat × α)) (a : Nat) (v : α) :
    memLookup (memInsert m a v) a = some v := by
  induction m with
  | nil => simp [memInsert, memLookup]
  | cons c m ih =>
    obtain ⟨b, w⟩ := c
    simp only [memInsert]
    split
    · simp [memLookup]
    · split
      · simp [memLookup]
      · simp [memLookup, *]

theorem memLookup_memInsert_other (m : List (Nat × α)) (a b : Nat) (v : α) (h : b ≠ a) :
    memLookup (memInsert m a v) b = memLookup m b := by
  induction m with
  | nil => simp [memInsert, memLookup, h]
  | cons c m ih =>
    obtain ⟨b', w⟩ := c
    simp only [memInsert]
    split
    · simp [memLookup, h]
    · split
      · next h2 => subst h2; simp [memLookup, h]
      · simp [memLookup, ih]

/-- What a read sees after a write. -/
theorem memLookup_memInsert (m : List (Nat × α)) (a b : Nat) (v : α) :
    memLookup (memInsert m a v) b = if b = a then some v else memLookup m b := by
  split
  · next h => subst h; exact memLookup_memInsert_same m b v
  · next h => exact memLookup_memInsert_other m a b v h

theorem mem_memInsert {m : List (Nat × α)} {a : Nat} {v : α} {c : Nat × α} (h : c ∈ memInsert m a v) :
    c = (a, v) ∨ c ∈ m := by
  induction m with
  | nil => simpa [memInsert] using h
  | cons d m ih =>
    obtain ⟨b, w⟩ := d
    simp only [memInsert] at h
    split at h
    · simpa using h
    · split at h
      · simp only [List.mem_cons] at h ⊢; tauto
      · simp only [List.mem_cons] at h ⊢
        rcases h with h | h
        · exact .inr (.inl h)
        · rcases ih h with h | h <;> tauto

theorem wf_cons {a : Nat} {v : α} {m : List (Nat × α)} :
    Memory.wf ((a, v) :: m) = true ↔ (∀ c ∈ m, a < c.1) ∧ Memory.wf m = true := by
  simp [Memory.wf, List.all_eq_true]

/-- A write keeps the canonical form. -/
theorem wf_memInsert (m : List (Nat × α)) (a : Nat) (v : α) (h : Memory.wf m = true) :
    Memory.wf (memInsert m a v) = true := by
  induction m with
  | nil => simp [memInsert, Memory.wf]
  | cons d m ih =>
    obtain ⟨b, w⟩ := d
    obtain ⟨hb, hm⟩ := wf_cons.1 h
    simp only [memInsert]
    split
    · next hlt =>
      refine wf_cons.2 ⟨fun c hc => ?_, h⟩
      rcases List.mem_cons.1 hc with rfl | hc
      · exact hlt
      · have := hb c hc; omega
    · split
      · next heq => subst heq; exact wf_cons.2 ⟨hb, hm⟩
      · next hlt hne =>
        refine wf_cons.2 ⟨fun c hc => ?_, ih hm⟩
        rcases mem_memInsert hc with rfl | hc
        · show b < a; omega
        · exact hb c hc

theorem memLookup_isSome_of_mem {m : List (Nat × α)} {c : Nat × α} (h : c ∈ m) : (memLookup m c.1).isSome := by
  induction m with
  | nil => simp at h
  | cons d m ih =>
    obtain ⟨b, w⟩ := d
    rcases List.mem_cons.1 h with rfl | h
    · simp [memLookup]
    · simp only [memLookup]; split
      · rfl
      · exact ih h

/-- Two memories in canonical form that read alike at every address are equal. -/
theorem wf_ext {m m' : List (Nat × α)} (h : Memory.wf m = true) (h' : Memory.wf m' = true)
    (e : ∀ a, memLookup m a = memLookup m' a) : m = m' := by
  have absent : ∀ {m : List (Nat × α)} {b : Nat}, (∀ c ∈ m, b < c.1) → ∀ a ≤ b, memLookup m a = none := by
    intro m
    induction m with
    | nil => intros; rfl
    | cons d m ih =>
      intro b hb a ha
      have hd := hb d (by simp)
      simp only [memLookup]
      rw [if_neg (by omega)]
      exact ih (fun c hc => hb c (List.mem_cons_of_mem _ hc)) a ha
  induction m generalizing m' with
  | nil =>
    cases m' with
    | nil => rfl
    | cons d m' => have := e d.1; simp [memLookup] at this
  | cons d m ih =>
    obtain ⟨b, w⟩ := d
    obtain ⟨hb, hm⟩ := wf_cons.1 h
    cases m' with
    | nil => have := e b; simp [memLookup] at this
    | cons d' m' =>
      obtain ⟨b', w'⟩ := d'
      obtain ⟨hb', hm'⟩ := wf_cons.1 h'
      have hbb : b = b' := by
        rcases Nat.lt_trichotomy b b' with hlt | heq | hgt
        · have := e b
          simp only [memLookup, if_true] at this
          rw [if_neg (by omega), absent hb' b (by omega)] at this
          cases this
        · exact heq
        · have := e b'
          simp only [memLookup, if_true] at this
          rw [if_neg (by omega), absent hb b' (by omega)] at this
          cases this
      subst hbb
      have hw : w = w' := by have := e b; simpa [memLookup] using this
      subst hw
      rw [ih hm hm' (fun a => ?_)]
      by_cases hab : a = b
      · subst hab; rw [absent hb a (by omega), absent hb' a (by omega)]
      · have := e a; simpa [memLookup, hab] using this

/-! ### The words an interrupted decode forgets -/

theorem memLookup_forgetWritten (s : State) (m : List (Nat × Word)) (d : Nat) :
    memLookup (forgetWritten s m) d
      = (memLookup m d).map (fun v => if writtenByDecode s d then Config.unspecOut (s.draws + 1) d else v) := by
  induction m with
  | nil => rfl
  | cons c m ih =>
    obtain ⟨b, w⟩ := c
    simp only [forgetWritten, memLookup]
    split
    · next h => subst h; simp
    · exact ih

theorem mem_forgetWritten {s : State} {m : List (Nat × Word)} {c : Nat × Word} (h : c ∈ forgetWritten s m) :
    ∃ v, (c.1, v) ∈ m := by
  induction m with
  | nil => simp [forgetWritten] at h
  | cons d m ih =>
    obtain ⟨b, w⟩ := d
    simp only [forgetWritten, List.mem_cons] at h
    rcases h with rfl | h
    · exact ⟨w, by simp⟩
    · obtain ⟨v, hv⟩ := ih h
      exact ⟨v, List.mem_cons_of_mem _ hv⟩

/-- A reset keeps the canonical form. -/
theorem wf_forgetWritten (s : State) (m : List (Nat × Word)) (h : Memory.wf m = true) :
    Memory.wf (forgetWritten s m) = true := by
  induction m with
  | nil => rfl
  | cons d m ih =>
    obtain ⟨b, w⟩ := d
    obtain ⟨hb, hm⟩ := wf_cons.1 h
    refine wf_cons.2 ⟨fun c hc => ?_, ih hm⟩
    obtain ⟨v, hv⟩ := mem_forgetWritten hc
    exact hb (c.1, v) hv

/-! ### Bytes of IN -/

@[simp] theorem inBytes_length (s : State) (a n : Nat) : (inBytes s a n).length = n := by
  induction n generalizing a with
  | zero => rfl
  | succ n ih => simp [inBytes, ih]

theorem inBytes_getElem? (s : State) (a n i : Nat) (h : i < n) : (inBytes s a n)[i]? = some (inByte s (a + i)) := by
  induction n generalizing a i with
  | zero => omega
  | succ n ih =>
    cases i with
    | zero => rfl
    | succ i =>
      have := ih (a + 1) i (by omega)
      simp only [inBytes, List.getElem?_cons_succ, this]
      congr 2; omega

theorem inBytes_append (s : State) (a m n : Nat) : inBytes s a (m + n) = inBytes s a m ++ inBytes s (a + m) n := by
  induction m generalizing a with
  | zero => simp [inBytes]
  | succ m ih =>
    rw [show m + 1 + n = (m + n) + 1 by omega]
    simp only [inBytes, List.cons_append, ih, show a + 1 + m = a + (m + 1) by omega]

/-- The bytes of IN depend on nothing but the bytes of IN. -/
theorem inByte_congr {s t : State} (h : t.inMem = s.inMem) (a : Nat) : inByte t a = inByte s a := by
  simp [inByte, h]

theorem inBytes_congr {s t : State} {a n : Nat} (h : ∀ i, i < n → inByte t (a + i) = inByte s (a + i)) :
    inBytes t a n = inBytes s a n := by
  induction n generalizing a with
  | zero => rfl
  | succ n ih =>
    simp only [inBytes]
    rw [show inByte t a = inByte s a from h 0 (by omega), ih (fun i hi => ?_)]
    have := h (i + 1) (by omega)
    rwa [show a + (i + 1) = a + 1 + i by omega] at this

/-- MemRead answers exactly when its bound check passes, and then with the bytes of IN (R51). -/
theorem memRead_eq_some {s : State} {a n : Nat} {bs : List Byte} :
    memRead s a n = some bs ↔ a + n ≤ s.inLimit ∧ bs = inBytes s a n := by
  unfold memRead
  split
  · simp_all [eq_comm]
  · simp_all

theorem memRead_of_le {s : State} {a n : Nat} (h : a + n ≤ s.inLimit) : memRead s a n = some (inBytes s a n) := by
  simp [memRead, h]

theorem memRead_eq_none {s : State} {a n : Nat} : memRead s a n = none ↔ s.inLimit < a + n := by
  unfold memRead
  split
  · next h => simp; omega
  · next h => simp; omega

/-! ### Words of OUT -/

/-- A word of OUT after a write. -/
theorem outWord_outWrite (s : State) (d d' : Nat) (v : Word) :
    outWord (outWrite s d v) d' = if d' = d then v else outWord s d' := by
  simp only [outWord, outWrite, memLookup_memInsert]
  split <;> rfl

end Sys2Proof.Machine
end

