-- ==== Sys2Proof/Laws/Ops.lean ====
section
/-! SUPPORT. What each shared operation can do, said once: the START-time checks, the packet fetch, the sample sources, the
palette lookup, and the parts of the pixel operations. Provers cite these instead of unfolding the operations. -/

namespace Sys2Proof.Machine

/-! ### Raising -/

theorem Eff.raise_def {α : Type} (e : DecodeError) (s : State) : (Eff.raise e s : Eff α) = .raised (raiseError e s) := rfl

/-- An error code is never 0: 0 is "no error" (R200). -/
theorem code_ne_zero (e : DecodeError) : e.code ≠ 0 := by cases e <;> simp [DecodeError.code]

/-! ### Validate -/

theorem validateSizes_ok {s : State} {c d : Consts} :
    validateSizes s c = .ok d ↔
      d = c ∧ c.n ≤ s.params.maxPixels ∧ (c.model = .pal → c.base ≤ s.inLimit)
        ∧ (c.rle = false → c.base + c.ss * c.n ≤ s.inLimit) := by
  unfold validateSizes
  split
  · next h => simp; omega
  · next h =>
    split
    · next h2 => simp; intro _ _ h3; have := h3 h2.1; omega
    · next h2 =>
      split
      · next h3 => simp; intro _ _ _; exact ⟨h3.1, h3.2⟩
      · next h3 =>
        simp only [Except.ok.injEq, eq_comm (a := c)]
        constructor
        · intro hd
          refine ⟨hd, by omega, fun hm => ?_, fun hr => ?_⟩
          · by_contra hc; exact h2 ⟨hm, by omega⟩
          · by_contra hc; exact h3 ⟨hr, by omega⟩
        · exact fun hd => hd.1

/-- Validate answers constants exactly when every check of R208 passes, and then those of R36. -/
theorem validate_ok {s : State} {c : Consts} :
    validate s = .ok c ↔
      chordLegal s.chord = true ∧ 18 ≤ s.inLimit ∧
      ∃ rle model op, imageType s.typ = some (rle, model) ∧ decodeKey s.key = .ok op ∧ c = constsOf s rle model ∧
        c.n ≤ s.params.maxPixels ∧ (c.model = .pal → c.base ≤ s.inLimit)
        ∧ (c.rle = false → c.base + c.ss * c.n ≤ s.inLimit) := by
  unfold validate
  split
  · next h => simp [h]
  · next h =>
    split
    · next h2 => simp; omega
    · next h2 =>
      have hc : chordLegal s.chord = true := by simpa using h
      split
      · next h3 => simp [h3]
      · next rle model h3 =>
        split
        · next h4 => simp [h4]
        · next op h4 =>
          rw [validateSizes_ok]
          constructor
          · rintro ⟨rfl, h5⟩
            exact ⟨hc, by omega, rle, model, op, h3, h4, rfl, h5⟩
          · rintro ⟨-, -, rle', model', op', e1, -, rfl, h5⟩
            obtain ⟨rfl, rfl⟩ : rle = rle' ∧ model = model' := by
              rw [h3] at e1; simpa [Prod.mk.injEq] using e1
            exact ⟨rfl, h5⟩

/-- Validate reads only the registers, never the memories. -/
theorem validate_congr {s t : State} (hp : t.params = s.params) (hc : t.chord = s.chord) (hl : t.inLen = s.inLen)
    (h0 : t.hdr0 = s.hdr0) (h1 : t.hdr1 = s.hdr1) (h2 : t.hdr2 = s.hdr2) (hs : t.strict = s.strict) :
    validate t = validate s := by
  cases s; cases t
  simp only at hp hc hl h0 h1 h2 hs
  subst hp hc hl h0 h1 h2 hs
  rfl

/-! ### Packets -/

theorem packetCount_pos (h : Byte) : 1 ≤ packetCount h := by simp [packetCount]

theorem packetCount_le (h : Byte) : packetCount h ≤ 128 := by
  have := (h.extractLsb' 0 7).isLt
  simp only [packetCount]; omega

theorem decodePacket_eq (h : Byte) :
    decodePacket h = if h.getLsbD 7 then .run (packetCount h) else .raw (packetCount h) := rfl

/-- FetchPacket's first check (R101). -/
theorem fetchHeader_cases (s : State) :
    (s.inLimit ≤ s.inOffset ∧ fetchHeader s = .raised (raiseError (.truncatedInput .packet) s)) ∨
    (s.inOffset < s.inLimit ∧ fetchHeader s = .ok (inByte s s.inOffset) s) := by
  unfold fetchHeader
  split
  · next h => exact .inl ⟨by omega, rfl⟩
  · next h => exact .inr ⟨by omega, rfl⟩

/-- All that the rest of FetchPacket can do (R101, R102, R103). The READ guard never fires here. -/
theorem takePacket_cases (kind : PktKind) (count : Nat) (s : State) :
    (s.consts.n - s.position < count ∧ takePacket kind count s = .raised (raiseError .packetOverrun s)) ∨
    (count ≤ s.consts.n - s.position ∧ s.inLimit < s.inOffset + 1 + packetBody kind count s.consts.ss ∧
      takePacket kind count s = .raised (raiseError (.truncatedInput .packet) s)) ∨
    (count ≤ s.consts.n - s.position ∧ kind = .run ∧ s.inOffset + 1 + s.consts.ss ≤ s.inLimit ∧
      takePacket kind count s = .ok () { s with
        inPtr := s.inPtr + 1 + BitVec.ofNat 32 s.consts.ss, pktRem := count, pktKind := .run
        slatch := inBytes s (s.inOffset + 1) s.consts.ss }) ∨
    (count ≤ s.consts.n - s.position ∧ kind = .raw ∧ s.inOffset + 1 + count * s.consts.ss ≤ s.inLimit ∧
      takePacket kind count s = .ok () { s with inPtr := s.inPtr + 1, pktRem := count, pktKind := .raw }) := by
  unfold takePacket
  split
  · next h => exact .inl ⟨h, rfl⟩
  · next h =>
    right
    split
    · next h2 => exact .inl ⟨by omega, h2, rfl⟩
    · next h2 =>
      right
      cases kind with
      | run =>
        have hb : s.inOffset + 1 + s.consts.ss ≤ s.inLimit := by simpa [packetBody] using h2
        refine .inl ⟨by omega, rfl, hb, ?_⟩
        simp [memRead_of_le hb]
      | raw =>
        have hb : s.inOffset + 1 + count * s.consts.ss ≤ s.inLimit := by simpa [packetBody] using h2
        exact .inr ⟨by omega, rfl, hb, rfl⟩

/-- FetchPacket is the header, then the rest for the header's kind and count (R101). -/
theorem fetchPacket_of_header {s : State} (h : s.inOffset < s.inLimit) :
    fetchPacket s = takePacket (if (inByte s s.inOffset).getLsbD 7 then .run else .raw)
      (packetCount (inByte s s.inOffset)) s := by
  rcases fetchHeader_cases s with ⟨h2, _⟩ | ⟨_, h2⟩
  · omega
  · simp only [fetchPacket, h2]; split <;> rfl

/-! ### Samples -/

/-- All that a delivery can do (R100). -/
theorem deliver_cases (s : State) :
    (s.pktKind = .run ∧ deliver s = .ok s.slatch { s with pktRem := s.pktRem - 1 }) ∨
    (s.pktKind = .raw ∧ s.inOffset + s.consts.ss ≤ s.inLimit ∧
      deliver s = .ok (inBytes s s.inOffset s.consts.ss)
        { s with inPtr := s.inPtr + BitVec.ofNat 32 s.consts.ss, pktRem := s.pktRem - 1 }) ∨
    (s.pktKind = .raw ∧ s.inLimit < s.inOffset + s.consts.ss ∧
      deliver s = .raised (raiseError (.truncatedInput .read) s)) := by
  unfold deliver
  cases hk : s.pktKind with
  | run => exact .inl ⟨rfl, rfl⟩
  | raw =>
    right
    by_cases h : s.inOffset + s.consts.ss ≤ s.inLimit
    · exact .inl ⟨rfl, h, by simp [memRead_of_le h]⟩
    · refine .inr ⟨rfl, by omega, ?_⟩
      simp [memRead_eq_none.2 (show s.inLimit < s.inOffset + s.consts.ss by omega), Eff.raise]

/-- All that an uncompressed read can do (R109). -/
theorem rawSample_cases (s : State) :
    (s.consts.base + s.position * s.consts.ss + s.consts.ss ≤ s.inLimit ∧
      rawSample s = .ok (inBytes s (s.consts.base + s.position * s.consts.ss) s.consts.ss)
        { s with inPtr := BitVec.ofNat 32 (s.consts.base + (s.position + 1) * s.consts.ss) }) ∨
    (s.inLimit < s.consts.base + s.position * s.consts.ss + s.consts.ss ∧
      rawSample s = .raised (raiseError (.truncatedInput .read) s)) := by
  unfold rawSample
  by_cases h : s.consts.base + s.position * s.consts.ss + s.consts.ss ≤ s.inLimit
  · exact .inl ⟨h, by simp [memRead_of_le h]⟩
  · refine .inr ⟨by omega, ?_⟩
    rw [memRead_eq_none.2 (by omega)]; rfl

theorem nextSample_flat (s : State) : nextSample false s = rawSample s := rfl

theorem nextSample_packet {s : State} (h : s.pktRem ≠ 0) : nextSample true s = deliver s := by
  simp [nextSample, h]

theorem nextSample_fetch {s : State} (h : s.pktRem = 0) :
    nextSample true s = (match fetchPacket s with
      | .raised s' => .raised s'
      | .ok _ s' => deliver s') := by
  cases hf : fetchPacket s <;> simp [nextSample, h, hf]

/-! ### The palette -/

/-- All that a lookup can do (R135). -/
theorem palLookup_cases (index : Byte) (s : State) :
    ((0 ≤ paletteOffset s index ∧ paletteOffset s index < (s.cmapLen : Int)) ∧
      18 + s.consts.eb * (paletteOffset s index).toNat + s.consts.eb ≤ s.inLimit ∧
      palLookup index s = .ok (some (inBytes s (18 + s.consts.eb * (paletteOffset s index).toNat) s.consts.eb)) s) ∨
    ((0 ≤ paletteOffset s index ∧ paletteOffset s index < (s.cmapLen : Int)) ∧
      s.inLimit < 18 + s.consts.eb * (paletteOffset s index).toNat + s.consts.eb ∧
      palLookup index s = .raised (raiseError (.truncatedInput .read) s)) ∨
    (¬(0 ≤ paletteOffset s index ∧ paletteOffset s index < (s.cmapLen : Int)) ∧ palLookup index s = .ok none s) := by
  unfold palLookup
  split
  · next h =>
    by_cases h2 : 18 + s.consts.eb * (paletteOffset s index).toNat + s.consts.eb ≤ s.inLimit
    · exact .inl ⟨h, h2, by simp [memRead_of_le h2]⟩
    · refine .inr (.inl ⟨h, by omega, ?_⟩)
      rw [memRead_eq_none.2 (by omega)]; rfl
  · next h => exact .inr (.inr ⟨h, rfl⟩)

/-! ### Results of the parts -/

@[simp] theorem packetResult_ok (s : State) : packetResult (.ok () s) = .next s := rfl
@[simp] theorem packetResult_raised (s : State) : packetResult (.raised s) = .next s := rfl

@[simp] theorem resolved_some (c : Rgba) (s : State) : resolved (some c) s = .next (latchPixel c s) := rfl
@[simp] theorem resolved_none (s : State) : resolved none s = .fault .sampleShape := rfl

theorem directPixel_ok {rle : Bool} {f : List Byte → Option Rgba} {s s' : State} {smp : List Byte}
    (h : nextSample rle s = .ok smp s') : directPixel rle f s = resolved (f smp) s' := by simp [directPixel, h]

theorem directPixel_raised {rle : Bool} {f : List Byte → Option Rgba} {s s' : State}
    (h : nextSample rle s = .raised s') : directPixel rle f s = .next s' := by simp [directPixel, h]

theorem palettePixel_ok {rle : Bool} {f : List Byte → Option Rgba} {s s' : State} {index : Byte}
    (h : nextSample rle s = .ok [index] s') : palettePixel rle f s = palettePixelOf f index s' := by
  simp [palettePixel, h]

theorem palettePixel_raised {rle : Bool} {f : List Byte → Option Rgba} {s s' : State}
    (h : nextSample rle s = .raised s') : palettePixel rle f s = .next s' := by simp [palettePixel, h]

/-- The pixel write goes on exactly below N (R66, R167). -/
theorem writePixel_cases (d : Nat) (s : State) :
    (d < s.consts.n ∧ writePixel d s = .next (advancePixel (outWrite s d s.pixel))) ∨
    (s.consts.n ≤ d ∧ writePixel d s = .fault .noOutWord) := by
  unfold writePixel
  split
  · next h => exact .inl ⟨h, rfl⟩
  · next h => exact .inr ⟨by omega, rfl⟩

/-- The step of PIX_COUNT and the end after the last pixel (R167). -/
theorem advancePixel_cases (s : State) :
    (s.position + 1 = s.consts.n ∧
      advancePixel s = setDone { s with pixCount := s.pixCount + 1, pixelReady := false }) ∨
    (s.position + 1 ≠ s.consts.n ∧ advancePixel s = { s with pixCount := s.pixCount + 1, pixelReady := false }) := by
  unfold advancePixel
  by_cases h : s.position + 1 = s.consts.n
  · exact .inl ⟨h, by simp [h]⟩
  · exact .inr ⟨h, by simp [h]⟩

/-! ### The general mapping agrees with the four rules (R162) -/

theorem dest_BL (w h k : Nat) : dest true false w h k = destBL w h k := rfl
theorem dest_BR (w h k : Nat) : dest true true w h k = destBR w h k := rfl
theorem dest_TL (w h k : Nat) : dest false false w h k = destTL w k := rfl
theorem dest_TR (w h k : Nat) : dest false true w h k = destTR w k := rfl

/-! ### CTRL writes -/

/-- A CTRL write while BUSY has no effect (R186). -/
theorem ctrlWrite_busy {s : State} (h : s.busy = true) (a b c d : Bool) : ctrlWrite a b c d s = s := by
  simp [ctrlWrite, h]

/-- A CTRL write while idle: STRICT, the preset, then START (R180). -/
theorem ctrlWrite_idle {s : State} (h : s.busy = false) (a b c d : Bool) :
    ctrlWrite a b c d s =
      if a then start (loadPreset c d { s with strict := b }) else loadPreset c d { s with strict := b } := by
  simp [ctrlWrite, h]

/-- All that Start can do (R181). -/
theorem start_cases (s : State) :
    (∃ e, validate (headerLatch (startEntry s)) = .error e ∧ start s = raiseError e (headerLatch (startEntry s))) ∨
    (∃ c, validate (headerLatch (startEntry s)) = .ok c ∧
      start s = beginStream c (headerLatch (startEntry s))) := by
  unfold start
  cases h : validate (headerLatch (startEntry s)) with
  | error e => exact .inl ⟨e, rfl, by simp [h]⟩
  | ok c => exact .inr ⟨c, rfl, by simp [h]⟩

end Sys2Proof.Machine
end

