-- ==== Sys2Proof/Laws/Step.lean ====
section
/-! SUPPORT. What a step does, by what comes next: one lemma per part of a pixel step and per host event. Invariants and
whole-machine rules are derived from these. -/

namespace Sys2Proof.Machine

@[simp] theorem perform_instr (i : Instr) (s : State) : perform (.instr i s) = exec i s := rfl
@[simp] theorem perform_result (r : Result) : perform (.result r) = r := rfl

theorem withQueue_self {s : State} {q : List HostEvent} (h : s.hostQ = q) : s.withQueue q = s := by
  subst h; rfl

/-! ### The block's turn -/

theorem step_block {s : State} {q : List HostEvent} (h : BlockMoves s q) :
    step s = perform (fetchBlock (s.withQueue q)) := by
  rcases h with ⟨h, rfl⟩ | h
  · rw [withQueue_self h]; simp [step, fetch, h]
  · simp only [step, fetch, h]; rfl

theorem step_idle {s : State} {q : List HostEvent} (h : BlockMoves s q) (hb : s.busy = false) :
    step s = .next (s.withQueue q) := by
  simp [step_block h, fetchBlock, hb]

theorem step_drawn {s : State} {q : List HostEvent} (h : BlockMoves s q) (hb : s.busy = true) (hp : s.phase = .stream)
    (ht : s.tainted = true) : step s = .next (drawResult (s.withQueue q)) := by
  simp [step_block h, fetchBlock, hb, hp, ht]

/-! ### The bounds of a drawn outcome -/

theorem le_between (lo hi draw : Nat) : lo ≤ between lo hi draw := Nat.le_add_right _ _

theorem between_le {lo hi : Nat} (h : lo ≤ hi) (draw : Nat) : between lo hi draw ≤ hi := by
  have := Nat.mod_lt draw (show 0 < hi - lo + 1 by omega)
  simp only [between]
  omega

/-- The pixels a drawn decode has counted: no fewer than before, N with DONE, fewer with an error (R32). -/
theorem drawnPixCount_bounds {s : State} (h : s.position < s.consts.n) :
    s.position ≤ drawnPixCount s ∧ (Config.drawCode s.draws = 0 → drawnPixCount s = s.consts.n) ∧
      (Config.drawCode s.draws ≠ 0 → drawnPixCount s < s.consts.n) := by
  unfold drawnPixCount
  split
  · next hc => exact ⟨by omega, fun _ => rfl, fun hn => absurd hc hn⟩
  · next hc =>
    have h1 := between_le (show s.position ≤ s.consts.n - 1 by omega) (Config.drawPixCount s.draws)
    exact ⟨le_between _ _ _, fun hz => absurd hz hc, fun _ => by omega⟩

/-- The input pointer of a drawn decode: no lower than before, and at most IN_LEN (R22). -/
theorem drawnInPtr_bounds {s : State} (h : s.inOffset ≤ s.inLimit) :
    s.inOffset ≤ drawnInPtr s ∧ drawnInPtr s ≤ s.inLimit :=
  ⟨le_between _ _ _, between_le h _⟩

/-! ### The parts of a pixel step -/

theorem step_origin {s : State} {q : List HostEvent} (h : BlockMoves s q) (hd : Decoding s)
    (hr : s.pixelReady = true) : step s = exec (decodeOrigin s.desc) (s.withQueue q) := by
  obtain ⟨hb, hp, ht⟩ := hd
  simp [step_block h, fetchBlock, hb, hp, ht, hr]; rfl

theorem step_header {s : State} {q : List HostEvent} (h : BlockMoves s q) (hd : Decoding s)
    (hr : s.pixelReady = false) (hl : s.consts.rle = true) (hk : s.pktRem = 0) (hi : s.inOffset < s.inLimit) :
    step s = exec (decodePacket (inByte s s.inOffset)) (s.withQueue q) := by
  obtain ⟨hb, hp, ht⟩ := hd
  have hf : fetchHeader (s.withQueue q) = .ok (inByte s s.inOffset) (s.withQueue q) := by
    rcases fetchHeader_cases (s.withQueue q) with ⟨h2, _⟩ | ⟨_, h2⟩
    · exact absurd hi (by simpa [State.inLimit, State.inOffset] using h2)
    · exact h2
  simp [step_block h, fetchBlock, hb, hp, ht, hr, hl, hk, fetchPacketHeader, hf]

theorem step_noHeader {s : State} {q : List HostEvent} (h : BlockMoves s q) (hd : Decoding s)
    (hr : s.pixelReady = false) (hl : s.consts.rle = true) (hk : s.pktRem = 0) (hi : s.inLimit ≤ s.inOffset) :
    step s = .next (raiseError (.truncatedInput .packet) (s.withQueue q)) := by
  obtain ⟨hb, hp, ht⟩ := hd
  have hf : fetchHeader (s.withQueue q) = .raised (raiseError (.truncatedInput .packet) (s.withQueue q)) := by
    rcases fetchHeader_cases (s.withQueue q) with ⟨_, h2⟩ | ⟨h2, _⟩
    · exact h2
    · exact absurd hi (by simpa [State.inLimit, State.inOffset] using h2)
  simp [step_block h, fetchBlock, hb, hp, ht, hr, hl, hk, fetchPacketHeader, hf]

theorem step_key {s : State} {q : List HostEvent} {i : Instr} (h : BlockMoves s q) (hd : Decoding s)
    (hr : s.pixelReady = false) (hl : s.consts.rle = false ∨ s.pktRem ≠ 0) (hk : decodeKey s.key = .ok i) :
    step s = exec i (s.withQueue q) := by
  obtain ⟨hb, hp, ht⟩ := hd
  have hk' : decodeKey (s.withQueue q).key = .ok i := hk
  have hl' : ¬(s.consts.rle = true ∧ s.pktRem = 0) := by rcases hl with h | h <;> simp [h]
  simp only [step_block h, fetchBlock, withQueue_busy, withQueue_phase, withQueue_tainted, withQueue_pixelReady,
    withQueue_consts, withQueue_pktRem, hb, hp, ht, hr, if_neg hl', fetchKey, hk']
  simp

/-! ### The host's turn -/

theorem step_ctrl {s : State} {q : List HostEvent} {w : Word} {i : Instr} (h : s.hostQ = .writeReg 0 w :: q)
    (hw : decodeCtrl w = .ok i) : step s = exec i (s.withQueue q) := by
  simp only [step, fetch, h, fetchRegWrite, fetchCtrl, hw, if_true]; rfl

theorem step_ctrlNoCommand {s : State} {q : List HostEvent} {w : Word} {r : Reject}
    (h : s.hostQ = .writeReg 0 w :: q) (hw : decodeCtrl w = .error r) :
    step s = .next (ctrlWriteNoCommand w (s.withQueue q)) := by
  simp only [step, fetch, h, fetchRegWrite, fetchCtrl, hw, if_true]; rfl

theorem step_writeReg {s : State} {q : List HostEvent} {offset : Nat} {w : Word}
    (h : s.hostQ = .writeReg offset w :: q) (ho : offset ≠ 0) : step s = .next (regWrite (s.withQueue q) offset w) := by
  simp only [step, fetch, h, fetchRegWrite, if_neg ho]; rfl

theorem step_readReg {s : State} {q : List HostEvent} {offset : Nat} (h : s.hostQ = .readReg offset :: q) :
    step s = .next (hostReadReg offset (s.withQueue q)) := by
  simp only [step, fetch, h]; rfl

theorem step_writeIn {s : State} {q : List HostEvent} {a : Nat} {b : Byte} (h : s.hostQ = .writeIn a b :: q) :
    step s = hostWriteIn a b (s.withQueue q) := by
  simp only [step, fetch, h]; rfl

theorem step_readIn {s : State} {q : List HostEvent} {a : Nat} (h : s.hostQ = .readIn a :: q) :
    step s = hostReadIn a (s.withQueue q) := by
  simp only [step, fetch, h]; rfl

theorem step_readOut {s : State} {q : List HostEvent} {d : Nat} (h : s.hostQ = .readOut d :: q) :
    step s = hostReadOut d (s.withQueue q) := by
  simp only [step, fetch, h]; rfl

theorem step_readOutByte {s : State} {q : List HostEvent} {a : Nat} (h : s.hostQ = .readOutByte a :: q) :
    step s = hostReadOutByte a (s.withQueue q) := by
  simp only [step, fetch, h]; rfl

theorem step_reset {s : State} {q : List HostEvent} (h : s.hostQ = .reset :: q) :
    step s = .next (resetBlock (s.withQueue q)) := by
  simp only [step, fetch, h]; rfl

/-- A CTRL word's instruction is the CTRL write of its four action bits (R80, R180). -/
theorem exec_decodeCtrl {w : Word} {i : Instr} (h : decodeCtrl w = .ok i) (s : State) :
    exec i s = .next (ctrlWrite (w.getLsbD 0) (w.getLsbD 1) (w.getLsbD 2) (w.getLsbD 3) s) := by
  revert h
  simp only [decodeCtrl]
  cases w.getLsbD 0 <;> cases w.getLsbD 1 <;> cases w.getLsbD 2 <;> cases w.getLsbD 3 <;> intro h <;> cases h <;> rfl

/-- A CTRL word without an instruction has no START bit (R80). -/
theorem decodeCtrl_error {w : Word} {r : Reject} (h : decodeCtrl w = .error r) : w.getLsbD 0 = false := by
  revert h
  simp only [decodeCtrl]
  cases w.getLsbD 0 <;> cases w.getLsbD 1 <;> cases w.getLsbD 2 <;> cases w.getLsbD 3 <;> intro h <;> cases h <;> rfl

/-- A host write to CTRL, whatever its word (R80, R180). -/
theorem step_ctrlWrite {s : State} {q : List HostEvent} {w : Word} (h : s.hostQ = .writeReg 0 w :: q) :
    step s = .next (ctrlWrite (w.getLsbD 0) (w.getLsbD 1) (w.getLsbD 2) (w.getLsbD 3) (s.withQueue q)) := by
  cases hw : decodeCtrl w with
  | ok i => rw [step_ctrl h hw, exec_decodeCtrl hw]
  | error r => rw [step_ctrlNoCommand h hw, ctrlWriteNoCommand, decodeCtrl_error hw]

/-! ### The pixel operations, once for all six -/

/-- What a pixel operation answers: the part after NextSample (R130). -/
def pixelRest (op : Instr) (smp : List Byte) (s : State) : Result :=
  match op, smp with
  | .tc24 _ _, smp => resolved (bgr smp) s
  | .tc32 _ _, smp => resolved (bgra smp) s
  | .gs8 _ _, smp => resolved (gray smp) s
  | .gs16 _ _, smp => resolved (grayAlpha smp) s
  | .pal24 _, [index] => palettePixelOf bgr index s
  | .pal32 _, [index] => palettePixelOf bgra index s
  | _, _ => .fault .sampleShape

/-- A pixel operation is NextSample, then the rest (R130, R167). -/
theorem exec_key {op : Instr} (h : op.slot = .key) (s : State) :
    exec op s = match nextSample (keyRle op) s with
      | .raised t => .next t
      | .ok smp t => pixelRest op smp t := by
  cases op <;> simp [Instr.slot] at h <;> simp only [exec, execTc24, execTc32, execGs8, execGs16, execPal24, execPal32, directPixel, palettePixel, keyRle, pixelRest]
  all_goals
    cases nextSample _ s with
    | raised t => rfl
    | ok smp t =>
      first
        | rfl
        | (match smp with
            | [] => rfl
            | [_] => rfl
            | _ :: _ :: _ => rfl)

end Sys2Proof.Machine
end

