-- ==== Sys2Proof/Laws/Decode.lean ====
section
/-! SUPPORT. The laws of the decoder: the fields of a key, the legal image types and keys, and what a legal key says of the
sizes of its samples. -/

namespace Sys2Proof

/-- The bits of a key, by its three bytes (R75). -/
theorem getLsbD_mkKey (c d t : Byte) (i : Nat) : (mkKey c d t).getLsbD i =
    if i < 8 then t.getLsbD i else if i < 16 then d.getLsbD (i - 8) else c.getLsbD (i - 16) := by
  change (((c ++ d : BitVec (8 + 8)) ++ t : BitVec (8 + 8 + 8))).getLsbD i = _
  rw [BitVec.getLsbD_append, BitVec.getLsbD_append]
  split
  · rfl
  · split
    · rw [if_pos (by omega)]
    · rw [if_neg (by omega), show i - 8 - 8 = i - 16 by omega]

@[simp] theorem keyType_mkKey (c d t : Byte) : keyType (mkKey c d t) = t := by
  simp only [keyType]
  ext i hi
  rw [BitVec.getElem_extractLsb', getLsbD_mkKey]
  simp [hi]

@[simp] theorem keyDepth_mkKey (c d t : Byte) : keyDepth (mkKey c d t) = d := by
  simp only [keyDepth]
  ext i hi
  rw [BitVec.getElem_extractLsb', getLsbD_mkKey, if_neg (by omega), if_pos (by omega)]
  simp [hi]

@[simp] theorem keyCmapDepth_mkKey (c d t : Byte) : keyCmapDepth (mkKey c d t) = c := by
  simp only [keyCmapDepth]
  ext i hi
  rw [BitVec.getElem_extractLsb', getLsbD_mkKey, if_neg (by omega), if_neg (by omega)]
  simp [hi]

/-- A key is its three bytes (R75). -/
theorem mkKey_fields (key : Key) : mkKey (keyCmapDepth key) (keyDepth key) (keyType key) = key := by
  apply BitVec.eq_of_getLsbD_eq
  intro i hi
  rw [getLsbD_mkKey]
  simp only [keyCmapDepth, keyDepth, keyType, BitVec.getLsbD_extractLsb']
  split
  · simp [*]
  · split
    · rw [show 8 + (i - 8) = i by omega]; simp; omega
    · rw [show 16 + (i - 16) = i by omega]; simp; omega

/-- The legal image types, by code (R74). -/
theorem imageType_eq_some {t : Byte} {rle : Bool} {m : ColorModel} :
    imageType t = some (rle, m) ↔ t = encodeType rle m := by
  constructor
  · intro h
    simp only [imageType] at h
    repeat' split at h
    all_goals first | (cases h; assumption) | cases h
  · rintro rfl
    cases rle <;> cases m <;> rfl

/-- What a legal key's operation says of its fields (R75). -/
theorem decodeKey_ok {key : Key} {op : Instr} :
    decodeKey key = .ok op ↔
      (∃ rle, op = .tc24 rle (keyCmapDepth key) ∧ keyType key = encodeType rle .tc ∧ keyDepth key = 24#8) ∨
      (∃ rle, op = .tc32 rle (keyCmapDepth key) ∧ keyType key = encodeType rle .tc ∧ keyDepth key = 32#8) ∨
      (∃ rle, op = .gs8 rle (keyCmapDepth key) ∧ keyType key = encodeType rle .gs ∧ keyDepth key = 8#8) ∨
      (∃ rle, op = .gs16 rle (keyCmapDepth key) ∧ keyType key = encodeType rle .gs ∧ keyDepth key = 16#8) ∨
      (∃ rle, op = .pal24 rle ∧ keyType key = encodeType rle .pal ∧ keyDepth key = 8#8 ∧ keyCmapDepth key = 24#8) ∨
      (∃ rle, op = .pal32 rle ∧ keyType key = encodeType rle .pal ∧ keyDepth key = 8#8 ∧ keyCmapDepth key = 32#8) := by
  constructor
  · intro h
    simp only [decodeKey] at h
    split at h
    · cases h
    all_goals
      next rle h1 =>
        have ht := imageType_eq_some.1 h1
        split at h
        · next h2 => cases h; simp [ht, h2]
        · split at h
          · next h2 => cases h; simp [ht, h2]
          · cases h
  · rintro (⟨rle, rfl, h1, h2⟩ | ⟨rle, rfl, h1, h2⟩ | ⟨rle, rfl, h1, h2⟩ | ⟨rle, rfl, h1, h2⟩ | ⟨rle, rfl, h1, h2, h3⟩
      | ⟨rle, rfl, h1, h2, h3⟩) <;>
      (simp only [decodeKey, imageType_eq_some.2 h1]; simp [*])

/-- A legal key's image type is its operation's (R74, R75). -/
theorem decodeKey_imageType {key : Key} {op : Instr} (h : decodeKey key = .ok op) :
    imageType (keyType key) = some (Machine.keyRle op, Machine.keyModel op) ∧ op.slot = .key := by
  rcases decodeKey_ok.1 h with ⟨rle, rfl, h1, _⟩ | ⟨rle, rfl, h1, _⟩ | ⟨rle, rfl, h1, _⟩ | ⟨rle, rfl, h1, _⟩ |
    ⟨rle, rfl, h1, _⟩ | ⟨rle, rfl, h1, _⟩ <;> exact ⟨imageType_eq_some.2 h1, rfl⟩

/-- The sample size in bytes of a format key's operation (R75). -/
def keySampleBytes : Instr → Nat
  | .tc24 _ _ => 3
  | .tc32 _ _ => 4
  | .gs8 _ _ => 1
  | .gs16 _ _ => 2
  | _ => 1

/-- The palette entry size in bytes of a palette operation (R136, R137). -/
def keyEntryBytes : Instr → Nat
  | .pal24 _ => 3
  | .pal32 _ => 4
  | _ => 0

/-- A legal key's depths give the sample size of its operation, and the entry size of a palette operation (R36, R75). -/
theorem decodeKey_sizes {key : Key} {op : Instr} (h : decodeKey key = .ok op) :
    (keyDepth key).toNat / 8 = keySampleBytes op ∧
      (Machine.keyModel op = .pal → (keyCmapDepth key).toNat / 8 = keyEntryBytes op) := by
  rcases decodeKey_ok.1 h with ⟨rle, rfl, _, h2⟩ | ⟨rle, rfl, _, h2⟩ | ⟨rle, rfl, _, h2⟩ | ⟨rle, rfl, _, h2⟩ |
    ⟨rle, rfl, _, h2, h3⟩ | ⟨rle, rfl, _, h2, h3⟩ <;> simp [keySampleBytes, Machine.keyModel, keyEntryBytes, *]

end Sys2Proof
end

