-- ==== Sys2Proof/Laws/Cases.lean ====
section
/-! SUPPORT. What a step can do, said once: everything the block's turn can give, and everything a step can give, by what
came next. Also what the decode constants of a running decode say, and where a destination lies. -/

namespace Sys2Proof.Machine

/-! ### The decode constants -/

/-- While BUSY the constants are those of the latched header, and the checks of R208 hold of them (R36). -/
theorem streaming_consts {s : State} (h : s.Streaming) : ∃ op, decodeKey s.key = .ok op ∧ keyRle op = s.consts.rle ∧
    s.consts.ss = keySampleBytes op ∧ (keyModel op = .pal → s.consts.eb = keyEntryBytes op) ∧
    s.consts = constsOf s (keyRle op) (keyModel op) ∧ s.consts.n ≤ s.params.maxPixels ∧
    (keyModel op = .pal → s.consts.base ≤ s.inLimit) ∧
    (s.consts.rle = false → s.consts.base + s.consts.ss * s.consts.n ≤ s.inLimit) := by
  obtain ⟨-, -, rle, model, op, h1, h2, h3, h4, h5, h6⟩ := validate_ok.1 h.valid
  obtain ⟨h7, -⟩ := decodeKey_imageType h2
  have h9 := decodeKey_sizes h2
  simp only [State.key, keyType_mkKey, keyDepth_mkKey, keyCmapDepth_mkKey] at h7 h9
  rw [h1] at h7
  obtain ⟨rfl, rfl⟩ : rle = keyRle op ∧ model = keyModel op := by simpa using h7
  exact ⟨op, h2, by rw [h3]; rfl, by rw [h3]; exact h9.1, fun hp => by rw [h3]; exact h9.2 hp, h3, h4,
    fun hp => h5 (by rw [h3]; exact hp), h6⟩

/-- N fits PIX_COUNT (R32). -/
theorem pixels_lt (s : State) : s.width * s.height < 2 ^ 32 := by
  have h1 := (s.hdr1.extractLsb' 0 16).isLt
  have h2 := (s.hdr1.extractLsb' 16 16).isLt
  simp only [State.width, State.height]
  calc _ ≤ 65535 * 65535 := Nat.mul_le_mul (by omega) (by omega)
    _ < _ := by norm_num

/-! ### Destinations -/

/-- A destination of a storage position of the image lies in the image (R66). -/
theorem dest_lt {flipV flipH : Bool} {w h k : Nat} (hk : k < w * h) : dest flipV flipH w h k < w * h := by
  have hw : 0 < w := by
    rcases Nat.eq_zero_or_pos w with rfl | h
    · simp at hk
    · exact h
  have hi : k / w < h := Nat.div_lt_of_lt_mul hk
  have hj : k % w < w := Nat.mod_lt _ hw
  unfold dest storedRow storedCol
  generalize k / w = i at *
  generalize k % w = j at *
  have key : ∀ r c, r < h → c < w → r * w + c < w * h := fun r c hr hc => by
    have : (r + 1) * w ≤ h * w := Nat.mul_le_mul_right _ hr
    rw [Nat.add_mul, Nat.mul_comm h] at this
    omega
  apply key
  · split <;> omega
  · split <;> omega

/-- The four rows of the origin descriptor are one pixel write at the general mapping (R161, R162). -/
theorem exec_decodeOrigin (d : Byte) (s : State) :
    exec (decodeOrigin d) s = writePixel (dest (!d.getLsbD 5) (d.getLsbD 4) s.width s.height s.position) s := by
  unfold decodeOrigin
  cases d.getLsbD 5 <;> cases d.getLsbD 4 <;> rfl

/-- The step of PIX_COUNT as one update (R167). -/
theorem advancePixel_eq (s : State) : advancePixel s = { s with
    pixCount := s.pixCount + 1, pixelReady := false
    busy := s.busy && !decide (s.position + 1 = s.consts.n)
    done := s.done || decide (s.position + 1 = s.consts.n)
    phase := if s.position + 1 = s.consts.n then .idle else s.phase } := by
  rcases advancePixel_cases s with ⟨h, e⟩ | ⟨h, e⟩
  · rw [e]; simp [h]; rfl
  · rw [e]; simp [h]

/-- The header latch writes HDR0 to HDR2 and nothing else (R35). -/
theorem headerLatch_eq (s : State) : ∃ a b c, headerLatch s = { s with hdr0 := a, hdr1 := b, hdr2 := c } := by
  unfold headerLatch
  split <;> exact ⟨_, _, _, rfl⟩

/-! ### Samples and packets -/

/-- A state with another input pointer and packet state: all that taking a packet or a sample writes. -/
def State.withPacket (s : State) (ptr : Word) (rem : Nat) (kind : PktKind) (latch : List Byte) : State :=
  { s with inPtr := ptr, pktRem := rem, pktKind := kind, slatch := latch }

theorem takePacket_shape (kind : PktKind) (count : Nat) (s : State) :
    (∃ e, e ≠ .truncatedInput .read ∧ takePacket kind count s = .raised (raiseError e s)) ∨
    ∃ p r k l, takePacket kind count s = .ok () (s.withPacket p r k l) := by
  rcases takePacket_cases kind count s with ⟨-, e⟩ | ⟨-, -, e⟩ | ⟨-, -, -, e⟩ | ⟨-, -, -, e⟩
  · exact .inl ⟨_, by decide, e⟩
  · exact .inl ⟨_, by decide, e⟩
  · exact .inr ⟨_, _, _, _, e⟩
  · exact .inr ⟨_, _, _, s.slatch, e⟩

theorem fetchPacket_shape (s : State) :
    (∃ e, fetchPacket s = .raised (raiseError e s)) ∨ ∃ p r k l, fetchPacket s = .ok () (s.withPacket p r k l) := by
  rcases fetchHeader_cases s with ⟨_, e⟩ | ⟨h, -⟩
  · exact .inl ⟨.truncatedInput .packet, by simp only [fetchPacket, e]⟩
  · rw [fetchPacket_of_header h]
    rcases takePacket_shape _ _ s with ⟨e, -, h⟩ | h
    · exact .inl ⟨_, h⟩
    · exact .inr h

theorem deliver_shape (s : State) :
    (∃ e, deliver s = .raised (raiseError e s)) ∨
    ∃ smp p r, deliver s = .ok smp (s.withPacket p r s.pktKind s.slatch) := by
  rcases deliver_cases s with ⟨-, e⟩ | ⟨-, -, e⟩ | ⟨-, -, e⟩
  · exact .inr ⟨_, _, _, e⟩
  · exact .inr ⟨_, _, _, e⟩
  · exact .inl ⟨_, e⟩

/-- NextSample writes the input pointer and the packet state, and then gives a sample or raises (R100). -/
theorem nextSample_shape (rle : Bool) (s : State) : ∃ p r k l,
    (∃ e, nextSample rle s = .raised (raiseError e (s.withPacket p r k l))) ∨
    ∃ smp, nextSample rle s = .ok smp (s.withPacket p r k l) := by
  cases rle with
  | false =>
    rw [nextSample_flat]
    rcases rawSample_cases s with ⟨-, e⟩ | ⟨-, e⟩
    · exact ⟨_, _, _, _, .inr ⟨_, e⟩⟩
    · exact ⟨s.inPtr, s.pktRem, s.pktKind, s.slatch, .inl ⟨_, e⟩⟩
  | true =>
    by_cases h : s.pktRem = 0
    · rw [nextSample_fetch h]
      rcases fetchPacket_shape s with ⟨e, he⟩ | ⟨p, r, k, l, he⟩
      · rw [he]
        exact ⟨s.inPtr, s.pktRem, s.pktKind, s.slatch, .inl ⟨_, rfl⟩⟩
      · rw [he]
        dsimp only
        rcases deliver_shape (s.withPacket p r k l) with ⟨e, he⟩ | ⟨smp, p', r', he⟩
        · rw [he]; exact ⟨_, _, _, _, .inl ⟨_, rfl⟩⟩
        · rw [he]; exact ⟨_, _, _, _, .inr ⟨_, rfl⟩⟩
    · rw [nextSample_packet h]
      rcases deliver_shape s with ⟨e, he⟩ | ⟨smp, p, r, he⟩
      · rw [he]; exact ⟨s.inPtr, s.pktRem, s.pktKind, s.slatch, .inl ⟨_, rfl⟩⟩
      · rw [he]; exact ⟨_, _, _, _, .inr ⟨_, rfl⟩⟩

theorem palettePixelOf_shape {f : List Byte → Option Rgba} {index : Byte} {s t : State}
    (h : palettePixelOf f index s = .next t) :
    (∃ e, t = raiseError e s) ∨
    ∃ c oor, (oor = s.palOor ∨ oor = true) ∧ t = latchPixel c { s with palOor := oor } := by
  unfold palettePixelOf at h
  rcases palLookup_cases index s with ⟨-, -, e⟩ | ⟨-, -, e⟩ | ⟨-, e⟩
  · rw [e] at h
    dsimp only at h
    cases hf : f _ with
    | none => rw [hf] at h; cases h
    | some c => rw [hf] at h; cases h; exact .inr ⟨c, s.palOor, .inl rfl, rfl⟩
  · rw [e] at h; cases h; exact .inl ⟨_, rfl⟩
  · rw [e] at h
    cases h
    unfold indexOutOfRange
    split
    · exact .inl ⟨_, rfl⟩
    · exact .inr ⟨_, true, .inr rfl, rfl⟩

theorem resolved_shape {o : Option Rgba} {s t : State} (h : resolved o s = .next t) : ∃ c, t = latchPixel c s := by
  cases o with
  | none => cases h
  | some c => cases h; exact ⟨c, rfl⟩

theorem pixelRest_shape {op : Instr} {smp : List Byte} {s t : State} (h : pixelRest op smp s = .next t) :
    (∃ e, t = raiseError e s) ∨
    ∃ c oor, (oor = s.palOor ∨ oor = true) ∧ t = latchPixel c { s with palOor := oor } := by
  unfold pixelRest at h
  split at h
  iterate 4
    · obtain ⟨c, h⟩ := resolved_shape h
      exact .inr ⟨c, s.palOor, .inl rfl, h⟩
  · exact palettePixelOf_shape h
  · exact palettePixelOf_shape h
  · cases h

/-- A pixel operation raises after taking its sample, or latches a packed colour (R130, R143). -/
theorem exec_key_shape {op : Instr} (hs : op.slot = .key) {s t : State} (h : exec op s = .next t) : ∃ p r k l,
    (∃ e, t = raiseError e (s.withPacket p r k l)) ∨
    ∃ c oor, (oor = s.palOor ∨ oor = true) ∧ t = latchPixel c { s.withPacket p r k l with palOor := oor } := by
  rw [exec_key hs] at h
  obtain ⟨p, r, k, l, ⟨e, he⟩ | ⟨smp, he⟩⟩ := nextSample_shape (keyRle op) s
  · rw [he] at h; cases h; exact ⟨_, _, _, _, .inl ⟨_, rfl⟩⟩
  · rw [he] at h
    dsimp only at h
    exact ⟨p, r, k, l, pixelRest_shape (s := s.withPacket p r k l) h⟩

/-! ### The block's turn -/

/-- All that the block's turn can give. -/
inductive BlockMoved (s : State) : State → Prop
  | rest (h : s.busy = false ∨ s.phase = .idle) : BlockMoved s s
  | drawn (hb : s.busy = true) (ht : s.tainted = true) : BlockMoved s (drawResult s)
  | wrote (d : Nat) (hb : s.busy = true) (hp : s.phase = .stream) (ht : s.tainted = false) (hr : s.pixelReady = true)
      (hd : d = dest (!s.desc.getLsbD 5) (s.desc.getLsbD 4) s.width s.height s.position) (hn : d < s.consts.n) :
      BlockMoved s (advancePixel (outWrite s d s.pixel))
  | raised (e : DecodeError) (p : Word) (r : Nat) (k : PktKind) (l : List Byte) (hb : s.busy = true) :
      BlockMoved s (raiseError e (s.withPacket p r k l))
  | packet (p : Word) (r : Nat) (k : PktKind) (l : List Byte) (hb : s.busy = true) (ht : s.tainted = false)
      (hr : s.pixelReady = false) : BlockMoved s (s.withPacket p r k l)
  | pixel (p : Word) (r : Nat) (k : PktKind) (l : List Byte) (c : Rgba) (oor : Bool) (hb : s.busy = true)
      (ht : s.tainted = false) (hr : s.pixelReady = false) (ho : oor = s.palOor ∨ oor = true) :
      BlockMoved s (latchPixel c { s.withPacket p r k l with palOor := oor })

theorem fetchBlock_moved {s t : State} (h : perform (fetchBlock s) = .next t) : BlockMoved s t := by
  unfold fetchBlock at h
  split at h
  · next h1 => cases h; exact .rest h1
  next h1 =>
  push Not at h1
  have hb : s.busy = true := by simpa using h1.1
  have hp : s.phase = .stream := by
    cases hh : s.phase with
    | idle => exact absurd hh h1.2
    | stream => rfl
  split at h
  · next ht => cases h; exact .drawn hb ht
  next ht =>
  have ht : s.tainted = false := by simpa using ht
  split at h
  · next hr =>
    rw [perform_instr, exec_decodeOrigin] at h
    rcases writePixel_cases (dest (!s.desc.getLsbD 5) (s.desc.getLsbD 4) s.width s.height s.position) s with
      ⟨hd, e⟩ | ⟨_, e⟩
    · rw [e] at h; cases h; exact .wrote _ hb hp ht hr rfl hd
    · rw [e] at h; cases h
  next hr =>
  have hr : s.pixelReady = false := by simpa using hr
  split at h
  · unfold fetchPacketHeader at h
    rcases fetchHeader_cases s with ⟨_, e⟩ | ⟨_, e⟩
    · rw [e] at h; cases h; exact .raised _ s.inPtr s.pktRem s.pktKind s.slatch hb
    · rw [e] at h
      have : ∃ k, exec (decodePacket (inByte s s.inOffset)) s
          = packetResult (takePacket k (packetCount (inByte s s.inOffset)) s) := by
        rw [decodePacket_eq]
        split
        · exact ⟨.run, rfl⟩
        · exact ⟨.raw, rfl⟩
      obtain ⟨k, hk⟩ := this
      dsimp only at h
      rw [perform_instr, hk] at h
      rcases takePacket_shape k (packetCount (inByte s s.inOffset)) s with ⟨e, -, h1⟩ | ⟨p, r, k, l, h1⟩
      · rw [h1] at h; cases h; exact .raised _ s.inPtr s.pktRem s.pktKind s.slatch hb
      · rw [h1] at h; cases h; exact .packet _ _ _ _ hb ht hr
  · unfold fetchKey at h
    cases hk : decodeKey s.key with
    | error r => rw [hk] at h; cases h
    | ok op =>
      rw [hk] at h
      obtain ⟨p, r, k, l, ⟨e, rfl⟩ | ⟨c, oor, ho, rfl⟩⟩ := exec_key_shape (decodeKey_imageType hk).2 h
      · exact .raised _ _ _ _ _ hb
      · exact .pixel _ _ _ _ _ _ hb ht hr ho

/-! ### A step -/

/-- All that a step can give. -/
inductive Stepped (s : State) : State → Prop
  | block (q : List HostEvent) (t : State) (h : BlockMoves s q) (hb : BlockMoved (s.withQueue q) t) : Stepped s t
  | ctrl (w : Word) (q : List HostEvent) (h : s.hostQ = .writeReg 0 w :: q) :
      Stepped s (ctrlWrite (w.getLsbD 0) (w.getLsbD 1) (w.getLsbD 2) (w.getLsbD 3) (s.withQueue q))
  | writeReg (offset : Nat) (w : Word) (q : List HostEvent) (ho : offset ≠ 0)
      (h : s.hostQ = .writeReg offset w :: q) : Stepped s (regWrite (s.withQueue q) offset w)
  | read (q : List HostEvent) (n : Nat) (r : Word)
      (h : (∃ o, s.hostQ = .readReg o :: q) ∨ (∃ a, s.hostQ = .readIn a :: q) ∨ (∃ d, s.hostQ = .readOut d :: q) ∨
        ∃ a, s.hostQ = .readOutByte a :: q)
      (hn : s.draws ≤ n) : Stepped s { s.withQueue q with draws := n, rdata := r }
  | writeIn (a : Nat) (b : Byte) (q : List HostEvent) (h : s.hostQ = .writeIn a b :: q)
      (ha : a < 2 ^ s.params.inAddrBits) :
      Stepped s { s.withQueue q with inMem := memInsert s.inMem a b, tainted := s.tainted || s.busy }
  | reset (q : List HostEvent) (h : s.hostQ = .reset :: q) : Stepped s (resetBlock (s.withQueue q))

/-- A step that answers a next state gives one of these. -/
theorem step_cases {s t : State} (h : step s = .next t) : Stepped s t := by
  match hq : s.hostQ with
  | [] =>
    have hB : BlockMoves s [] := .inl ⟨hq, rfl⟩
    rw [step_block hB] at h
    exact .block _ _ hB (fetchBlock_moved h)
  | .wait :: q =>
    have hB : BlockMoves s q := .inr hq
    rw [step_block hB] at h
    exact .block _ _ hB (fetchBlock_moved h)
  | .writeReg offset w :: q =>
    by_cases ho : offset = 0
    · subst ho; rw [step_ctrlWrite hq] at h; cases h; exact .ctrl _ _ hq
    · rw [step_writeReg hq ho] at h; cases h; exact .writeReg _ _ _ ho hq
  | .readReg o :: q =>
    rw [step_readReg hq] at h; cases h
    exact .read q s.draws _ (.inl ⟨_, hq⟩) (le_refl _)
  | .writeIn a b :: q =>
    rw [step_writeIn hq] at h
    unfold hostWriteIn at h
    split at h
    · next hh =>
      cases h
      exact .writeIn _ _ _ hq (by unfold inAddressOk at hh; exact of_decide_eq_true hh)
    · cases h
  | .readIn a :: q =>
    rw [step_readIn hq] at h
    unfold hostReadIn at h
    split at h
    · cases h; exact .read q s.draws _ (.inr (.inl ⟨_, hq⟩)) (le_refl _)
    · cases h
  | .readOut d :: q =>
    rw [step_readOut hq] at h
    unfold hostReadOut at h
    split at h
    · cases h
      unfold countOutRead
      split
      · exact .read q (s.draws + 1) _ (.inr (.inr (.inl ⟨_, hq⟩))) (by omega)
      · exact .read q s.draws _ (.inr (.inr (.inl ⟨_, hq⟩))) (le_refl _)
    · cases h
  | .readOutByte a :: q =>
    rw [step_readOutByte hq] at h
    unfold hostReadOutByte at h
    split at h
    · cases h
      unfold countOutRead
      split
      · exact .read q (s.draws + 1) _ (.inr (.inr (.inr ⟨_, hq⟩))) (by omega)
      · exact .read q s.draws _ (.inr (.inr (.inr ⟨_, hq⟩))) (le_refl _)
    · cases h
  | .reset :: q => rw [step_reset hq] at h; cases h; exact .reset _ hq

end Sys2Proof.Machine
end

