-- ==== Sys2Proof/Laws/PerInstr.lean ====
section
/-! SUPPORT. The family EncodingMatchesRow: the encoding of every well-formed instruction has the fixed bits of its row of
spec/opcode_table.json (its "match" and "mask"). One lemma per constructor. -/

namespace Sys2Proof

/-- The low bits of a CTRL word (R80). -/
theorem getLsbD_ctrlWordOf (start strict argb abgr : Bool) (x : BitVec 28) (k : Nat) :
    (ctrlWordOf start strict argb abgr x).getLsbD k =
      if k = 0 then start else if k = 1 then strict else if k = 2 then argb else if k = 3 then abgr
      else x.getLsbD (k - 4) := by
  change ((((x ++ BitVec.ofBool abgr : BitVec (28 + 1)) ++ BitVec.ofBool argb : BitVec (28 + 1 + 1))
    ++ BitVec.ofBool strict : BitVec (28 + 1 + 1 + 1)) ++ BitVec.ofBool start : BitVec (28 + 1 + 1 + 1 + 1)).getLsbD k = _
  simp only [BitVec.getLsbD_append, BitVec.getLsbD_ofBool]
  match k with
  | 0 => simp
  | 1 => simp
  | 2 => simp
  | 3 => simp
  | k + 4 => simp

namespace Laws

/-- Bit `k` of an encoding, numbered as the opcode table numbers it. -/
def encodingBit (i : Instr) (k : Nat) : Bool := ((encode i)[k / 8]?.getD 0#8).getLsbD (k % 8)

/-- The bits of a field of the opcode table's "fixed" column: `width` bits from `lo`, of this value. -/
def fixedField (lo value : Nat) : Nat → List (Nat × Bool)
  | 0 => []
  | width + 1 => (lo, value % 2 == 1) :: fixedField (lo + 1) (value / 2) width

/-- The fixed bits of an instruction's row of the opcode table (its "match" under its "mask"). -/
def rowFixed : Instr → List (Nat × Bool)
  | .run _ => fixedField 7 1 1
  | .raw _ => fixedField 7 0 1
  | .tc24 _ _ => fixedField 0 2 3 ++ fixedField 4 384 12
  | .tc32 _ _ => fixedField 0 2 3 ++ fixedField 4 512 12
  | .gs8 _ _ => fixedField 0 3 3 ++ fixedField 4 128 12
  | .gs16 _ _ => fixedField 0 3 3 ++ fixedField 4 256 12
  | .pal24 _ => fixedField 0 1 3 ++ fixedField 4 98432 20
  | .pal32 _ => fixedField 0 1 3 ++ fixedField 4 131200 20
  | .orgBL _ _ => fixedField 4 0 2
  | .orgBR _ _ => fixedField 4 1 2
  | .orgTL _ _ => fixedField 4 2 2
  | .orgTR _ _ => fixedField 4 3 2
  | .start _ _ _ _ => fixedField 0 1 1
  | .strict _ _ _ => fixedField 1 1 1
  | .loadArgb _ => fixedField 2 1 2
  | .loadAbgr _ => fixedField 2 2 2

/-- An encoding has the fixed bits of its row. -/
def EncodingMatchesRow.Statement (i : Instr) : Prop :=
  i.wf = true → (rowFixed i).all (fun p => encodingBit i p.1 == p.2) = true

namespace EncodingMatchesRow

theorem run (count : Nat) : Statement (.run count) := by
  intro hw
  simp only [Instr.wf, countOk, Bool.and_eq_true, decide_eq_true_eq] at hw
  obtain ⟨h1, h2⟩ := hw
  interval_cases count <;> decide

theorem raw (count : Nat) : Statement (.raw count) := by
  intro hw
  simp only [Instr.wf, countOk, Bool.and_eq_true, decide_eq_true_eq] at hw
  obtain ⟨h1, h2⟩ := hw
  interval_cases count <;> decide

theorem tc24 (rle : Bool) (c : Byte) : Statement (.tc24 rle c) := fun _ => by
  cases rle <;> simp [rowFixed, fixedField, encodingBit, encode, encodeKey, encodeType]
theorem tc32 (rle : Bool) (c : Byte) : Statement (.tc32 rle c) := fun _ => by
  cases rle <;> simp [rowFixed, fixedField, encodingBit, encode, encodeKey, encodeType]
theorem gs8 (rle : Bool) (c : Byte) : Statement (.gs8 rle c) := fun _ => by
  cases rle <;> simp [rowFixed, fixedField, encodingBit, encode, encodeKey, encodeType]
theorem gs16 (rle : Bool) (c : Byte) : Statement (.gs16 rle c) := fun _ => by
  cases rle <;> simp [rowFixed, fixedField, encodingBit, encode, encodeKey, encodeType]
theorem pal24 (rle : Bool) : Statement (.pal24 rle) := fun _ => by
  cases rle <;> simp [rowFixed, fixedField, encodingBit, encode, encodeKey, encodeType]
theorem pal32 (rle : Bool) : Statement (.pal32 rle) := fun _ => by
  cases rle <;> simp [rowFixed, fixedField, encodingBit, encode, encodeKey, encodeType]

theorem orgBL (hi : BitVec 2) (lo : BitVec 4) : Statement (.orgBL hi lo) := fun _ => by revert hi lo; decide
theorem orgBR (hi : BitVec 2) (lo : BitVec 4) : Statement (.orgBR hi lo) := fun _ => by revert hi lo; decide
theorem orgTL (hi : BitVec 2) (lo : BitVec 4) : Statement (.orgTL hi lo) := fun _ => by revert hi lo; decide
theorem orgTR (hi : BitVec 2) (lo : BitVec 4) : Statement (.orgTR hi lo) := fun _ => by revert hi lo; decide

/-- A low bit of a CTRL write's encoding is that bit of its word (R80). -/
theorem encodingBit_ctrl {i : Instr} {w : Word} (he : encode i = wordBytes w) {k : Nat} (hk : k < 8) :
    encodingBit i k = w.getLsbD k := by
  simp only [encodingBit, he, wordBytes, Nat.div_eq_of_lt hk, Nat.mod_eq_of_lt hk]
  simp [hk]

theorem start (strict argb abgr : Bool) (x : BitVec 28) : Statement (.start strict argb abgr x) := fun _ => by
  have h := fun k (hk : k < 8) => encodingBit_ctrl (i := .start strict argb abgr x) (w := ctrlWordOf true strict argb abgr x) rfl hk
  simp [rowFixed, fixedField, h, getLsbD_ctrlWordOf, -BitVec.getLsbD_eq_getElem]

theorem strict (argb abgr : Bool) (x : BitVec 28) : Statement (.strict argb abgr x) := fun _ => by
  have h := fun k (hk : k < 8) => encodingBit_ctrl (i := .strict argb abgr x) (w := ctrlWordOf false true argb abgr x) rfl hk
  simp [rowFixed, fixedField, h, getLsbD_ctrlWordOf, -BitVec.getLsbD_eq_getElem]

theorem loadArgb (x : BitVec 28) : Statement (.loadArgb x) := fun _ => by
  have h := fun k (hk : k < 8) => encodingBit_ctrl (i := .loadArgb x) (w := ctrlWordOf false false true false x) rfl hk
  simp [rowFixed, fixedField, h, getLsbD_ctrlWordOf, -BitVec.getLsbD_eq_getElem]

theorem loadAbgr (x : BitVec 28) : Statement (.loadAbgr x) := fun _ => by
  have h := fun k (hk : k < 8) => encodingBit_ctrl (i := .loadAbgr x) (w := ctrlWordOf false false false true x) rfl hk
  simp [rowFixed, fixedField, h, getLsbD_ctrlWordOf, -BitVec.getLsbD_eq_getElem]

end EncodingMatchesRow

end Laws

end Sys2Proof
end

