-- ==== Sys2Proof/Tests/Slice0.lean ====
section
/-! SUPPORT. Tests of the model: the smoke test of WellFormed, decoding of words written out from the tables of
30_encoding.md, one step of each instruction on the examples of the spec's rules, and for each obligation with hypotheses a
state and operands that meet them. -/

namespace Sys2Proof.Tests

set_option Elab.async false

open Sys2Proof.Machine

/-! ### Helpers -/

/-- Parameters in the ranges of R5. -/
def testParams : Params := { inAddrBits := 20, maxPixels := 1000, outByteOrder := .little }

/-- The reset state of a machine with those parameters. -/
def fresh : State := { State.reset with params := testParams }

/-- That machine after the host loaded a file and wrote IN_LEN. -/
def loaded (file : List Byte) : State :=
  { fresh with inMem := memInsertAll [] 0 file, inLen := BitVec.ofNat 32 file.length }

/-- The 18 header bytes of a small image (R59, R81). -/
def header (typ depth desc w h : Byte) (cmapOrigin cmapLen cmapDepth : Byte) : List Byte :=
  [0#8, 0#8, typ, cmapOrigin, 0#8, cmapLen, 0#8, cmapDepth, 0#8, 0#8, 0#8, 0#8, w, 0#8, h, 0#8, depth, desc]

/-- The next state of a result. -/
def nextOf : Result → Option State
  | .next s => some s
  | .fault _ => none
  | .refused _ => none

/-- A field of the next state. -/
def after {α : Type} (f : State → α) (r : Result) : Option α := (nextOf r).map f

theorem next_with {r : Result} (p : State → Bool) (h : after p r = some true) : ∃ t, r = .next t ∧ p t = true := by
  cases r with
  | next t => exact ⟨t, rfl, by simpa [after, nextOf] using h⟩
  | fault f => simp [after, nextOf] at h
  | refused f => simp [after, nextOf] at h

/-- A decoder's answer is this one. -/
def isOk {α : Type} [DecidableEq α] (e : Except Reject α) (i : α) : Bool :=
  match e with
  | .ok j => decide (j = i)
  | .error _ => false

theorem ok_of {α : Type} [DecidableEq α] {e : Except Reject α} {i : α} (h : isOk e i = true) : e = .ok i := by
  cases e with
  | ok j => simp only [isOk, decide_eq_true_eq] at h; rw [h]
  | error r => cases h

/-- The state after START. -/
def started (file : List Byte) : State := start (loaded file)

/-- A decode in progress by hand: ARGB shifts, a 3 by 2 image, SS as given, and these bytes in IN. -/
def midDecode (rle : Bool) (ss : Nat) (bytes : List Byte) : State :=
  { loaded bytes with
    busy := true, phase := .stream, hdr1 := 0x00020003#32
    consts := { Consts.reset with rle := rle, n := 6, ss := ss, rsh := 16#8, gsh := 8#8, ash := 24#8 } }

/-- The file of vector V1 (95_test_vectors.md). -/
def fileV1 : List Byte :=
  header 2#8 24#8 0x20#8 2#8 2#8 0#8 0#8 0#8
    ++ [0#8, 0#8, 0xFF#8, 0#8, 0xFF#8, 0#8, 0xFF#8, 0#8, 0#8, 0x80#8, 0x80#8, 0x80#8]

/-- The file of vector V2. -/
def fileV2 : List Byte := header 11#8 8#8 0x20#8 2#8 1#8 0#8 0#8 0#8 ++ [0x81#8, 0xAA#8]

/-- The file of vector V3. -/
def fileV3 : List Byte := header 1#8 8#8 0x20#8 1#8 1#8 0#8 1#8 24#8 ++ [0x0A#8, 0x14#8, 0x1E#8, 0#8]

/-! ### WellFormed refuses ill-formed terms -/

theorem test_wf_run_zero : (Instr.run 0).wf = false := by decide
theorem test_wf_run_129 : (Instr.run 129).wf = false := by decide
theorem test_wf_raw_zero : (Instr.raw 0).wf = false := by decide
theorem test_wf_raw_129 : (Instr.raw 129).wf = false := by decide

/-! ### Decoding, from the tables of R70, R74, R75, R77 and R80 -/

theorem test_decode_run : decodePacket 0b10000001#8 = .run 2 ∧ decodePacket 0b11111111#8 = .run 128 := by decide
theorem test_decode_raw : decodePacket 0b00000000#8 = .raw 1 ∧ decodePacket 0b01111111#8 = .raw 128 := by decide
theorem test_decode_tc24 : decode .key [10#8, 24#8, 7#8, 1#8] = .ok (.tc24 true 7#8, [1#8]) := rfl
theorem test_decode_tc32 : decode .key [2#8, 32#8, 0#8] = .ok (.tc32 false 0#8, []) := rfl
theorem test_decode_gs8 : decode .key [3#8, 8#8, 0#8] = .ok (.gs8 false 0#8, []) := rfl
theorem test_decode_gs16 : decode .key [11#8, 16#8, 0#8] = .ok (.gs16 true 0#8, []) := rfl
theorem test_decode_pal24 : decode .key [1#8, 8#8, 24#8] = .ok (.pal24 false, []) := rfl
theorem test_decode_pal32 : decode .key [9#8, 8#8, 32#8] = .ok (.pal32 true, []) := rfl
theorem test_decode_key_refused :
    decode .key [1#8, 16#8, 24#8] = .error .formatKey ∧ decode .key [4#8, 8#8, 24#8] = .error .imageType := ⟨rfl, rfl⟩
theorem test_decode_orgBL : decodeOrigin 0b11001111#8 = .orgBL 3 15 := by decide
theorem test_decode_orgBR : decodeOrigin 0b00010000#8 = .orgBR 0 0 := by decide
theorem test_decode_orgTL : decodeOrigin 0b00100000#8 = .orgTL 0 0 := by decide
theorem test_decode_orgTR : decodeOrigin 0b00110000#8 = .orgTR 0 0 := by decide
theorem test_decode_start : decode .ctrl [0b0111#8, 0#8, 0#8, 0#8] = .ok (.start true true false 0, []) := rfl
theorem test_decode_strict : decode .ctrl [0b1010#8, 0#8, 0#8, 0#8] = .ok (.strict false true 0, []) := rfl
theorem test_decode_loadArgb : decode .ctrl [0b0100#8, 0#8, 0#8, 0x80#8] = .ok (.loadArgb 0x8000000, []) := rfl
theorem test_decode_loadAbgr : decode .ctrl [0b1000#8, 0#8, 0#8, 0#8] = .ok (.loadAbgr 0, []) := rfl
theorem test_decode_ctrl_refused :
    decode .ctrl [0b1100#8, 0#8, 0#8, 0#8] = .error .noCommand ∧ decode .ctrl [0#8, 0#8, 0#8, 0#8] = .error .noCommand :=
  ⟨rfl, rfl⟩

/-! ### One step of each instruction, from the examples of its rule -/

/-- V2 and the example of R102: RUN 2 of one byte at offset 18 ends at 20 with two samples to deliver. -/
theorem test_run :
    after (fun t => (t.inPtr, t.pktRem, t.slatch)) (step (started fileV2)) = some (20#32, 2, [0xAA#8]) := by
  decide +kernel

/-- The example of R103: header 02 with SS = 3 is three samples, none read at the fetch. -/
theorem test_raw :
    after (fun t => (t.inPtr, t.pktRem, t.pktKind))
      (execRaw 3 (midDecode true 3 [2#8, 1#8, 2#8, 3#8, 4#8, 5#8, 6#8, 7#8, 8#8, 9#8])) = some (1#32, 3, .raw) := by
  decide +kernel

/-- The example of R103: its second delivery is bytes 04 05 06. -/
theorem test_raw_delivery :
    (match deliverAll 2 { midDecode true 3 [2#8, 1#8, 2#8, 3#8, 4#8, 5#8, 6#8, 7#8, 8#8, 9#8] with
      inPtr := 1#32, pktRem := 3, pktKind := .raw } with
    | .ok smps t => some (smps, t.inPtr)
    | .raised _ => none) = some ([[1#8, 2#8, 3#8], [4#8, 5#8, 6#8]], 7#32) := by
  decide +kernel

/-- V1 and the example of R131: the first pixel is 0xFFFF0000. -/
theorem test_tc24 : after (fun t => (t.pixel, t.inPtr)) (step (started fileV1)) = some (0xFFFF0000#32, 21#32) := by
  decide +kernel

/-- The example of R132. -/
theorem test_tc32 :
    after (fun t => t.pixel) (execTc32 true 0#8 { midDecode true 4 [] with
      pktKind := .run, pktRem := 1, slatch := [0x10#8, 0x20#8, 0x30#8, 0x40#8] }) = some 0x40302010#32 := by
  decide +kernel

/-- The example of R133. -/
theorem test_gs8 :
    after (fun t => t.pixel) (execGs8 true 0#8 { midDecode true 1 [] with
      pktKind := .run, pktRem := 1, slatch := [0x5A#8] }) = some 0xFF5A5A5A#32 := by
  decide +kernel

/-- The example of R134. -/
theorem test_gs16 :
    after (fun t => t.pixel) (execGs16 true 0#8 { midDecode true 2 [] with
      pktKind := .run, pktRem := 1, slatch := [0x5A#8, 0x80#8] }) = some 0x805A5A5A#32 := by
  decide +kernel

/-- V3 and the example of R136. -/
theorem test_pal24 : after (fun t => (t.pixel, t.palOor)) (step (started fileV3)) = some (0xFF1E140A#32, false) := by
  decide +kernel

/-- The example of R137: entry 1, 2, 3, 4. -/
theorem test_pal32 :
    after (fun t => t.pixel) (step (started
      (header 1#8 8#8 0x20#8 1#8 1#8 0#8 1#8 32#8 ++ [1#8, 2#8, 3#8, 4#8, 0#8]))) = some 0x04030201#32 := by
  decide +kernel

/-- R138: the index after the last entry gives the sentinel and PAL_OOR. -/
theorem test_pal24_out_of_range :
    after (fun t => (t.pixel, t.palOor, t.busy)) (step (started
      (header 1#8 8#8 0x20#8 1#8 1#8 0#8 1#8 24#8 ++ [0x0A#8, 0x14#8, 0x1E#8, 1#8])))
      = some (0xFFFFFFFF#32, true, true) := by
  decide +kernel

/-- R139: in strict mode it raises code 4 with PIX_COUNT 0. -/
theorem test_pal32_strict :
    after (fun t => (t.errCode, t.err, t.busy, t.pixCount)) (step (start { loaded
      (header 1#8 8#8 0x20#8 1#8 1#8 5#8 1#8 32#8 ++ [1#8, 2#8, 3#8, 4#8, 4#8]) with strict := true }))
      = some (4#3, true, false, 0#32) := by
  decide +kernel

/-- The examples of R163 to R166, for W = 3 and H = 2: position 0 is written at 3, 5, 0 and 2. -/
theorem test_orgBL :
    after (fun t => (outWord t 3, t.pixCount)) (execOrgBL 0 0 { midDecode false 3 [] with pixel := 7#32 })
      = some (7#32, 1#32) := by
  decide +kernel

theorem test_orgBR :
    after (fun t => outWord t 5) (execOrgBR 0 0 { midDecode false 3 [] with pixel := 7#32 }) = some 7#32 := by
  decide +kernel

theorem test_orgTL :
    after (fun t => outWord t 0) (execOrgTL 0 0 { midDecode false 3 [] with pixel := 7#32 }) = some 7#32 := by
  decide +kernel

/-- R166 and R167: the last position, 5, is written at 3, and ends the decode. -/
theorem test_orgTR :
    after (fun t => (outWord t 3, t.pixCount, t.busy, t.done))
      (execOrgTR 0 0 { midDecode false 3 [] with pixel := 7#32, pixCount := 5#32 }) = some (7#32, 6#32, false, true) := by
  decide +kernel

/-- V1: START enters STREAM with IN_PTR at 18 and N = 4. -/
theorem test_start :
    after (fun t => (t.busy, t.inPtr, t.consts.n, t.hdr1)) (execStart false false false 0 (loaded fileV1))
      = some (true, 18#32, 4, 0x00020002#32) := by
  decide +kernel

/-- The example of R181: L = 17 ends with ERR, ERRCODE 3 and the header registers 0. -/
theorem test_start_short :
    after (fun t => (t.err, t.errCode, t.hdr0, t.hdr1)) (execStart false false false 0 (loaded (fileV1.take 17)))
      = some (true, 3#3, 0#32, 0#32) := by
  decide +kernel

/-- R184: CTRL then reads 2. -/
theorem test_strict : after ctrlWord (execStrict false false 0 fresh) = some 2#32 := by decide +kernel

/-- R182, R183: the presets. -/
theorem test_loadArgb : after (fun t => t.chord) (execLoadArgb 0 { fresh with chord := 0#32 }) = some 0x18000810#32 := by
  decide +kernel

theorem test_loadAbgr : after (fun t => t.chord) (execLoadAbgr 0 fresh) = some 0x18100800#32 := by decide +kernel

/-- The words of the opcode table reach the decoder, and the step that runs them, in each of the four places. -/
theorem test_table_words :
    decodeTableWord 8 0x80 = some (.run 1) ∧ decodeTableWord 24 0x001802 = some (.tc24 false 0#8) ∧
      decodeTableWord 8 0x10 = some (.orgBR 0 0) ∧ decodeTableWord 32 1 = some (.start false false false 0) := by
  decide

theorem test_withFetchWord :
    after (fun t => t.pktRem) (step (fresh.withFetchWord 8 0xFF)) = some 128 ∧
    after (fun t => t.pixelReady) (step (fresh.withFetchWord 24 0x200801)) = some true ∧
    after (fun t => t.done) (step (fresh.withFetchWord 8 0x30)) = some true ∧
    after (fun t => t.chord) (step (fresh.withFetchWord 32 8)) = some 0x18100800#32 := by
  decide +kernel

/-! ### Witnesses: the invariant -/

/-- What the invariant says while BUSY, as conditions that can be evaluated. -/
abbrev streamingCheck (s : State) : Prop :=
  s.phase = .stream ∧ (match validate s with | .ok c => decide (c = s.consts) | .error _ => false) = true ∧ s.position < s.consts.n ∧
    s.inOffset ≤ s.inLimit ∧ s.consts.base ≤ s.inOffset ∧
    (s.consts.rle = false →
      s.pktRem = 0 ∧ s.inOffset = s.consts.base + (s.position + s.readyCount) * s.consts.ss) ∧
    (s.consts.rle = true → s.position + s.readyCount + s.pktRem ≤ s.consts.n) ∧
    (s.pktRem ≠ 0 → s.pktKind = .run → s.slatch.length = s.consts.ss) ∧
    (s.pktRem ≠ 0 → s.pktKind = .raw → s.inOffset + s.pktRem * s.consts.ss ≤ s.inLimit)

theorem streaming_of_check {s : State} (h : streamingCheck s) : s.Streaming := by
  obtain ⟨h1, h2, h3, h4, h5, h6, h7, h8, h9⟩ := h
  refine ⟨h1, ?_, h3, h4, h5, h6, h7, h8, h9⟩
  split at h2
  · next c e => rw [e, of_decide_eq_true h2]
  · cases h2

/-- What the invariant says of every state, as conditions that can be evaluated. -/
abbrev baseCheck (s : State) : Prop :=
  s.params.valid ∧ Memory.wf s.inMem = true ∧ Memory.wf s.out.words = true ∧
    (∀ c ∈ s.inMem, c.1 < 2 ^ s.params.inAddrBits) ∧ (∀ c ∈ s.out.words, c.1 < s.params.maxPixels) ∧
    (¬(s.busy = true ∧ s.done = true) ∧ ¬(s.busy = true ∧ s.err = true) ∧ ¬(s.done = true ∧ s.err = true)) ∧
    (s.err = true ↔ s.errCode ≠ 0) ∧ s.inLimit < 2 ^ s.params.inAddrBits ∧ s.inOffset < 2 ^ s.params.inAddrBits ∧
    s.pktRem ≤ 128 ∧ s.slatch.length ≤ 4 ∧ s.out.epoch ≤ s.draws ∧
    (s.palOor = true → s.tainted = false → s.consts.strictD = false)

/-- A busy state meets the invariant when both checks hold. -/
theorem inv_of_busy {s : State} (hb : s.busy = true) (h : baseCheck s) (hs : streamingCheck s) : s.Inv := by
  obtain ⟨h1, h2, h3, h4, h5, h6, h7, h8, h9, h10, h11, h12, h13⟩ := h
  exact ⟨h1, h2, h3, h4, h5, h6, h7, h8, h9, h10, h11, h12, h13, fun _ => streaming_of_check hs,
    fun h => (by rw [hb] at h; cases h)⟩

/-- An idle state meets the invariant when the base check holds and it rests. -/
theorem inv_of_idle {s : State} (hb : s.busy = false) (h : baseCheck s)
    (hr : s.phase = .idle ∧ s.pixelReady = false ∧ (s.done = true → s.position = s.consts.n) ∧
      (s.done = true → s.tainted = false → s.pktRem = 0) ∧ (s.done = true → s.consts.n = s.width * s.height)) :
    s.Inv := by
  obtain ⟨h1, h2, h3, h4, h5, h6, h7, h8, h9, h10, h11, h12, h13⟩ := h
  obtain ⟨r1, r2, r3, r4, r5⟩ := hr
  exact ⟨h1, h2, h3, h4, h5, h6, h7, h8, h9, h10, h11, h12, h13, fun h => (by rw [hb] at h; cases h),
    fun _ => ⟨r1, r2, r3, r4, r5⟩⟩

/-- An uncompressed decode just started: vector V1. -/
def flat : State := started fileV1

/-- A packet decode just started: vector V2. -/
def packed : State := started fileV2

/-- A packet decode whose first packet is not wholly present. -/
def packedShort : State := started (fileV2.take 19)

/-- The end of the decode of a 1 by 1 image. -/
def finished : State :=
  { started fileV3 with
    busy := false, done := true, phase := .idle, pixCount := 1#32, inPtr := 22#32
    out := { epoch := 0, words := [(0, 0xFF1E140A#32)] } }

/-- An idle state whose last error recorded the cause READ; no run reaches it. -/
def readFailed : State := { fresh with err := true, errCode := 3#3, errCause := some .read }

theorem flat_inv : flat.Inv := inv_of_busy (by decide +kernel) (by decide +kernel) (by decide +kernel)
theorem packed_inv : packed.Inv := inv_of_busy (by decide +kernel) (by decide +kernel) (by decide +kernel)
theorem packedShort_inv : packedShort.Inv := inv_of_busy (by decide +kernel) (by decide +kernel) (by decide +kernel)
theorem finished_inv : finished.Inv := inv_of_idle (by decide +kernel) (by decide +kernel) (by decide +kernel)
theorem readFailed_inv : readFailed.Inv := inv_of_idle (by decide +kernel) (by decide +kernel) (by decide +kernel)

theorem flat_decoding : Decoding flat := ⟨by decide +kernel, by decide +kernel, by decide +kernel⟩
theorem packed_decoding : Decoding packed := ⟨by decide +kernel, by decide +kernel, by decide +kernel⟩
theorem packedShort_decoding : Decoding packedShort := ⟨by decide +kernel, by decide +kernel, by decide +kernel⟩

theorem flat_start : AtStreamStart flat :=
  ⟨flat_decoding, by decide +kernel, by decide +kernel, by decide +kernel, by decide +kernel, by decide +kernel⟩
theorem packed_start : AtStreamStart packed :=
  ⟨packed_decoding, by decide +kernel, by decide +kernel, by decide +kernel, by decide +kernel, by decide +kernel⟩
theorem packedShort_start : AtStreamStart packedShort :=
  ⟨packedShort_decoding, by decide +kernel, by decide +kernel, by decide +kernel, by decide +kernel, by decide +kernel⟩

/-- Nothing to do for the host: the block moves. -/
theorem moves_of_empty {s : State} (h : s.hostQ = []) : BlockMoves s [] := .inl ⟨h, rfl⟩

/-! ### Witnesses: encodings -/

theorem witness_DecodeOfEncode :
    (Instr.run 1).wf = true ∧ (Instr.run 128).wf = true ∧ (Instr.raw 1).wf = true ∧ (Instr.raw 128).wf = true ∧
      (Instr.pal32 true).wf = true ∧ (Instr.orgBL 3 15).wf = true ∧ (Instr.start true true true 1).wf = true := by
  decide

theorem witness_EncodeOfDecode :
    decode .packet [0xFF#8, 1#8] = .ok (.run 128, [1#8]) ∧ decode .key [11#8, 16#8, 5#8] = .ok (.gs16 true 5#8, []) ∧
      decode .origin [0xEF#8] = .ok (.orgTL 3 15, []) ∧
      decode .ctrl [0x14#8, 0#8, 0#8, 0#8] = .ok (.loadArgb 1, []) :=
  ⟨rfl, rfl, rfl, rfl⟩

/-- A key for each clause; the last two match no row, with a legal and with an illegal type. -/
theorem witness_FormatKeyRows :
    0xFF180A#24 &&& 0x00FFF7#24 = 0x001802#24 ∧ 0x002002#24 &&& 0x00FFF7#24 = 0x002002#24 ∧
    0xFF080B#24 &&& 0x00FFF7#24 = 0x000803#24 ∧ 0x001003#24 &&& 0x00FFF7#24 = 0x001003#24 ∧
    0x180809#24 &&& 0xFFFFF7#24 = 0x180801#24 ∧ 0x200801#24 &&& 0xFFFFF7#24 = 0x200801#24 ∧
    (0x001801#24 &&& 0x00FFF7#24 ∉ [0x001802#24, 0x002002#24, 0x000803#24, 0x001003#24] ∧
      0x001801#24 &&& 0xFFFFF7#24 ∉ [0x180801#24, 0x200801#24]) ∧
    0x180804#24 &&& 0x00FFF7#24 ∉ [0x001802#24, 0x002002#24, 0x000803#24, 0x001003#24] ∧
      0x180804#24 &&& 0xFFFFF7#24 ∉ [0x180801#24, 0x200801#24] := by
  decide

/-- A state for each of the four places an instruction is fetched from. -/
theorem witness_StepRunsDecoded :
    (BlockMoves packed [] ∧ Decoding packed ∧ packed.pixelReady = false ∧ packed.consts.rle = true ∧ packed.pktRem = 0 ∧
      packed.inOffset < packed.inLimit ∧ decode .packet [inByte packed packed.inOffset] = .ok (.run 2, [])) ∧
    (BlockMoves flat [] ∧ Decoding flat ∧ flat.pixelReady = false ∧ flat.consts.rle = false ∧
      decode .key [flat.typ, flat.depth, flat.cmapDepth] = .ok (.tc24 false 0#8, [])) ∧
    (∃ s : State, BlockMoves s [] ∧ Decoding s ∧ s.pixelReady = true ∧ decode .origin [s.desc] = .ok (.orgTL 0 0, [])) ∧
    (∃ s : State, s.hostQ = [.writeReg 0 4#32] ∧ decode .ctrl (wordBytes 4#32) = .ok (.loadArgb 0, [])) :=
  ⟨⟨moves_of_empty packed_start.quiet, packed_decoding, by decide +kernel, by decide +kernel, by decide +kernel,
      by decide +kernel, ok_of (by decide +kernel)⟩,
    ⟨moves_of_empty flat_start.quiet, flat_decoding, by decide +kernel, by decide +kernel, ok_of (by decide +kernel)⟩,
    ⟨{ flat with pixelReady := true }, moves_of_empty flat_start.quiet, flat_decoding, rfl, ok_of (by decide +kernel)⟩,
    ⟨{ fresh with hostQ := [.writeReg 0 4#32] }, rfl, rfl⟩⟩

/-! ### Witnesses: packets -/

/-- Two samples of one byte that just fit the image and the input. -/
theorem witness_RunPacketResult : packed.position + 2 ≤ packed.consts.n ∧
    packed.inOffset + 1 + packed.consts.ss ≤ packed.inLimit := by decide +kernel

/-- Three samples of three bytes that just fit the input. -/
def rawReady : State := midDecode true 3 [2#8, 1#8, 2#8, 3#8, 4#8, 5#8, 6#8, 7#8, 8#8, 9#8]

theorem witness_RawPacketResult : rawReady.position + 3 ≤ rawReady.consts.n ∧
    rawReady.inOffset + 1 + 3 * rawReady.consts.ss ≤ rawReady.inLimit := by decide +kernel

theorem witness_PacketOverrunRaised : packed.consts.n - packed.position < 3 := by decide +kernel

/-- One byte short in each of the three clauses. -/
theorem witness_PacketTruncatedRaised :
    (∃ s : State, BlockMoves s [] ∧ Decoding s ∧ s.pixelReady = false ∧ s.consts.rle = true ∧ s.pktRem = 0 ∧
      s.inLimit < s.inOffset + 1) ∧
    (2 ≤ packedShort.consts.n - packedShort.position ∧
      packedShort.inLimit < packedShort.inOffset + 1 + packedShort.consts.ss) ∧
    (∃ s : State, 3 ≤ s.consts.n - s.position ∧ s.inLimit < s.inOffset + 1 + 3 * s.consts.ss) :=
  ⟨⟨started (fileV2.take 18), moves_of_empty (by decide +kernel),
      ⟨by decide +kernel, by decide +kernel, by decide +kernel⟩, by decide +kernel⟩,
    by decide +kernel, ⟨{ rawReady with inLen := 9#32 }, by decide +kernel⟩⟩

theorem witness_RunPacketDelivers : packed.position + 2 ≤ packed.consts.n ∧
    packed.inOffset + 1 + packed.consts.ss ≤ packed.inLimit := witness_RunPacketResult

theorem witness_RawPacketDelivers : rawReady.position + 3 ≤ rawReady.consts.n ∧
    rawReady.inOffset + 1 + 3 * rawReady.consts.ss ≤ rawReady.inLimit := witness_RawPacketResult

/-- V2's packet stream. -/
theorem witness_StreamLength :
    expand (inByte packed) packed.inLimit 18 1 2 = .stream [0xAA#8, 0xAA#8] 20 := by decide +kernel

/-- V2's stream, and the same stream one byte short. -/
theorem witness_ExpandRefined :
    (packed.Inv ∧ AtStreamStart packed ∧ packed.consts.rle = true ∧
      expand (inByte packed) packed.inLimit packed.consts.base packed.consts.ss packed.consts.n
        = .stream [0xAA#8, 0xAA#8] 20) ∧
    (packedShort.Inv ∧ AtStreamStart packedShort ∧ packedShort.consts.rle = true ∧
      expand (inByte packedShort) packedShort.inLimit packedShort.consts.base packedShort.consts.ss packedShort.consts.n
        = .failed (.truncatedInput .packet) 0 18) :=
  ⟨⟨packed_inv, packed_start, by decide +kernel, by decide +kernel⟩,
    ⟨packedShort_inv, packedShort_start, by decide +kernel, by decide +kernel⟩⟩

/-! ### Witnesses: pixels -/

/-- A sample in a run packet. -/
def inRun (ss : Nat) (smp : List Byte) : State :=
  { midDecode true ss [] with pktKind := .run, pktRem := 1, slatch := smp }

/-- The three forms of a sample at hand: in IN, in a run packet, in a raw packet; each just fits. -/
theorem witness_Tc24Result :
    (SampleReady false (midDecode false 3 [1#8, 2#8, 3#8]) ∧ (midDecode false 3 [1#8, 2#8, 3#8]).consts.ss = 3) ∧
    (SampleReady true (inRun 3 [1#8, 2#8, 3#8]) ∧ (inRun 3 [1#8, 2#8, 3#8]).consts.ss = 3) ∧
    (∃ s : State, SampleReady true s ∧ s.pktKind = .raw ∧ s.consts.ss = 3) :=
  ⟨⟨.inl ⟨rfl, by decide +kernel⟩, rfl⟩,
    ⟨.inr (.inl ⟨rfl, by decide +kernel, rfl, rfl⟩), rfl⟩,
    ⟨{ midDecode true 3 [1#8, 2#8, 3#8] with pktKind := .raw, pktRem := 1 },
      .inr (.inr ⟨rfl, by decide +kernel, rfl, by decide +kernel⟩), rfl, rfl⟩⟩

theorem witness_Tc32Result : SampleReady true (inRun 4 [1#8, 2#8, 3#8, 4#8]) ∧ (inRun 4 [1#8, 2#8, 3#8, 4#8]).consts.ss = 4 :=
  ⟨.inr (.inl ⟨rfl, by decide +kernel, rfl, rfl⟩), rfl⟩

theorem witness_Gs8Result : SampleReady true (inRun 1 [1#8]) ∧ (inRun 1 [1#8]).consts.ss = 1 :=
  ⟨.inr (.inl ⟨rfl, by decide +kernel, rfl, rfl⟩), rfl⟩

theorem witness_Gs16Result : SampleReady true (inRun 2 [1#8, 2#8]) ∧ (inRun 2 [1#8, 2#8]).consts.ss = 2 :=
  ⟨.inr (.inl ⟨rfl, by decide +kernel, rfl, rfl⟩), rfl⟩

/-- A palette of two entries with origin 5, and an index byte of an RLE image. -/
def paletted (cmapDepth index : Byte) (strict : Bool) : State :=
  { midDecode true 1 (header 9#8 8#8 0x20#8 3#8 2#8 5#8 2#8 cmapDepth ++ List.replicate 8 1#8) with
    hdr2 := 0x00020005#32
    consts := { Consts.reset with
      rle := true, n := 6, ss := 1, eb := cmapDepth.toNat / 8, rsh := 16#8, gsh := 8#8, ash := 24#8, strictD := strict }
    pktKind := .run, pktRem := 1, slatch := [index] }

theorem paletted_ready (c i : Byte) (st : Bool) : SampleReady true (paletted c i st) :=
  .inr (.inl ⟨rfl, by show 1 ≠ 0; decide, rfl, rfl⟩)

/-- The first and the last index in range. -/
theorem witness_Pal24Result : ∀ i ∈ [5#8, 6#8], SampleReady true (paletted 24#8 i false) ∧
    (paletted 24#8 i false).consts.ss = 1 ∧ (paletted 24#8 i false).consts.eb = 3 ∧
    sampleBytes true (paletted 24#8 i false) = [i] ∧ (paletted 24#8 i false).cmapOrigin ≤ i.toNat ∧
    i.toNat < (paletted 24#8 i false).cmapOrigin + (paletted 24#8 i false).cmapLen ∧
    18 + 3 * (i.toNat - (paletted 24#8 i false).cmapOrigin) + 3 ≤ (paletted 24#8 i false).inLimit :=
  fun i hi => ⟨paletted_ready _ _ _, by revert i; decide +kernel⟩

theorem witness_Pal32Result : ∀ i ∈ [5#8, 6#8], SampleReady true (paletted 32#8 i false) ∧
    (paletted 32#8 i false).consts.ss = 1 ∧ (paletted 32#8 i false).consts.eb = 4 ∧
    sampleBytes true (paletted 32#8 i false) = [i] ∧ (paletted 32#8 i false).cmapOrigin ≤ i.toNat ∧
    i.toNat < (paletted 32#8 i false).cmapOrigin + (paletted 32#8 i false).cmapLen ∧
    18 + 4 * (i.toNat - (paletted 32#8 i false).cmapOrigin) + 4 ≤ (paletted 32#8 i false).inLimit :=
  fun i hi => ⟨paletted_ready _ _ _, by revert i; decide +kernel⟩

/-- The index below the first entry and the one after the last. -/
theorem witness_PaletteOutOfRangePermissive : ∀ i ∈ [4#8, 7#8], SampleReady true (paletted 24#8 i false) ∧
    (paletted 24#8 i false).consts.ss = 1 ∧ (paletted 24#8 i false).consts.strictD = false ∧
    sampleBytes true (paletted 24#8 i false) = [i] ∧
    (i.toNat < (paletted 24#8 i false).cmapOrigin ∨
      (paletted 24#8 i false).cmapOrigin + (paletted 24#8 i false).cmapLen ≤ i.toNat) ∧
    LegalShifts (paletted 24#8 i false).consts.rsh (paletted 24#8 i false).consts.gsh
      (paletted 24#8 i false).consts.bsh (paletted 24#8 i false).consts.ash :=
  fun i hi => ⟨paletted_ready _ _ _, by revert i; decide +kernel⟩

theorem witness_PaletteOutOfRangeStrict : ∀ i ∈ [4#8, 7#8], SampleReady true (paletted 24#8 i true) ∧
    (paletted 24#8 i true).consts.ss = 1 ∧ (paletted 24#8 i true).consts.strictD = true ∧
    sampleBytes true (paletted 24#8 i true) = [i] ∧
    (i.toNat < (paletted 24#8 i true).cmapOrigin ∨
      (paletted 24#8 i true).cmapOrigin + (paletted 24#8 i true).cmapLen ≤ i.toNat) :=
  fun i hi => ⟨paletted_ready _ _ _, by revert i; decide +kernel⟩

/-- A state for each clause: no byte left, and one byte left. -/
theorem witness_PixelOpFetchesPacket :
    (Instr.gs8 true 0#8).slot = .key ∧ keyRle (.gs8 true 0#8) = true ∧
    (packed.pktRem = 0 ∧ packed.inOffset < packed.inLimit) ∧
    (midDecode true 1 []).pktRem = 0 ∧ (midDecode true 1 []).inLimit ≤ (midDecode true 1 []).inOffset := by
  decide +kernel

theorem witness_PackUnpack : LegalShifts 16#8 8#8 0#8 24#8 ∧ LegalShifts 0#8 8#8 16#8 24#8 := by decide

/-- An operation that makes a pixel and one that raises. -/
theorem witness_PixelOpFrame :
    (∃ t, exec (.tc24 false 0#8) (midDecode false 3 [1#8, 2#8, 3#8]) = .next t ∧ t.pixelReady = true) ∧
    (∃ t, exec (.tc24 false 0#8) (midDecode false 3 [1#8, 2#8]) = .next t ∧ (!t.pixelReady) = true) :=
  ⟨next_with (fun t => t.pixelReady) (by decide +kernel), next_with (fun t => !t.pixelReady) (by decide +kernel)⟩

/-! ### Witnesses: addressing -/

/-- The first and the last pixel of an image, for each of the four. -/
theorem witness_OriginWritesPixel :
    ∀ i ∈ [Instr.orgBL 0 0, Instr.orgBR 0 0, Instr.orgTL 0 0, Instr.orgTR 0 0], ∀ n ∈ [0, 5],
      i.slot = .origin ∧ ({ midDecode false 3 [] with pixCount := BitVec.ofNat 32 n } : State).consts.n
        = ({ midDecode false 3 [] with pixCount := BitVec.ofNat 32 n } : State).width
          * ({ midDecode false 3 [] with pixCount := BitVec.ofNat 32 n } : State).height ∧
      ({ midDecode false 3 [] with pixCount := BitVec.ofNat 32 n } : State).position < 6 := by
  decide +kernel

/-- The last position of a row of three, and of an image of three by two. -/
theorem witness_FourMappings : 2 < 3 ∧ 5 < 3 * 2 := by decide

theorem witness_DestPermutation : 0 < 1 * 1 ∧ 5 < 3 * 2 := by decide

theorem witness_PixelStepRefined :
    (flat.Inv ∧ Decoding flat ∧ flat.pixelReady = false ∧ flat.hostQ = []) ∧
    (packed.Inv ∧ Decoding packed ∧ packed.pixelReady = false ∧ packed.hostQ = []) ∧
    (packedShort.Inv ∧ Decoding packedShort ∧ packedShort.pixelReady = false ∧ packedShort.hostQ = []) :=
  ⟨⟨flat_inv, flat_decoding, flat_start.noPixel, flat_start.quiet⟩,
    ⟨packed_inv, packed_decoding, packed_start.noPixel, packed_start.quiet⟩,
    ⟨packedShort_inv, packedShort_decoding, packedShort_start.noPixel, packedShort_start.quiet⟩⟩

/-! ### Witnesses: host commands -/

/-- An idle and a busy state with a CTRL write as the next event. -/
theorem witness_CtrlActionBitsInOrder :
    (∃ s : State, s.busy = false ∧ s.hostQ = [.writeReg 0 0xFFFFFFF7#32]) ∧
    (∃ s : State, s.busy = true ∧ s.hostQ = [.writeReg 0 0xFFFFFFF7#32]) :=
  ⟨⟨{ fresh with hostQ := [.writeReg 0 0xFFFFFFF7#32] }, rfl, rfl⟩,
    ⟨{ fresh with busy := true, hostQ := [.writeReg 0 0xFFFFFFF7#32] }, rfl, rfl⟩⟩

theorem witness_ConfigCommandsResult : fresh.busy = false ∧ ({ fresh with busy := true } : State).busy = true := ⟨rfl, rfl⟩

/-- V1 and V3 are accepted; their data end exactly at L. -/
theorem witness_StartEntersStream :
    ((loaded fileV1).busy = false ∧
      FileAccepted (loaded fileV1) (presetChord false true (loaded fileV1).chord) (.tc24 false 0#8) ∧
      fileN (loaded fileV1) ≠ 0) ∧
    ((loaded fileV3).busy = false ∧
      FileAccepted (loaded fileV3) (presetChord false false (loaded fileV3).chord) (.pal24 false) ∧
      fileN (loaded fileV3) ≠ 0) :=
  ⟨⟨rfl, ⟨by decide +kernel, by decide +kernel, ok_of (by decide +kernel), by decide +kernel, by decide +kernel, by decide +kernel⟩,
      by decide +kernel⟩,
    ⟨rfl, ⟨by decide +kernel, by decide +kernel, ok_of (by decide +kernel), by decide +kernel, by decide +kernel, by decide +kernel⟩,
      by decide +kernel⟩⟩

/-- A header alone, of zero width. -/
def fileEmpty : List Byte := header 2#8 24#8 0x20#8 0#8 2#8 0#8 0#8 0#8

theorem witness_StartEmptyImage : (loaded fileEmpty).busy = false ∧
    FileAccepted (loaded fileEmpty) (presetChord false false (loaded fileEmpty).chord) (.tc24 false 0#8) ∧
    fileN (loaded fileEmpty) = 0 :=
  ⟨rfl, ⟨by decide +kernel, by decide +kernel, ok_of (by decide +kernel), by decide +kernel, by decide +kernel, by decide +kernel⟩,
    by decide +kernel⟩

/-- The files that meet the clauses, each one short of passing its check. -/
theorem witness_StartErrors_early :
    fresh.busy = false ∧ ¬LegalOrder (presetChord true true 0x18000818#32) ∧
    LegalOrder (presetChord true false 0#32) ∧
    (loaded (fileV1.take 17)).inLimit < 18 ∧ 18 ≤ (loaded (fileV1.take 18)).inLimit ∧
    inByte (loaded (header 4#8 24#8 0#8 2#8 2#8 0#8 0#8 0#8)) 2 ∉ [1#8, 2#8, 3#8, 9#8, 10#8, 11#8] ∧
    inByte (loaded (header 1#8 16#8 0#8 2#8 2#8 0#8 0#8 24#8)) 2 ∈ [1#8, 2#8, 3#8, 9#8, 10#8, 11#8] := by
  decide +kernel

theorem witness_StartErrors_depth :
    ∀ op, decodeKey (fileKey (loaded (header 1#8 16#8 0#8 2#8 2#8 0#8 0#8 24#8))) ≠ .ok op := by
  intro op h
  have e : (match decodeKey (fileKey (loaded (header 1#8 16#8 0#8 2#8 2#8 0#8 0#8 24#8))) with
    | .ok _ => false
    | .error r => decide (r = .formatKey)) = true := by decide +kernel
  rw [h] at e
  cases e

theorem witness_StartErrors_late :
    (decodeKey (fileKey { loaded fileV1 with params := { testParams with maxPixels := 3 } }) = .ok (.tc24 false 0#8) ∧
      3 < fileN { loaded fileV1 with params := { testParams with maxPixels := 3 } }) ∧
    (decodeKey (fileKey (loaded (fileV3.take 20))) = .ok (.pal24 false) ∧
      fileN (loaded (fileV3.take 20)) ≤ (loaded (fileV3.take 20)).params.maxPixels ∧ keyModel (.pal24 false) = .pal ∧
      (loaded (fileV3.take 20)).inLimit < fileBase (loaded (fileV3.take 20)) .pal) ∧
    (decodeKey (fileKey (loaded (fileV3.take 21))) = .ok (.pal24 false) ∧
      fileN (loaded (fileV3.take 21)) ≤ (loaded (fileV3.take 21)).params.maxPixels ∧
      fileBase (loaded (fileV3.take 21)) .pal ≤ (loaded (fileV3.take 21)).inLimit ∧ keyRle (.pal24 false) = false ∧
      (loaded (fileV3.take 21)).inLimit
        < fileBase (loaded (fileV3.take 21)) .pal + fileSS (loaded (fileV3.take 21)) * fileN (loaded (fileV3.take 21))) :=
  ⟨⟨ok_of (by decide +kernel), by decide +kernel⟩, ⟨ok_of (by decide +kernel), by decide +kernel⟩,
    ⟨ok_of (by decide +kernel), by decide +kernel⟩⟩

/-- Any idle state for the first clause; a step that is neither a reset nor a START for the second. -/
theorem witness_HeaderLatchedAndKept :
    (loaded fileV1).busy = false ∧ (loaded (fileV1.take 17)).busy = false ∧
    flat.hostQ = [] ∧ (∃ t, step flat = .next t ∧ t.pixelReady = true) :=
  ⟨rfl, rfl, flat_start.quiet, next_with (fun t => t.pixelReady) (by decide +kernel)⟩

/-- One read for each clause: the ten registers, a reserved offset and an unaligned one. -/
theorem witness_RegisterReads :
    ∀ offset ∈ [0x00, 0x04, 0x08, 0x0C, 0x10, 0x14, 0x18, 0x1C, 0x20, 0x24, 0x28, 0x25],
      ({ fresh with hostQ := [.readReg offset] } : State).hostQ = [.readReg offset] := by
  intro offset _
  rfl

/-- One write for each clause. -/
theorem witness_RegisterWrites :
    (∃ s : State, s.hostQ = [.writeReg 0x0C 1#32] ∧ s.busy = true) ∧
    (∃ s : State, s.hostQ = [.writeReg 0x0C 1#32] ∧ s.busy = false) ∧
    (∃ s : State, s.hostQ = [.writeReg 0x10 0xFFFFFFFF#32] ∧ s.busy = false) ∧
    (∃ s : State, s.hostQ = [.writeReg 0x04 1#32] ∧ 0x04 ≠ 0x00 ∧ 0x04 ≠ 0x0C ∧ 0x04 ≠ 0x10) :=
  ⟨⟨{ fresh with busy := true, hostQ := [.writeReg 0x0C 1#32] }, rfl, rfl⟩,
    ⟨{ fresh with hostQ := [.writeReg 0x0C 1#32] }, rfl, rfl⟩,
    ⟨{ fresh with hostQ := [.writeReg 0x10 0xFFFFFFFF#32] }, rfl, rfl⟩,
    ⟨{ fresh with hostQ := [.writeReg 0x04 1#32] }, rfl, by decide, by decide, by decide⟩⟩

/-- The last address inside and the first outside, for each kind of access, and reads of OUT while idle and while BUSY. -/
theorem witness_HostMemoryAccess :
    (∃ s : State, s.hostQ = [.writeIn 1048575 1#8] ∧ 1048575 < 2 ^ s.params.inAddrBits) ∧
    (∃ s : State, s.hostQ = [.readIn 1048575] ∧ 1048575 < 2 ^ s.params.inAddrBits) ∧
    (∃ s : State, s.hostQ = [.readOut 999] ∧ 999 < s.params.maxPixels ∧ s.busy = false) ∧
    (∃ s : State, s.hostQ = [.readOutByte 3999] ∧ 3999 / 4 < s.params.maxPixels ∧ s.busy = false) ∧
    (∃ s : State, s.hostQ = [.readOut 999] ∧ 999 < s.params.maxPixels ∧ s.busy = true) ∧
    (∃ s : State, s.hostQ = [.readOutByte 3999] ∧ 3999 / 4 < s.params.maxPixels ∧ s.busy = true) ∧
    (∃ s : State, s.hostQ = [.writeIn 1048576 1#8] ∧ 2 ^ s.params.inAddrBits ≤ 1048576) ∧
    (∃ s : State, s.hostQ = [.readIn 1048576] ∧ 2 ^ s.params.inAddrBits ≤ 1048576) ∧
    (∃ s : State, s.hostQ = [.readOut 1000] ∧ s.params.maxPixels ≤ 1000) ∧
    (∃ s : State, s.hostQ = [.readOutByte 4000] ∧ s.params.maxPixels ≤ 4000 / 4) ∧
    (∃ s : State, s.hostQ = [.readOutByte 4003] ∧ s.params.maxPixels ≤ 4003 / 4) :=
  ⟨⟨{ fresh with hostQ := [.writeIn 1048575 1#8] }, rfl, by decide +kernel⟩,
    ⟨{ fresh with hostQ := [.readIn 1048575] }, rfl, by decide +kernel⟩,
    ⟨{ fresh with hostQ := [.readOut 999] }, rfl, by decide +kernel⟩,
    ⟨{ fresh with hostQ := [.readOutByte 3999] }, rfl, by decide +kernel⟩,
    ⟨{ fresh with busy := true, hostQ := [.readOut 999] }, rfl, by decide +kernel⟩,
    ⟨{ fresh with busy := true, hostQ := [.readOutByte 3999] }, rfl, by decide +kernel⟩,
    ⟨{ fresh with hostQ := [.writeIn 1048576 1#8] }, rfl, by decide +kernel⟩,
    ⟨{ fresh with hostQ := [.readIn 1048576] }, rfl, by decide +kernel⟩,
    ⟨{ fresh with hostQ := [.readOut 1000] }, rfl, by decide +kernel⟩,
    ⟨{ fresh with hostQ := [.readOutByte 4000] }, rfl, by decide +kernel⟩,
    ⟨{ fresh with hostQ := [.readOutByte 4003] }, rfl, by decide +kernel⟩⟩

/-- A START from idle for the first clause, nothing to do for the second. -/
theorem witness_OnlyStartLeavesIdle :
    (∃ s : State, s.busy = false ∧ ∃ t, step s = .next t ∧ t.busy = true) ∧ fresh.busy = false ∧ BlockMoves fresh [] :=
  ⟨⟨{ loaded fileV1 with hostQ := [.writeReg 0 1#32] }, rfl, next_with (fun t => t.busy) (by decide +kernel)⟩, rfl,
    moves_of_empty rfl⟩

/-- An end by DONE, by ERR and by reset. -/
theorem witness_DecodeEndsOnlyBy :
    (∃ s : State, s.busy = true ∧ ∃ t, step s = .next t ∧ (!t.busy && t.done) = true) ∧
    (packedShort.busy = true ∧ ∃ t, step packedShort = .next t ∧ (!t.busy && t.err) = true) ∧
    (∃ s : State, s.busy = true ∧ s.hostQ = [.reset] ∧ ∃ t, step s = .next t ∧ (!t.busy) = true) :=
  ⟨⟨{ started fileV3 with pixelReady := true }, by decide +kernel,
      next_with (fun t => !t.busy && t.done) (by decide +kernel)⟩,
    ⟨by decide +kernel, next_with (fun t => !t.busy && t.err) (by decide +kernel)⟩,
    ⟨{ flat with hostQ := [.reset] }, by decide +kernel, rfl, next_with (fun t => !t.busy) (by decide +kernel)⟩⟩

theorem witness_StatusKeptWhileIdle : ∃ s : State, s.busy = false ∧ s.hostQ = [.writeReg 0 2#32] ∧
    (2#32).getLsbD 0 = false ∧ ∃ t, step s = .next t ∧ t.err = true :=
  ⟨{ readFailed with hostQ := [.writeReg 0 2#32] }, rfl, rfl, rfl, next_with (fun t => t.err) (by decide +kernel)⟩

/-- Two idle states that differ in OUT, in the last error and in the bytes from L on. -/
theorem witness_StartForgetsHistory : ∃ s t : State, s.busy = false ∧ t.busy = false ∧ s ≠ t ∧ t.params = s.params ∧
    t.chord = s.chord ∧ t.inLen = s.inLen ∧ t.hostQ = s.hostQ ∧ ∀ a, a < s.inLimit → inByte t a = inByte s a :=
  ⟨loaded fileV1, { loaded fileV1 with err := true, errCode := 3#3, out := { epoch := 0, words := [(0, 1#32)] } },
    rfl, rfl, fun h => (by have := congrArg State.err h; revert this; decide +kernel), rfl, rfl, rfl, rfl, fun _ _ => rfl⟩

/-- Two decodes of V1 that differ in what OUT held before. -/
theorem witness_DecodeReadsNothingElse :
    ∃ s t s' : State, s.Inv ∧ SameView s t ∧ s ≠ t ∧ (∀ e ∈ s.hostQ, QuietEvent e) ∧ run 2 s = .next s' := by
  obtain ⟨s', hs, -⟩ := next_with (r := run 2 flat) (fun _ => true) (by decide +kernel)
  refine ⟨flat, { flat with out := { epoch := 0, words := [(9, 1#32)] } }, s', flat_inv, ?_, ?_, ?_, hs⟩
  · exact ⟨rfl, rfl, rfl, rfl, rfl, rfl, rfl, rfl, rfl, rfl, rfl, rfl, rfl, rfl, rfl, rfl, rfl, rfl, rfl,
      ⟨by decide +kernel, by decide +kernel⟩, fun _ => rfl, fun _ => ⟨rfl, fun _ => rfl⟩, fun _ => rfl, fun _ _ => rfl,
      fun _ k hk => (by rw [flat_start.position] at hk; omega)⟩
  · intro h
    have h1 : flat.out.words = [(9, 1#32)] := by rw [h]
    have h2 : flat.out.words = [] := by decide +kernel
    rw [h2] at h1
    cases h1
  · rw [flat_start.quiet]
    intro e he
    cases he

/-- V1 and V2, each with the colours its rule gives. -/
theorem witness_WholeDecode_flat :
    flat.Inv ∧ AtStreamStart flat ∧ decodeKey flat.key = .ok (.tc24 false 0#8) ∧
    StreamOf flat (inBytes flat 18 12) 30 ∧
    (∀ k, k < flat.consts.n → resolve (.tc24 false 0#8) (sampleAt (inBytes flat 18 12) flat.consts.ss k) flat
      = some (.ok ([{ r := 0xFF#8, g := 0#8, b := 0#8, a := 0xFF#8 }, { r := 0#8, g := 0xFF#8, b := 0#8, a := 0xFF#8 },
          { r := 0#8, g := 0#8, b := 0xFF#8, a := 0xFF#8 }, { r := 0x80#8, g := 0x80#8, b := 0x80#8, a := 0xFF#8 }][k]?.getD
          sentinel) flat)) := by
  refine ⟨flat_inv, flat_start, ok_of (by decide +kernel), .inl ⟨by decide +kernel, by decide +kernel, by decide +kernel⟩, ?_⟩
  intro k hk
  have hn : flat.consts.n = 4 := by decide +kernel
  rw [hn] at hk
  have e : ∀ k < 4, bgr (sampleAt (inBytes flat 18 12) flat.consts.ss k)
      = some ([{ r := 0xFF#8, g := 0#8, b := 0#8, a := 0xFF#8 }, { r := 0#8, g := 0xFF#8, b := 0#8, a := 0xFF#8 },
          { r := 0#8, g := 0#8, b := 0xFF#8, a := 0xFF#8 }, { r := 0x80#8, g := 0x80#8, b := 0x80#8, a := 0xFF#8 }][k]?.getD
          sentinel) := by decide +kernel
  simp only [resolve, e k hk, Option.map_some]

theorem witness_WholeDecode_packed :
    packed.Inv ∧ AtStreamStart packed ∧ decodeKey packed.key = .ok (.gs8 true 0#8) ∧
    StreamOf packed [0xAA#8, 0xAA#8] 20 ∧
    (∀ k, k < packed.consts.n → resolve (.gs8 true 0#8) (sampleAt [0xAA#8, 0xAA#8] packed.consts.ss k) packed
      = some (.ok { r := 0xAA#8, g := 0xAA#8, b := 0xAA#8, a := 0xFF#8 } packed)) := by
  refine ⟨packed_inv, packed_start, ok_of (by decide +kernel), .inr ⟨by decide +kernel, by decide +kernel⟩, ?_⟩
  intro k hk
  have hn : packed.consts.n = 2 := by decide +kernel
  rw [hn] at hk
  have e : ∀ k < 2, gray (sampleAt [0xAA#8, 0xAA#8] packed.consts.ss k)
      = some { r := 0xAA#8, g := 0xAA#8, b := 0xAA#8, a := 0xFF#8 } := by decide +kernel
  simp only [resolve, e k hk, Option.map_some]

/-! ### Witnesses: errors, reset and the whole machine -/

theorem witness_ErrorEntry : BlockMoves (raiseError .packetOverrun packed) [] :=
  moves_of_empty (by decide +kernel)

theorem witness_ReadErrorNeverReported : readFailed.Inv ∧ ∃ t, step readFailed = .next t ∧
    (t.errCause == some .read) = true :=
  ⟨readFailed_inv, next_with (fun t => t.errCause == some .read) (by decide +kernel)⟩

/-- A reset when idle, and one during a decode with a word of OUT that the decode has not written. -/
theorem witness_ResetEvent :
    (∃ s : State, s.Inv ∧ s.hostQ = [.reset] ∧ s.busy = false) ∧
    (∃ s : State, s.Inv ∧ s.hostQ = [.reset] ∧ s.busy = true ∧ s.tainted = false ∧
      ∀ k, k < s.position → dest s.consts.flipV s.consts.flipH s.width s.height k ≠ 3) :=
  ⟨⟨{ finished with hostQ := [.reset] },
      inv_of_idle (by decide +kernel) (by decide +kernel) (by decide +kernel), rfl, by decide +kernel⟩,
    ⟨{ flat with hostQ := [.reset], pixCount := 1#32, inPtr := 21#32 },
      inv_of_busy (by decide +kernel) (by decide +kernel) (by decide +kernel), rfl, by decide +kernel,
      by decide +kernel, by decide +kernel⟩⟩

theorem witness_DutyBrokenDraws : ∃ s : State, s.Inv ∧ BlockMoves s [] ∧ s.busy = true ∧ s.tainted = true :=
  ⟨{ flat with tainted := true }, inv_of_busy (by decide +kernel) (by decide +kernel) (by decide +kernel),
    moves_of_empty flat_start.quiet, by decide +kernel, rfl⟩

theorem witness_DecodeTerminates : (flat.Inv ∧ Decoding flat ∧ flat.hostQ = []) ∧
    (packedShort.Inv ∧ Decoding packedShort ∧ packedShort.hostQ = []) :=
  ⟨⟨flat_inv, flat_decoding, flat_start.quiet⟩, ⟨packedShort_inv, packedShort_decoding, packedShort_start.quiet⟩⟩

theorem witness_StepKeepsInvariant : (flat.Inv ∧ ∃ t, step flat = .next t ∧ t.pixelReady = true) ∧
    (packed.Inv ∧ ∃ t, step packed = .next t ∧ (t.pktRem == 2) = true) :=
  ⟨⟨flat_inv, next_with (fun t => t.pixelReady) (by decide +kernel)⟩,
    ⟨packed_inv, next_with (fun t => t.pktRem == 2) (by decide +kernel)⟩⟩

/-- A state for each clause, and for each of the two faults. -/
theorem witness_NeverStuck : (flat.Inv ∧ HeadInRange flat) ∧
    (∃ s : State, s.Inv ∧ ¬HeadInRange s ∧ s.hostQ = [.readIn 1048576]) ∧
    (∃ s : State, s.Inv ∧ ¬HeadInRange s ∧ s.hostQ = [.readOutByte 4003]) :=
  ⟨⟨flat_inv, by show HeadInRange flat; unfold HeadInRange; rw [flat_start.quiet]; trivial⟩,
    ⟨{ finished with hostQ := [.readIn 1048576] },
      inv_of_idle (by decide +kernel) (by decide +kernel) (by decide +kernel),
      by show ¬(1048576 < 2 ^ finished.params.inAddrBits); decide +kernel, rfl⟩,
    ⟨{ finished with hostQ := [.readOutByte 4003] },
      inv_of_idle (by decide +kernel) (by decide +kernel) (by decide +kernel),
      by show ¬(4003 / 4 < finished.params.maxPixels); decide +kernel, rfl⟩⟩

/-- A move of the block during a decode. -/
theorem witness_StepKeepsConfiguration : flat.hostQ = [] ∧ flat.busy = true ∧
    ∃ t, step flat = .next t ∧ t.pixelReady = true :=
  ⟨flat_start.quiet, by decide +kernel, next_with (fun t => t.pixelReady) (by decide +kernel)⟩

/-- The pixel write of V1's first pixel, and the first word it must leave alone. -/
theorem witness_OutWrittenOnlyBelowN : ∃ s : State, s.tainted = false ∧ s.pixelReady = true ∧ s.consts.n ≤ 4 ∧
    ∃ t, step s = .next t ∧ (!t.err && t.pixCount == 1#32) = true :=
  ⟨{ flat with pixelReady := true }, by decide +kernel, rfl, by decide +kernel,
    next_with (fun t => !t.err && t.pixCount == 1#32) (by decide +kernel)⟩

/-- A decode the host left alone, and one it disturbed. -/
theorem witness_InPtrNeverBack :
    (flat.Inv ∧ flat.busy = true ∧ flat.hostQ = [] ∧ ∃ t, step flat = .next t ∧ (t.inPtr == 21#32) = true) ∧
    (∃ s : State, s.Inv ∧ s.busy = true ∧ s.tainted = true ∧ s.hostQ = [] ∧
      ∃ t, step s = .next t ∧ (!t.busy) = true) :=
  ⟨⟨flat_inv, by decide +kernel, flat_start.quiet, next_with (fun t => t.inPtr == 21#32) (by decide +kernel)⟩,
    ⟨{ flat with tainted := true }, inv_of_busy (by decide +kernel) (by decide +kernel) (by decide +kernel),
      by decide +kernel, rfl, flat_start.quiet, next_with (fun t => !t.busy) (by decide +kernel)⟩⟩

/-- A decode that goes on with nothing counted yet, and a finished one of one pixel. -/
theorem witness_EveryPixelWritten :
    (flat.Inv ∧ Covered flat ∧ ∃ t, step flat = .next t ∧ t.pixelReady = true) ∧
    (finished.Inv ∧ Covered finished ∧ finished.done = true ∧ finished.tainted = false ∧
      0 < finished.width * finished.height) :=
  ⟨⟨flat_inv, fun _ _ k hk => (by rw [flat_start.position] at hk; omega),
      next_with (fun t => t.pixelReady) (by decide +kernel)⟩,
    ⟨finished_inv, fun _ _ => (by decide +kernel), by decide +kernel, by decide +kernel, by decide +kernel⟩⟩

end Sys2Proof.Tests
end

section
/-! PROOFS. The latched header (R35): which steps keep HDR0 to HDR2, and what START makes of them. -/

namespace Sys2Proof.Machine

/-! ### HDR0 to HDR2 as one value -/

/-- HDR0, HDR1 and HDR2 (R29 to R31). -/
def State.header (s : State) : Word × Word × Word := (s.hdr0, s.hdr1, s.hdr2)

theorem header_eq_iff {s t : State} : t.header = s.header ↔ t.hdr0 = s.hdr0 ∧ t.hdr1 = s.hdr1 ∧ t.hdr2 = s.hdr2 := by
  simp [State.header]

@[simp] theorem raiseError_header (e : DecodeError) (s : State) : (raiseError e s).header = s.header := rfl

theorem advancePixel_header (s : State) : (advancePixel s).header = s.header := by
  rw [advancePixel_eq]; rfl

theorem beginStream_header (c : Consts) (s : State) : (beginStream c s).header = s.header := by
  unfold beginStream
  by_cases hn : c.n = 0
  · rw [if_pos hn]; rfl
  · rw [if_neg hn]; rfl

theorem regWrite_header (s : State) (offset : Nat) (w : Word) : (regWrite s offset w).header = s.header := by
  unfold regWrite
  split_ifs <;> rfl

/-- A preset writes CHORD only (R182, R183). -/
theorem loadPreset_eq (argb abgr : Bool) (s : State) : ∃ c, loadPreset argb abgr s = { s with chord := c } := by
  cases argb <;> cases abgr <;> exact ⟨_, rfl⟩

/-! ### The fields of the header words -/

theorem extractLsb'_append_low {m n : Nat} (x : BitVec m) (y : BitVec n) : (x ++ y).extractLsb' 0 n = y := by
  rw [BitVec.extractLsb'_append_eq_of_add_le (by omega), BitVec.extractLsb'_eq_self]

theorem extractLsb'_append_high {m n : Nat} (x : BitVec m) (y : BitVec n) : (x ++ y).extractLsb' n m = x := by
  rw [BitVec.extractLsb'_append_eq_of_le (le_refl n), Nat.sub_self, BitVec.extractLsb'_eq_self]

theorem extractLsb'_append_mid {m n k : Nat} (x : BitVec m) (y : BitVec n) (z : BitVec k) :
    (x ++ y ++ z).extractLsb' k n = y := by
  rw [BitVec.extractLsb'_append_eq_of_le (le_refl k), Nat.sub_self, extractLsb'_append_low]

/-- The four fields of HDR0 (R29). -/
theorem fields_of_hdr0 {t : State} {desc cmapDepth depth typ : Byte} (h : t.hdr0 = desc ++ cmapDepth ++ depth ++ typ) :
    t.typ = typ ∧ t.depth = depth ∧ t.cmapDepth = cmapDepth ∧ t.desc = desc := by
  unfold State.typ State.depth State.cmapDepth State.desc
  rw [h]
  refine ⟨extractLsb'_append_low _ typ, extractLsb'_append_mid _ depth typ, ?_, ?_⟩
  · exact (BitVec.extractLsb'_append_eq_of_le (by decide)).trans (extractLsb'_append_mid desc cmapDepth depth)
  · exact (BitVec.extractLsb'_append_eq_of_le (by decide)).trans <|
      (BitVec.extractLsb'_append_eq_of_le (by decide)).trans (extractLsb'_append_high desc cmapDepth)

/-- W and H of HDR1 (R30). -/
theorem fields_of_hdr1 {t : State} {h w : BitVec 16} (e : t.hdr1 = h ++ w) : t.width = w.toNat ∧ t.height = h.toNat := by
  rw [State.width, State.height, e]
  exact ⟨congrArg BitVec.toNat (extractLsb'_append_low h w), congrArg BitVec.toNat (extractLsb'_append_high h w)⟩

/-- CMAP_ORIGIN and CMAP_LEN of HDR2 (R31). -/
theorem fields_of_hdr2 {t : State} {len origin : BitVec 16} (e : t.hdr2 = len ++ origin) :
    t.cmapOrigin = origin.toNat ∧ t.cmapLen = len.toNat := by
  rw [State.cmapOrigin, State.cmapLen, e]
  exact ⟨congrArg BitVec.toNat (extractLsb'_append_low len origin),
    congrArg BitVec.toNat (extractLsb'_append_high len origin)⟩

/-! ### What START latches -/

/-- The header latch as one value (R35). -/
theorem headerLatch_header (s : State) : (headerLatch s).header =
    if 18 ≤ s.inLimit then
      (inByte s 17 ++ inByte s 7 ++ inByte s 16 ++ inByte s 2, le16 s 14 ++ le16 s 12, le16 s 5 ++ le16 s 3)
    else (0, 0, 0) := by
  unfold headerLatch
  split_ifs <;> rfl

/-- The latch depends on IN and IN_LEN alone. -/
theorem headerLatch_header_congr {s t : State} (hm : t.inMem = s.inMem) (hl : t.inLen = s.inLen) :
    (headerLatch t).header = (headerLatch s).header := by
  have hL : t.inLimit = s.inLimit := congrArg BitVec.toNat hl
  have hb : inByte t = inByte s := funext (inByte_congr hm)
  have h16 : le16 t = le16 s := by funext a; rw [le16, le16, hb]
  rw [headerLatch_header, headerLatch_header, hL, hb, h16]

/-- Whatever START's outcome, it leaves the header as the latch made it (R35). -/
theorem start_header (s : State) : (start s).header = (headerLatch s).header := by
  have hlatch : (headerLatch (startEntry s)).header = (headerLatch s).header := headerLatch_header_congr rfl rfl
  rcases start_cases s with ⟨e, -, h⟩ | ⟨c, -, h⟩
  · rw [h, raiseError_header, hlatch]
  · rw [h, beginStream_header, hlatch]

theorem le16_toNat (s : State) (a : Nat) : (le16 s a).toNat = (inByte s a).toNat + 256 * (inByte s (a + 1)).toNat := by
  rw [le16, BitVec.toNat_append, ← Nat.shiftLeft_add_eq_or_of_lt (inByte s a).isLt, Nat.shiftLeft_eq]
  omega

/-- A state whose header is what the latch makes of IN at `s` has the fields at their offsets, 16-bit ones little-endian
(R35, R53), or zeros when L is below 18. -/
theorem headerLatched_of_header_eq {s t : State} (h : t.header = (headerLatch s).header) : HeaderLatched s t := by
  rw [headerLatch_header] at h
  refine ⟨fun hL => ?_, fun hL => ?_⟩
  · rw [if_pos hL, State.header, Prod.mk.injEq, Prod.mk.injEq] at h
    obtain ⟨h0, h1, h2⟩ := h
    obtain ⟨htyp, hdepth, hcmap, hdesc⟩ := fields_of_hdr0 h0
    obtain ⟨hw, hh⟩ := fields_of_hdr1 h1
    obtain ⟨ho, hl⟩ := fields_of_hdr2 h2
    exact ⟨htyp, hdepth, hcmap, hdesc, hw.trans (le16_toNat s 12), hh.trans (le16_toNat s 14),
      ho.trans (le16_toNat s 3), hl.trans (le16_toNat s 5)⟩
  · rwa [if_neg (by omega), State.header, Prod.mk.injEq, Prod.mk.injEq] at h

/-- A CTRL write with START while idle latches the header, whatever its other action bits (R35, R180). -/
theorem ctrlWrite_start_latches {s : State} (hi : s.busy = false) (strict argb abgr : Bool) :
    HeaderLatched s (ctrlWrite true strict argb abgr s) := by
  obtain ⟨c, hc⟩ := loadPreset_eq argb abgr { s with strict := strict }
  refine headerLatched_of_header_eq ?_
  rw [ctrlWrite_idle hi, if_pos rfl, start_header, hc]
  exact headerLatch_header_congr rfl rfl

/-! ### What keeps the header -/

/-- A CTRL write that starts nothing (R180, R186). -/
theorem ctrlWrite_header {s : State} {startBit : Bool} (h : startBit = false ∨ s.busy = true) (strict argb abgr : Bool) :
    (ctrlWrite startBit strict argb abgr s).header = s.header := by
  cases hb : s.busy with
  | true => rw [ctrlWrite_busy hb]
  | false =>
    obtain rfl : startBit = false := h.resolve_right (by simp [hb])
    obtain ⟨c, hc⟩ := loadPreset_eq argb abgr { s with strict := strict }
    rw [ctrlWrite_idle hb, if_neg (by simp), hc]
    rfl

theorem BlockMoved.header {s t : State} (h : BlockMoved s t) : t.header = s.header := by
  cases h with
  | rest | drawn | raised | packet | pixel => rfl
  | wrote => rw [advancePixel_header]; rfl

/-- Only a reset and a START while idle change HDR0 to HDR2 (R35, R230). -/
theorem step_keeps_header {s t : State} (h : step s = .next t) (hr : ∀ q, s.hostQ ≠ .reset :: q)
    (hs : ∀ w q, s.hostQ = .writeReg 0 w :: q → w.getLsbD 0 = false ∨ s.busy = true) : t.header = s.header := by
  cases step_cases h with
  | block q t _ hb => exact hb.header
  | ctrl w q hq => exact ctrlWrite_header (s := s.withQueue q) (hs w q hq) _ _ _
  | writeReg offset w q => exact regWrite_header _ offset w
  | read | writeIn => rfl
  | reset q hq => exact absurd hq (hr q)

/-- Settles O38: START's outcome never touches what the latch wrote, and every other step but a reset keeps it. -/
theorem headerLatchedAndKept : Obligations.HeaderLatchedAndKept :=
  ⟨fun strict argb abgr _ _ hi => ⟨_, rfl, ctrlWrite_start_latches hi strict argb abgr⟩,
    fun _ _ h hr hs => header_eq_iff.1 (step_keeps_header h hr hs)⟩

end Sys2Proof.Machine
end

section
/-! PROOFS. The one-byte encodings of 30_encoding.md: what the fields of a packet header, an image type code and an origin
descriptor say. -/

namespace Sys2Proof

/-! ### Packet headers -/

/-- h[6:0] is h mod 128 (R72). -/
theorem packetCount_eq (h : Byte) : packetCount h = h.toNat % 128 + 1 := by
  rw [packetCount, BitVec.extractLsb'_toNat, Nat.shiftRight_zero]

/-- Bit 7 of a header is set exactly from 128 on (R70). -/
theorem headerBit7_iff (h : Byte) : h.getLsbD 7 = true ↔ 128 ≤ h.toNat := by
  rw [← BitVec.msb_eq_getLsbD_last h, BitVec.msb_eq_true_iff_two_mul_ge]
  omega

/-- Settles O3: bit 7 and the low seven bits of a header byte are its quotient and remainder by 128. -/
theorem packetHeaderDecode : Obligations.PacketHeaderDecode := by
  intro h rest
  rw [decode, Machine.decodePacket_eq, packetCount_eq]
  simp only [headerBit7_iff]

/-! ### Image type codes -/

/-- TYPE[1:0] of a colour model (R74). -/
def ColorModel.code : ColorModel → BitVec 2
  | .pal => 1
  | .tc => 2
  | .gs => 3

theorem ColorModel.eq_code_iff {x : BitVec 2} {m : ColorModel} :
    x = m.code ↔ (x = 1 ∧ m = .pal) ∨ (x = 2 ∧ m = .tc) ∨ (x = 3 ∧ m = .gs) := by
  cases m <;> simp [ColorModel.code]

/-- A type code by its fields: TYPE[7:4], RLE, TYPE[2] and the model (R74). -/
theorem encodeType_eq_fields (rle : Bool) (m : ColorModel) :
    encodeType rle m = (0 : BitVec 4) ++ BitVec.ofBool rle ++ BitVec.ofBool false ++ m.code := by
  cases rle <;> cases m <;> rfl

/-- A byte is its bits 7:4, 3, 2 and 1:0. -/
theorem byte_eq_fields (t : Byte) :
    t.extractLsb' 4 4 ++ BitVec.ofBool (t.getLsbD 3) ++ BitVec.ofBool (t.getLsbD 2) ++ t.extractLsb' 0 2 = t := by
  revert t; decide

theorem eq_encodeType_iff {t : Byte} {rle : Bool} {m : ColorModel} : t = encodeType rle m ↔
    t.extractLsb' 4 4 = 0 ∧ t.getLsbD 2 = false ∧ rle = t.getLsbD 3 ∧ t.extractLsb' 0 2 = m.code := by
  constructor
  · rintro rfl
    cases rle <;> cases m <;> decide
  · rintro ⟨hhigh, hbit2, rfl, hmodel⟩
    rw [encodeType_eq_fields, ← hhigh, ← hbit2, ← hmodel, byte_eq_fields]

/-- The six legal codes are those of the three models, with and without RLE (R74). -/
theorem mem_imageTypes_iff {t : Byte} :
    t ∈ [1#8, 2#8, 3#8, 9#8, 10#8, 11#8] ↔ ∃ rle m, t = encodeType rle m := by
  constructor
  · simp only [List.mem_cons, List.not_mem_nil, or_false]
    rintro (rfl | rfl | rfl | rfl | rfl | rfl)
    exacts [⟨false, .pal, rfl⟩, ⟨false, .tc, rfl⟩, ⟨false, .gs, rfl⟩, ⟨true, .pal, rfl⟩, ⟨true, .tc, rfl⟩,
      ⟨true, .gs, rfl⟩]
  · rintro ⟨rle, m, rfl⟩
    cases rle <;> cases m <;> decide

theorem imageType_eq_none_iff {t : Byte} : imageType t = none ↔ t ∉ [1#8, 2#8, 3#8, 9#8, 10#8, 11#8] := by
  rw [mem_imageTypes_iff, Option.eq_none_iff_forall_ne_some]
  simp [imageType_eq_some]

/-- Settles O4: what is accepted is a model's code, and such a code is its four fields. -/
theorem imageTypeDecode : Obligations.ImageTypeDecode := by
  intro t
  refine ⟨imageType_eq_none_iff, fun rle m => ?_⟩
  rw [imageType_eq_some, eq_encodeType_iff, ColorModel.eq_code_iff]

/-! ### Origin descriptors -/

namespace Machine

/-- Settles O6: bits 5 and 4 alone select the mapping a descriptor's pixel write uses, and it is that of the selected row. -/
theorem originBitsOnly : Obligations.OriginBitsOnly := by
  intro d rest s
  refine ⟨decodeOrigin d, rfl, ?_⟩
  rw [exec_decodeOrigin]
  cases d.getLsbD 5 <;> cases d.getLsbD 4 <;> rfl

end Machine

end Sys2Proof
end

section
/-! PROOFS. The RLE expander (40_rle_expander.md): what the deliveries of one packet are (R102, R103), and that taking the
samples of a whole image one after another is Expand (R111). -/

namespace Sys2Proof.Machine

/-! ### Reads of IN after a packet or a pixel -/

theorem inBytes_eq_of_inMem {s t : State} (h : t.inMem = s.inMem) (a n : Nat) : inBytes t a n = inBytes s a n :=
  inBytes_congr fun _ _ => inByte_congr h _

@[simp] theorem inBytes_withPacket (s : State) (p : Word) (r : Nat) (k : PktKind) (l : List Byte) (a n : Nat) :
    inBytes (s.withPacket p r k l) a n = inBytes s a n :=
  inBytes_eq_of_inMem (s := s) (t := s.withPacket p r k l) rfl a n

/-- Consecutive groups of bytes are one run of bytes. -/
theorem flatten_inBytes (s : State) (a ss m : Nat) :
    ((List.range m).map fun j => inBytes s (a + j * ss) ss).flatten = inBytes s a (m * ss) := by
  induction m with
  | zero => simp [inBytes]
  | succ m ih => simp [List.range_succ, ih, Nat.succ_mul, inBytes_append]

/-- The bytes Expand reads through `inByte` are those the machine reads. -/
theorem readBytes_inByte (s : State) (a n : Nat) : readBytes (inByte s) a n = inBytes s a n := by
  induction n generalizing a with
  | zero => rfl
  | succ n ih => rw [readBytes, inBytes, ih]

/-! ### IN_PTR -/

/-- Adding to a 32-bit register is exact while the sum fits it. -/
theorem toNat_add_ofNat {x : Word} {d : Nat} (h : x.toNat + d < 2 ^ 32) :
    (x + BitVec.ofNat 32 d).toNat = x.toNat + d := by
  rw [BitVec.toNat_add, BitVec.toNat_ofNat, Nat.add_mod_mod, Nat.mod_eq_of_lt h]

/-- IN_PTR after a header byte below L (R22). -/
theorem inPtr_past_header {s : State} (h : s.inOffset + 1 ≤ s.inLimit) : (s.inPtr + 1).toNat = s.inOffset + 1 :=
  toNat_add_ofNat (d := 1) (Nat.lt_of_le_of_lt h s.inLen.isLt)

/-- IN_PTR after the header byte and `d` bytes of a packet that lies below L (R22). -/
theorem inPtr_past_packet {s : State} {d : Nat} (h : s.inOffset + 1 + d ≤ s.inLimit) :
    (s.inPtr + 1 + BitVec.ofNat 32 d).toNat = s.inOffset + 1 + d := by
  have hheader := inPtr_past_header (Nat.le_of_add_right_le h)
  rw [toNat_add_ofNat (hheader ▸ Nat.lt_of_le_of_lt h s.inLen.isLt), hheader]

/-! ### The packet a header announces -/

/-- A RUN that fits (R101, R102). -/
theorem takePacket_run {count : Nat} {s : State} (hn : s.position + count ≤ s.consts.n)
    (hp : s.inOffset + 1 + s.consts.ss ≤ s.inLimit) :
    takePacket .run count s = .ok () (s.withPacket (s.inPtr + 1 + BitVec.ofNat 32 s.consts.ss) count .run
      (inBytes s (s.inOffset + 1) s.consts.ss)) := by
  rcases takePacket_cases .run count s with ⟨h, -⟩ | ⟨-, h, -⟩ | ⟨-, -, -, h⟩ | ⟨-, h, -⟩
  · omega
  · exact absurd hp (by simpa [packetBody] using h)
  · exact h
  · cases h

/-- A RAW that fits (R101, R103). -/
theorem takePacket_raw {count : Nat} {s : State} (hn : s.position + count ≤ s.consts.n)
    (hp : s.inOffset + 1 + count * s.consts.ss ≤ s.inLimit) :
    takePacket .raw count s = .ok () (s.withPacket (s.inPtr + 1) count .raw s.slatch) := by
  rcases takePacket_cases .raw count s with ⟨h, -⟩ | ⟨-, h, -⟩ | ⟨-, h, -⟩ | ⟨-, -, -, h⟩
  · omega
  · exact absurd hp (by simpa [packetBody] using h)
  · cases h
  · exact h

/-! ### The deliveries of one packet -/

theorem deliver_of_run {s : State} (h : s.pktKind = .run) :
    deliver s = .ok s.slatch { s with pktRem := s.pktRem - 1 } := by
  rw [deliver, h]

theorem deliver_of_raw {s : State} (hk : s.pktKind = .raw) (h : s.inOffset + s.consts.ss ≤ s.inLimit) :
    deliver s = .ok (inBytes s s.inOffset s.consts.ss)
      { s with inPtr := s.inPtr + BitVec.ofNat 32 s.consts.ss, pktRem := s.pktRem - 1 } := by
  rw [deliver, hk, memRead_of_le h]

/-- A delivery of a raw packet whose sample lies below L. -/
theorem deliver_withPacket_raw {s : State} {p : Word} {r : Nat} {l : List Byte}
    (h : p.toNat + s.consts.ss ≤ s.inLimit) :
    deliver (s.withPacket p (r + 1) .raw l) = .ok (inBytes s p.toNat s.consts.ss)
      (s.withPacket (p + BitVec.ofNat 32 s.consts.ss) r .raw l) := by
  rw [deliver_of_raw (s := s.withPacket p (r + 1) .raw l) rfl h, inBytes_withPacket]
  rfl

theorem deliverAll_succ {m : Nat} {s u : State} {smps : List (List Byte)} : deliverAll (m + 1) s = .ok smps u ↔
    ∃ smp t rest, deliver s = .ok smp t ∧ deliverAll m t = .ok rest u ∧ smps = smp :: rest := by
  rw [deliverAll]
  cases deliver s with
  | raised t => simp
  | ok smp t => cases h : deliverAll m t <;> simp [h, eq_comm, and_comm]

/-- Deliveries of a run packet repeat SLATCH and change PKT_REM alone (R102). -/
theorem deliverAll_run (m : Nat) (s : State) (p : Word) (l : List Byte) :
    deliverAll m (s.withPacket p m .run l) = .ok (List.replicate m l) (s.withPacket p 0 .run l) := by
  induction m with
  | zero => rfl
  | succ m ih => exact deliverAll_succ.2 ⟨l, _, _, deliver_of_run rfl, ih, List.replicate_succ⟩

/-- Deliveries of a raw packet are the groups of SS bytes from IN_PTR on, and change IN_PTR and PKT_REM alone (R103). -/
theorem deliverAll_raw (m : Nat) (s : State) (p : Word) (l : List Byte)
    (h : p.toNat + m * s.consts.ss ≤ s.inLimit) :
    deliverAll m (s.withPacket p m .raw l) =
      .ok ((List.range m).map fun j => inBytes s (p.toNat + j * s.consts.ss) s.consts.ss)
        (s.withPacket (p + BitVec.ofNat 32 (m * s.consts.ss)) 0 .raw l) := by
  induction m generalizing p with
  | zero => simp [deliverAll]
  | succ m ih =>
    rw [Nat.succ_mul, Nat.add_comm (m * _), ← Nat.add_assoc] at h
    have hfirst : p.toNat + s.consts.ss ≤ s.inLimit := Nat.le_of_add_right_le h
    have hptr : (p + BitVec.ofNat 32 s.consts.ss).toNat = p.toNat + s.consts.ss :=
      toNat_add_ofNat (Nat.lt_of_le_of_lt hfirst s.inLen.isLt)
    have hrest := ih (p + BitVec.ofNat 32 s.consts.ss) (hptr ▸ h)
    rw [BitVec.add_assoc, ← BitVec.ofNat_add, Nat.add_comm s.consts.ss, ← Nat.succ_mul] at hrest
    refine deliverAll_succ.2 ⟨_, _, _, deliver_withPacket_raw hfirst, hrest, ?_⟩
    simp [List.range_succ_eq_map, hptr, Nat.succ_mul, Nat.add_assoc, Nat.add_comm s.consts.ss]

/-- Deliveries from the state RAW leaves: the packet's samples start past its header byte. -/
theorem deliverAll_raw_packet {count : Nat} {s : State} (hp : s.inOffset + 1 + count * s.consts.ss ≤ s.inLimit) :
    deliverAll count (s.withPacket (s.inPtr + 1) count .raw s.slatch) =
      .ok ((List.range count).map fun j => inBytes s (s.inOffset + 1 + j * s.consts.ss) s.consts.ss)
        (s.withPacket (s.inPtr + 1 + BitVec.ofNat 32 (count * s.consts.ss)) 0 .raw s.slatch) := by
  have hfirst : (s.inPtr + 1).toNat = s.inOffset + 1 := inPtr_past_header (Nat.le_of_add_right_le hp)
  rw [deliverAll_raw count s (s.inPtr + 1) s.slatch (hfirst ▸ hp), hfirst]

/-- Settles O13: RUN latches the one sample of its packet, and every delivery answers the latch. -/
theorem runPacketDelivers : Obligations.RunPacketDelivers := fun count s hn hp =>
  ⟨_, _, congrArg packetResult (takePacket_run hn hp), deliverAll_run count s _ _, inPtr_past_packet hp, rfl⟩

/-- Settles O14: RAW leaves IN_PTR at the first sample of its packet, and every delivery moves it past the next. -/
theorem rawPacketDelivers : Obligations.RawPacketDelivers := fun _ _ hn hp =>
  ⟨_, _, congrArg packetResult (takePacket_raw hn hp), deliverAll_raw_packet hp, inPtr_past_packet hp, rfl⟩

end Sys2Proof.Machine
end

section
/-! PROOFS. Expand (R111) against the step rules: each turn of its loop is one packet, whose header is taken and whose
samples are delivered before the next header is due (R100, R101). -/

namespace Sys2Proof.Machine

/-! ### One turn of Expand's loop -/

/-- The kind of packet a header byte announces (R70). -/
def headerKind (h : Byte) : PktKind := if h.getLsbD 7 then .run else .raw

/-- The samples Expand appends for a packet, from the bytes after its header (R111). -/
def packetStream (rd : Nat → Byte) (kind : PktKind) (count ss a : Nat) : List Byte :=
  match kind with
  | .run => (List.replicate count (readBytes rd a ss)).flatten
  | .raw => readBytes rd a (count * ss)

section
variable {rd : Nat → Byte} {limit ss n fuel k p : Nat} {out : List Byte}

theorem expandFrom_done (h : n ≤ k) : expandFrom rd limit ss n fuel out k p = .stream out p := by
  cases fuel with
  | zero => rfl
  | succ fuel => rw [expandFrom, if_pos h]

theorem expandFrom_noHeader (hk : k < n) (h : limit ≤ p) :
    expandFrom rd limit ss n (fuel + 1) out k p = .failed (.truncatedInput .packet) k p := by
  rw [expandFrom, if_neg (by omega), if_pos (by omega)]

theorem expandFrom_overrun (hk : k < n) (hp : p < limit) (h : n - k < packetCount (rd p)) :
    expandFrom rd limit ss n (fuel + 1) out k p = .failed .packetOverrun k p := by
  rw [expandFrom, if_neg (by omega), if_neg (by omega), if_pos h]

theorem expandFrom_short (hk : k < n) (hp : p < limit) (hc : packetCount (rd p) ≤ n - k)
    (h : limit < p + 1 + packetBody (headerKind (rd p)) (packetCount (rd p)) ss) :
    expandFrom rd limit ss n (fuel + 1) out k p = .failed (.truncatedInput .packet) k p := by
  rw [expandFrom, if_neg (by omega), if_neg (by omega), if_neg (by omega)]
  unfold headerKind at h
  cases hbit : (rd p).getLsbD 7 <;> rw [hbit] at h <;> exact if_pos h

theorem expandFrom_packet (hk : k < n) (hp : p < limit) (hc : packetCount (rd p) ≤ n - k)
    (h : p + 1 + packetBody (headerKind (rd p)) (packetCount (rd p)) ss ≤ limit) :
    expandFrom rd limit ss n (fuel + 1) out k p = expandFrom rd limit ss n fuel
      (out ++ packetStream rd (headerKind (rd p)) (packetCount (rd p)) ss (p + 1)) (k + packetCount (rd p))
      (p + 1 + packetBody (headerKind (rd p)) (packetCount (rd p)) ss) := by
  rw [expandFrom, if_neg (by omega), if_neg (by omega), if_neg (by omega)]
  unfold headerKind at h ⊢
  cases hbit : (rd p).getLsbD 7 <;> rw [hbit] at h <;> exact if_neg (Nat.not_lt.2 h)

end

/-! ### One turn of the step rules -/

/-- A state with another PIX_COUNT. -/
def State.withPixCount (s : State) (c : Word) : State := { s with pixCount := c }

/-- A delivery does not look at PIX_COUNT. -/
theorem deliver_withPixCount {s t : State} {smp : List Byte} (h : deliver s = .ok smp t) (c : Word) :
    deliver (s.withPixCount c) = .ok smp (t.withPixCount c) := by
  rcases deliver_cases s with ⟨hk, e⟩ | ⟨hk, hb, e⟩ | ⟨-, -, e⟩ <;> rw [e] at h <;> cases h
  · exact deliver_of_run (s := s.withPixCount c) hk
  · refine (deliver_of_raw (s := s.withPixCount c) hk hb).trans ?_
    rw [inBytes_eq_of_inMem (s := s) (t := s.withPixCount c) rfl]
    rfl

theorem deliver_pktRem {s t : State} {smp : List Byte} (h : deliver s = .ok smp t) : t.pktRem = s.pktRem - 1 := by
  rcases deliver_cases s with ⟨-, e⟩ | ⟨-, -, e⟩ | ⟨-, -, e⟩ <;> rw [e] at h <;> cases h <;> rfl

/-- Taking samples of a packet that still has them is delivering them, with PIX_COUNT stepping (R100, R167). -/
theorem collect_deliverAll {m j : Nat} {out : List Byte} {s u : State} {smps : List (List Byte)} {c : Word}
    (h : deliverAll m s = .ok smps u) (hm : m ≤ s.pktRem) :
    collect (m + j) out (s.withPixCount c) = collect j (out ++ smps.flatten) (u.withPixCount (c + BitVec.ofNat 32 m)) := by
  induction m generalizing out s smps c with
  | zero => cases h; simp
  | succ m ih =>
    obtain ⟨smp, t, rest, hd, hrest, rfl⟩ := deliverAll_succ.1 h
    have hnext : nextSample true (s.withPixCount c) = .ok smp (t.withPixCount c) :=
      (nextSample_packet (s := s.withPixCount c) (show s.pktRem ≠ 0 by omega)).trans (deliver_withPixCount hd c)
    have hstep := ih (out := out ++ smp) (c := c + 1) hrest (by rw [deliver_pktRem hd]; omega)
    rw [show m + 1 + j = (m + j) + 1 by omega, collect, hnext]
    refine hstep.trans ?_
    rw [List.flatten_cons, List.append_assoc, BitVec.add_assoc, Nat.add_comm m 1, BitVec.ofNat_add]
    rfl

/-- A packet that fits delivers the samples Expand appends for it and moves IN_PTR past its body (R102, R103). -/
theorem takePacket_delivers {kind : PktKind} {count : Nat} {s : State} (hn : s.position + count ≤ s.consts.n)
    (hp : s.inOffset + 1 + packetBody kind count s.consts.ss ≤ s.inLimit) : ∃ q p l smps,
    takePacket kind count s = .ok () (s.withPacket q count kind l) ∧
    deliverAll count (s.withPacket q count kind l) = .ok smps (s.withPacket p 0 kind l) ∧
    smps.flatten = packetStream (inByte s) kind count s.consts.ss (s.inOffset + 1) ∧
    p.toNat = s.inOffset + 1 + packetBody kind count s.consts.ss := by
  cases kind with
  | run =>
    refine ⟨_, _, _, _, takePacket_run hn hp, deliverAll_run count s _ _, ?_, inPtr_past_packet hp⟩
    rw [packetStream, readBytes_inByte]
  | raw =>
    refine ⟨_, _, _, _, takePacket_raw hn hp, deliverAll_raw_packet hp, ?_, inPtr_past_packet hp⟩
    rw [packetStream, readBytes_inByte, flatten_inBytes]

theorem takePacket_overrun {kind : PktKind} {count : Nat} {s : State} (h : s.consts.n - s.position < count) :
    takePacket kind count s = .raised (raiseError .packetOverrun s) := if_pos h

theorem takePacket_short {kind : PktKind} {count : Nat} {s : State} (hc : count ≤ s.consts.n - s.position)
    (h : s.inLimit < s.inOffset + 1 + packetBody kind count s.consts.ss) :
    takePacket kind count s = .raised (raiseError (.truncatedInput .packet) s) :=
  (if_neg (Nat.not_lt.2 hc)).trans (if_pos h)

theorem collect_raised {m : Nat} {out : List Byte} {s t : State} (hr : s.pktRem = 0)
    (hf : fetchPacket s = .raised t) : collect (m + 1) out s = .raised t := by
  rw [collect, nextSample_fetch hr, hf]

/-- A header due is taken with the first sample of its packet (R100). -/
theorem collect_fetch {m : Nat} {out : List Byte} {s t : State} (hr : s.pktRem = 0) (hf : fetchPacket s = .ok () t)
    (ht : t.pktRem ≠ 0) : collect (m + 1) out s = collect (m + 1) out t := by
  rw [collect, collect, nextSample_fetch hr, hf, nextSample_packet ht]

/-- Taking all samples of a packet that fits gives what Expand appends for it and leaves the next header due, with
PIX_COUNT past its samples and IN_PTR past its body; the input and the decode constants stay. -/
theorem collect_packet {kind : PktKind} {count : Nat} {s : State} (hr : s.pktRem = 0)
    (hf : fetchPacket s = takePacket kind count s) (hc : 1 ≤ count) (hn : s.position + count ≤ s.consts.n)
    (hN : s.consts.n < 2 ^ 32) (hp : s.inOffset + 1 + packetBody kind count s.consts.ss ≤ s.inLimit) :
    ∃ t, (∀ j out, collect (count + j) out s =
        collect j (out ++ packetStream (inByte s) kind count s.consts.ss (s.inOffset + 1)) t) ∧
      t.pktRem = 0 ∧ t.position = s.position + count ∧
      t.inOffset = s.inOffset + 1 + packetBody kind count s.consts.ss ∧
      t.consts = s.consts ∧ t.inLimit = s.inLimit ∧ inByte t = inByte s := by
  obtain ⟨q, p, l, smps, htake, hdeliver, hsmps, hptr⟩ := takePacket_delivers hn hp
  refine ⟨(s.withPacket p 0 kind l).withPixCount (s.pixCount + BitVec.ofNat 32 count), fun j out => ?_, rfl,
    toNat_add_ofNat (Nat.lt_of_le_of_lt hn hN), hptr, rfl, rfl, rfl⟩
  have hfetch : collect (count + j) out s = collect (count + j) out (s.withPacket q count kind l) := by
    obtain ⟨m, rfl⟩ : ∃ m, count = m + 1 := ⟨count - 1, by omega⟩
    rw [Nat.add_right_comm]
    exact collect_fetch hr (hf.trans htake) (Nat.succ_ne_zero m)
  rw [hfetch, ← hsmps]
  exact collect_deliverAll hdeliver (le_refl count)

/-! ### The whole stream -/

/-- The result of taking an image's `n` samples is what Expand answers, or its error at its position and offset (R111). -/
def Delivers (n : Nat) (r : Eff (List Byte)) : Expanded → Prop
  | .stream out p => ∃ t, r = .ok out t ∧ t.inOffset = p ∧ t.position = n ∧ t.pktRem = 0
  | .failed e k p => ∃ t, r = .raised t ∧ t.err = true ∧ t.errCode.toNat = errorNumber e ∧ t.errCause = e.cause? ∧
      t.position = k ∧ t.inOffset = p

theorem code_toNat (e : DecodeError) : e.code.toNat = errorNumber e := by
  cases e <;> rfl

theorem delivers_raised (n : Nat) (e : DecodeError) (s : State) :
    Delivers n (.raised (raiseError e s)) (.failed e s.position s.inOffset) :=
  ⟨_, rfl, rfl, code_toNat e, rfl, rfl, rfl⟩

/-- A header fetch that raises where a sample is still due. -/
theorem delivers_failed {out : List Byte} {s : State} {e : DecodeError} (hr : s.pktRem = 0)
    (hleft : s.position < s.consts.n) (hf : fetchPacket s = .raised (raiseError e s)) :
    Delivers s.consts.n (collect (s.consts.n - s.position) out s) (.failed e s.position s.inOffset) := by
  obtain ⟨m, hm⟩ : ∃ m, s.consts.n - s.position = m + 1 := ⟨s.consts.n - s.position - 1, by omega⟩
  rw [hm, collect_raised hr hf]
  exact delivers_raised _ e s

/-- Expand's loop, entered where a packet header is due: every turn is one packet. -/
theorem collect_delivers (fuel : Nat) {s : State} {out : List Byte} (hr : s.pktRem = 0)
    (hk : s.position ≤ s.consts.n) (hn : s.consts.n < 2 ^ 32) (hfuel : s.consts.n - s.position ≤ fuel) :
    Delivers s.consts.n (collect (s.consts.n - s.position) out s)
      (expandFrom (inByte s) s.inLimit s.consts.ss s.consts.n fuel out s.position s.inOffset) := by
  induction fuel generalizing s out with
  | zero =>
    rw [Nat.le_zero.1 hfuel]
    exact ⟨s, rfl, rfl, by omega, hr⟩
  | succ fuel ih =>
    rcases Nat.eq_or_lt_of_le hk with hdone | hleft
    · rw [expandFrom_done hdone.ge, hdone, Nat.sub_self]
      exact ⟨s, rfl, rfl, hdone, hr⟩
    rcases fetchHeader_cases s with ⟨hL, hheader⟩ | ⟨hL, -⟩
    · rw [expandFrom_noHeader hleft hL]
      exact delivers_failed hr hleft (by rw [fetchPacket, hheader])
    have hfetch : fetchPacket s =
        takePacket (headerKind (inByte s s.inOffset)) (packetCount (inByte s s.inOffset)) s := fetchPacket_of_header hL
    rcases Nat.lt_or_ge (s.consts.n - s.position) (packetCount (inByte s s.inOffset)) with hover | hcount
    · rw [expandFrom_overrun hleft hL hover]
      exact delivers_failed hr hleft (hfetch.trans (takePacket_overrun hover))
    rcases Nat.lt_or_ge s.inLimit (s.inOffset + 1 + packetBody (headerKind (inByte s s.inOffset))
        (packetCount (inByte s s.inOffset)) s.consts.ss) with hshort | hfits
    · rw [expandFrom_short hleft hL hcount hshort]
      exact delivers_failed hr hleft (hfetch.trans (takePacket_short hcount hshort))
    have hroom : s.position + packetCount (inByte s s.inOffset) ≤ s.consts.n := by omega
    have hpos := packetCount_pos (inByte s s.inOffset)
    obtain ⟨t, hcollect, htr, htpos, htoff, htc, htl, htm⟩ := collect_packet hr hfetch hpos hroom hn hfits
    have hrest := @ih t (out ++ packetStream (inByte s) (headerKind (inByte s s.inOffset))
      (packetCount (inByte s s.inOffset)) s.consts.ss (s.inOffset + 1)) htr
    rw [htc, htpos, htoff, htl, htm] at hrest
    rw [expandFrom_packet hleft hL hcount hfits, ← Nat.add_sub_of_le hcount, Nat.sub_sub, hcollect]
    exact hrest hroom hn (by omega)

/-- N fits PIX_COUNT while BUSY (R32). -/
theorem streaming_n_lt {s : State} (h : s.Streaming) : s.consts.n < 2 ^ 32 := by
  obtain ⟨op, -, -, -, -, hc, -⟩ := streaming_consts h
  rw [hc]
  exact pixels_lt s

/-- Settles O16: Expand is its loop entered at position 0 and offset BASE, where START leaves the machine. -/
theorem expandRefined : Obligations.ExpandRefined := by
  intro s hinv hstart _
  have hn := streaming_n_lt (hinv.streaming hstart.decoding.1)
  have h := collect_delivers s.consts.n (out := []) hstart.noPacket (by rw [hstart.position]; exact Nat.zero_le _) hn
    (Nat.sub_le _ _)
  rw [hstart.position, hstart.pointer, Nat.sub_zero, ← expand] at h
  refine ⟨fun out p he => ?_, fun e k p he => ?_⟩
  · rwa [he] at h
  · rwa [he] at h

end Sys2Proof.Machine
end

section
/-! PROOFS. The pixel operations (41_pixel_reconstruct.md): a sample at hand is taken without a raise and resolved into
channels (R130 to R134), an index out of range gives the sentinel or the error (R138, R139), and a packed word is its four
bytes on disjoint places that cover it (R140, R141). -/

namespace Sys2Proof.Machine

/-! ### A sample at hand -/

/-- The state after a sample at hand was taken: its pointer and its count have moved (R100, R109). -/
def State.sampleTaken (rle : Bool) (s : State) : State :=
  { s with inPtr := sampleEnd rle s, pktRem := sampleRem rle s }

section
variable {rle : Bool} {s : State}

theorem sampleBytes_length (h : SampleReady rle s) : (sampleBytes rle s).length = s.consts.ss := by
  rcases h with ⟨rfl, -⟩ | ⟨rfl, -, hk, hlen⟩ | ⟨rfl, -, hk, -⟩
  · exact inBytes_length _ _ _
  · simpa [sampleBytes, hk] using hlen
  · simp [sampleBytes, hk]

/-- Taking a sample at hand cannot raise, and gives its bytes (R100, R109). -/
theorem nextSample_of_ready (h : SampleReady rle s) :
    nextSample rle s = .ok (sampleBytes rle s) (s.sampleTaken rle) := by
  rcases h with ⟨rfl, hb⟩ | ⟨rfl, hr, hk, -⟩ | ⟨rfl, hr, hk, hb⟩
  · rw [Nat.succ_mul, ← Nat.add_assoc] at hb
    rw [nextSample_flat, rawSample, memRead_of_le hb]
    rfl
  · rw [nextSample_packet hr, deliver_of_run hk]
    simp [State.sampleTaken, sampleBytes, sampleEnd, sampleRem, hk]
  · rw [nextSample_packet hr, deliver_of_raw hk hb]
    simp [State.sampleTaken, sampleBytes, sampleEnd, sampleRem, hk]

/-! ### A sample that is the colour -/

/-- An operation whose resolver takes the sample completes with its colour (R131 to R134, R143). -/
theorem directPixel_of_ready {resolve : List Byte → Option Rgba} {smp : List Byte} {c : Rgba} (h : SampleReady rle s)
    (hb : sampleBytes rle s = smp) (hc : resolve smp = some c) :
    directPixel rle resolve s = .next (afterPixel rle s c s.palOor) := by
  rw [directPixel_ok (nextSample_of_ready h), hb, hc]
  rfl

/-! ### An index out of range -/

/-- Both palette operations do the same with an index out of range, once its sample is taken (R135). -/
theorem palettePixel_outOfRange {index : Byte} (h : SampleReady rle s) (hb : sampleBytes rle s = [index])
    (hout : index.toNat < s.cmapOrigin ∨ s.cmapOrigin + s.cmapLen ≤ index.toNat) (entry : List Byte → Option Rgba) :
    palettePixel rle entry s = .next (indexOutOfRange (s.sampleTaken rle)) := by
  have hoffset : ¬(0 ≤ paletteOffset s index ∧ paletteOffset s index < (s.cmapLen : Int)) := by
    unfold paletteOffset
    omega
  have hlookup : palLookup index (s.sampleTaken rle) = .ok none (s.sampleTaken rle) := if_neg hoffset
  rw [palettePixel_ok (hb ▸ nextSample_of_ready h), palettePixelOf, hlookup]

/-- In permissive mode the sentinel is packed and PAL_OOR set (R138). -/
theorem indexOutOfRange_permissive (h : s.consts.strictD = false) :
    indexOutOfRange (s.sampleTaken rle) = afterPixel rle s sentinel true :=
  if_neg (show ¬s.consts.strictD = true by simp [h])

/-- In strict mode the error is raised (R139). -/
theorem indexOutOfRange_strict (h : s.consts.strictD = true) :
    indexOutOfRange (s.sampleTaken rle) = raiseError .paletteIndexOutOfRange (s.sampleTaken rle) :=
  if_pos h

end

/-- `raiseError` is the entry into an error (R209). -/
theorem raises_raiseError (e : DecodeError) (s : State) : Raises (.next (raiseError e s)) s e := by
  refine ⟨_, rfl, code_toNat e, ?_⟩
  simp [raiseError]

/-! ### Packing -/

/-- The legal shifts (R27). -/
def shifts : List Byte := [0#8, 8#8, 16#8, 24#8]

/-- A byte at its place in a word (R140). -/
def placed (x sh : Byte) : Word := x.setWidth 32 <<< sh.toNat

/-- The channels of a word, each from its shift (R141). -/
def unpack (c : Consts) (w : Word) : Rgba where
  r := w.extractLsb' c.rsh.toNat 8
  g := w.extractLsb' c.gsh.toNat 8
  b := w.extractLsb' c.bsh.toNat 8
  a := w.extractLsb' c.ash.toNat 8

theorem pack_eq_placed (c : Consts) (p : Rgba) :
    pack c p = placed p.r c.rsh ||| placed p.g c.gsh ||| placed p.b c.bsh ||| placed p.a c.ash := rfl

theorem getLsbD_low_byte (i : Nat) : (0xFF#32).getLsbD i = decide (i < 8) := by
  rw [BitVec.getLsbD_ofNat, show 0xFF = 2 ^ 8 - 1 from rfl, Nat.testBit_two_pow_sub_one, ← Bool.decide_and]
  exact decide_eq_decide.2 (by omega)

/-- Shifting right and masking is taking the byte at the shift (R141). -/
theorem shift_mask_eq (w : Word) (n : Nat) : w >>> n &&& 0xFF#32 = (w.extractLsb' n 8).setWidth 32 := by
  apply BitVec.eq_of_getLsbD_eq
  intro i hi
  simp only [BitVec.getLsbD_and, getLsbD_low_byte, BitVec.getLsbD_setWidth, BitVec.getLsbD_extractLsb',
    BitVec.getLsbD_ushiftRight, hi]
  simp [Bool.and_comm]

theorem shift_le {sh : Byte} (h : sh ∈ shifts) : sh.toNat ≤ 24 :=
  (by decide : ∀ sh ∈ shifts, sh.toNat ≤ 24) sh h

/-- Two legal shifts place their bytes on no common bit (R141). -/
theorem shifts_apart {a b : Byte} (ha : a ∈ shifts) (hb : b ∈ shifts) (hab : a ≠ b) :
    a.toNat + 8 ≤ b.toNat ∨ b.toNat + 8 ≤ a.toNat :=
  (by decide : ∀ a ∈ shifts, ∀ b ∈ shifts, a ≠ b → a.toNat + 8 ≤ b.toNat ∨ b.toNat + 8 ≤ a.toNat) a ha b hb hab

/-- Of a placed byte, the byte at a legal shift is the byte itself at its own place and zero at another. -/
theorem extract_placed (x : Byte) {a b : Byte} (ha : a ∈ shifts) (hb : b ∈ shifts) :
    (placed x b).extractLsb' a.toNat 8 = if a = b then x else 0 := by
  apply BitVec.eq_of_getLsbD_eq
  intro i hi
  have ha24 := shift_le ha
  split
  · next hab =>
    subst hab
    simp [placed, hi, show a.toNat + i < 32 by omega]
  · next hab =>
    rcases shifts_apart ha hb hab with h | h
    · simp [placed, show a.toNat + i < b.toNat by omega]
    · have hx : x.getLsbD (a.toNat + i - b.toNat) = false := BitVec.getLsbD_of_ge x _ (by omega)
      simp [placed, hx]

/-- A byte of a word, put back at its place, is the word's bits there. -/
theorem placed_extract (w : Word) (sh : Byte) : placed (w.extractLsb' sh.toNat 8) sh = w &&& placed 0xFF#8 sh := by
  have hones (j : Nat) : (0xFF#8).getLsbD j = decide (j < 8) := BitVec.getLsbD_allOnes
  apply BitVec.eq_of_getLsbD_eq
  intro i hi
  simp only [placed, BitVec.getLsbD_shiftLeft, BitVec.getLsbD_setWidth, BitVec.getLsbD_extractLsb', BitVec.getLsbD_and,
    hones]
  by_cases h : i < sh.toNat
  · simp [h]
  · rw [Nat.add_sub_of_le (Nat.le_of_not_lt h)]
    cases w.getLsbD i <;> simp [hi]

/-- The places of a list of shifts, as one mask. -/
def placesMask (l : List Byte) : Word := l.foldr (fun sh w => placed 0xFF#8 sh ||| w) 0

theorem placesMask_perm {l l' : List Byte} (h : l.Perm l') : placesMask l = placesMask l' :=
  h.foldr_eq' (fun _ _ _ _ _ => by ac_rfl) 0

/-- The four places of legal shifts cover the word: the sentinel packs to all ones (R138). -/
theorem pack_sentinel {c : Consts} (h : LegalShifts c.rsh c.gsh c.bsh c.ash) : pack c sentinel = 0xFFFFFFFF#32 := by
  obtain ⟨hmem, hnodup⟩ := h
  have hperm : [c.rsh, c.gsh, c.bsh, c.ash].Perm shifts :=
    (List.subperm_of_subset hnodup hmem).perm_of_length_le (le_refl 4)
  calc pack c sentinel = placesMask [c.rsh, c.gsh, c.bsh, c.ash] := by
        simp [pack_eq_placed, placesMask, sentinel, BitVec.or_assoc]
    _ = placesMask shifts := placesMask_perm hperm
    _ = 0xFFFFFFFF#32 := by decide

/-- Each channel is alone on its place (R141). -/
theorem unpack_pack {c : Consts} (h : LegalShifts c.rsh c.gsh c.bsh c.ash) (p : Rgba) : unpack c (pack c p) = p := by
  obtain ⟨hmem, hnodup⟩ := h
  obtain ⟨hr, hg, hb, ha⟩ : c.rsh ∈ shifts ∧ c.gsh ∈ shifts ∧ c.bsh ∈ shifts ∧ c.ash ∈ shifts :=
    ⟨hmem _ (by simp), hmem _ (by simp), hmem _ (by simp), hmem _ (by simp)⟩
  obtain ⟨⟨hrg, hrb, hra⟩, ⟨hgb, hga⟩, hba⟩ : (c.rsh ≠ c.gsh ∧ c.rsh ≠ c.bsh ∧ c.rsh ≠ c.ash) ∧
      (c.gsh ≠ c.bsh ∧ c.gsh ≠ c.ash) ∧ c.bsh ≠ c.ash := by simpa using hnodup
  cases p
  simp [unpack, pack_eq_placed, BitVec.extractLsb'_or, extract_placed, hr, hg, hb, ha, hrg, hrb, hra, hgb, hga, hba,
    hrg.symm, hrb.symm, hra.symm, hgb.symm, hga.symm, hba.symm]

/-- No bit of a word is outside the four places (R141). -/
theorem pack_unpack {c : Consts} (h : LegalShifts c.rsh c.gsh c.bsh c.ash) (w : Word) : pack c (unpack c w) = w := by
  have hcover := pack_sentinel h
  rw [pack_eq_placed] at hcover ⊢
  simp only [unpack, placed_extract, ← BitVec.and_or_distrib_left]
  exact (congrArg (w &&& ·) hcover).trans BitVec.and_allOnes

/-! ### The obligations -/

/-- Settles O17: its three bytes are the pattern `bgr` takes. -/
theorem tc24Result : Obligations.Tc24Result := by
  intro rle c s h hss
  obtain ⟨s0, s1, s2, hb⟩ := List.length_eq_three.1 ((sampleBytes_length h).trans hss)
  exact ⟨s0, s1, s2, hb, directPixel_of_ready h hb rfl⟩

/-- Settles O18: its four bytes are the pattern `bgra` takes. -/
theorem tc32Result : Obligations.Tc32Result := by
  intro rle c s h hss
  obtain ⟨s0, s1, s2, s3, hb⟩ := List.length_eq_four.1 ((sampleBytes_length h).trans hss)
  exact ⟨s0, s1, s2, s3, hb, directPixel_of_ready h hb rfl⟩

/-- Settles O19: its one byte is the pattern `gray` takes. -/
theorem gs8Result : Obligations.Gs8Result := by
  intro rle c s h hss
  obtain ⟨s0, hb⟩ := List.length_eq_one_iff.1 ((sampleBytes_length h).trans hss)
  exact ⟨s0, hb, directPixel_of_ready h hb rfl⟩

/-- Settles O20: its two bytes are the pattern `grayAlpha` takes. -/
theorem gs16Result : Obligations.Gs16Result := by
  intro rle c s h hss
  obtain ⟨s0, s1, hb⟩ := List.length_eq_two.1 ((sampleBytes_length h).trans hss)
  exact ⟨s0, s1, hb, directPixel_of_ready h hb rfl⟩

/-- Settles O23: both operations latch the sentinel, whose packed word is all ones under legal shifts. -/
theorem paletteOutOfRangePermissive : Obligations.PaletteOutOfRangePermissive := by
  intro rle index s h _ hstrict hb hout
  have hpixel (entry : List Byte → Option Rgba) :
      palettePixel rle entry s = .next (afterPixel rle s sentinel true) := by
    rw [palettePixel_outOfRange h hb hout, indexOutOfRange_permissive hstrict]
  exact ⟨hpixel bgr, hpixel bgra, pack_sentinel⟩

/-- Settles O24: both operations enter the error from the state in which the sample is taken. -/
theorem paletteOutOfRangeStrict : Obligations.PaletteOutOfRangeStrict := by
  intro rle index s h _ hstrict hb hout
  have hraise (entry : List Byte → Option Rgba) :
      Raises (palettePixel rle entry s) (s.sampleTaken rle) .paletteIndexOutOfRange := by
    rw [palettePixel_outOfRange h hb hout, indexOutOfRange_strict hstrict]
    exact raises_raiseError _ _
  exact ⟨hraise bgr, hraise bgra⟩

/-- Settles O26: `unpack` is the inverse of `pack` on both sides. -/
theorem packUnpack : Obligations.PackUnpack := by
  intro c h
  refine ⟨fun p => ?_, Function.bijective_iff_has_inverse.2 ⟨unpack c, unpack_pack h, pack_unpack h⟩⟩
  have hp := unpack_pack h p
  simp only [shift_mask_eq]
  exact ⟨congrArg (·.r.setWidth 32) hp, congrArg (·.g.setWidth 32) hp, congrArg (·.b.setWidth 32) hp,
    congrArg (·.a.setWidth 32) hp⟩

end Sys2Proof.Machine
end

section
/-! PROOFS. Output addressing (42_output_addressing.md): the four mappings in their corner cases (R163 to R166), and the
mapping a descriptor selects (R161, R162). -/

namespace Sys2Proof.Machine

/-! ### Corner cases of the four mappings -/

/-- A position is its stored row and column, read in row-major order (R160); the upper-left mapping is the identity
(R165). -/
theorem destTL_eq (w k : Nat) : destTL w k = k := Nat.div_add_mod' k w

/-- In an image of one row, stored bottom row first is stored top row first (R163). -/
theorem destBL_one_row {w k : Nat} (hk : k < w) : destBL w 1 k = k := by
  have hrow : storedRow w k = 0 := Nat.div_eq_of_lt hk
  have hcol : storedCol w k = k := Nat.mod_eq_of_lt hk
  simp [destBL, hrow, hcol]

/-- In an image of one column, each row read from the right is the row itself (R166). -/
theorem destTR_one_column (k : Nat) : destTR 1 k = k := by
  have hrow : storedRow 1 k = k := Nat.div_one k
  simp [destTR, hrow]

/-- A position and its lower-right image are as far from the two ends of the image (R164). -/
theorem destBR_add_succ {w h k : Nat} (hk : k < w * h) : destBR w h k + (k + 1) = w * h := by
  have hw : 0 < w := Nat.pos_of_lt_mul_right hk
  have hrow : storedRow w k < h := Nat.div_lt_of_lt_mul hk
  have hcol : storedCol w k < w := Nat.mod_lt k hw
  have hpos : storedRow w k * w + storedCol w k = k := destTL_eq w k
  calc destBR w h k + (k + 1)
      = (h - 1 - storedRow w k) * w + (w - 1 - storedCol w k)
          + (storedRow w k * w + storedCol w k + 1) := by rw [hpos, destBR]
    _ = (h - 1 - storedRow w k) * w + storedRow w k * w + w := by omega
    _ = (h - 1 - storedRow w k + storedRow w k + 1) * w := by ring
    _ = h * w := by congr 1; omega
    _ = w * h := Nat.mul_comm h w

/-- The lower-right mapping is the full reversal (R164). -/
theorem destBR_eq_reversal {w h k : Nat} (hk : k < w * h) : destBR w h k = w * h - 1 - k := by
  have hsum := destBR_add_succ hk
  omega

/-! ### The mapping a descriptor selects -/

/-- The row a descriptor selects writes at the general mapping, flipped as bits 5 and 4 say (R161, R162). -/
theorem originDest_decodeOrigin (d : Byte) (s : State) :
    originDest (decodeOrigin d) s =
      some (dest (!d.getLsbD 5) (d.getLsbD 4) s.width s.height s.position) := by
  unfold decodeOrigin
  cases d.getLsbD 5 <;> cases d.getLsbD 4 <;> rfl

/-! ### The obligations -/

/-- Settles O29: the formulas are the definitions, and each corner case is a lemma of its own. -/
theorem fourMappings : Obligations.FourMappings :=
  ⟨fun _ _ _ => rfl, fun _ _ _ => rfl, fun _ _ => rfl, fun _ _ => rfl, fun _ _ => destBL_one_row,
    fun _ _ _ => destBR_eq_reversal, destTL_eq, destTR_one_column, by decide⟩

/-- Settles O30: the general mapping with its flips written as conditions on the descriptor's bits. -/
theorem generalMapping : Obligations.GeneralMapping := by
  intro d s
  rw [originDest_decodeOrigin]
  simp [dest, storedRow, storedCol]

end Sys2Proof.Machine
end

section
/-! PROOFS. Host commands (43_host_commands.md): the CTRL write by its action bits (R180, R182, R183), register reads
(R185), register writes (R34, R186 to R188), and how a decode ends (R189). -/

namespace Sys2Proof.Machine

/-! ### CTRL writes -/

/-- The preset part of a CTRL write puts the preset in CHORD (R182, R183). -/
theorem loadPreset_eq_presetChord (argb abgr : Bool) (s : State) :
    loadPreset argb abgr s = { s with chord := presetChord argb abgr s.chord } := by
  cases argb <;> cases abgr <;> rfl

/-- The preset part in the order of R180: LOAD_ARGB, then LOAD_ABGR, each only without the other (U10). -/
theorem loadPreset_eq_ordered (argb abgr : Bool) (s : State) :
    loadPreset argb abgr s =
      let s1 := if argb = true ∧ abgr = false then loadArgb s else s
      if abgr = true ∧ argb = false then loadAbgr s1 else s1 := by
  cases argb <;> cases abgr <;> rfl

/-- Without START, a CTRL write while idle leaves STRICT and CHORD alone changed (R180). -/
theorem ctrlWrite_config {s : State} (h : s.busy = false) (strict argb abgr : Bool) :
    ctrlWrite false strict argb abgr s = { s with strict := strict, chord := presetChord argb abgr s.chord } := by
  rw [ctrlWrite_idle h, if_neg Bool.false_ne_true, loadPreset_eq_presetChord]

/-- Settles O33: the word's four low bits are the arguments of one CTRL write, ignored while BUSY. -/
theorem ctrlActionBitsInOrder : Obligations.CtrlActionBitsInOrder := by
  intro s q w hq
  rw [step_ctrlWrite hq]
  cases hb : s.busy with
  | true => rw [ctrlWrite_busy (s := s.withQueue q) hb, if_pos rfl]
  | false =>
    rw [ctrlWrite_idle (s := s.withQueue q) hb, if_neg Bool.false_ne_true, loadPreset_eq_ordered]
    rfl

/-- Settles O34: each command is the CTRL write of its row's action bits, without START. -/
theorem configCommandsResult : Obligations.ConfigCommandsResult := by
  intro argb abgr x s
  refine ⟨fun hi => ⟨?_, ?_, ?_⟩, fun hb => ⟨?_, ?_, ?_⟩⟩
  · exact congrArg Host.Outcome.next (ctrlWrite_config hi false true false)
  · exact congrArg Host.Outcome.next (ctrlWrite_config hi false false true)
  · exact congrArg Host.Outcome.next (ctrlWrite_config hi true argb abgr)
  · exact congrArg Host.Outcome.next (ctrlWrite_busy hb false false true false)
  · exact congrArg Host.Outcome.next (ctrlWrite_busy hb false false false true)
  · exact congrArg Host.Outcome.next (ctrlWrite_busy hb false true argb abgr)

/-! ### Register reads -/

/-- CTRL reads as STRICT in bit 1 alone (R24, R184). -/
theorem ctrlWord_toNat (s : State) : (ctrlWord s).toNat = 2 * s.strict.toNat := by
  unfold ctrlWord
  cases s.strict <;> rfl

/-- STATUS reads as its four flags in bits 0 to 3 (R25). -/
theorem statusWord_toNat (s : State) :
    (statusWord s).toNat = s.busy.toNat + 2 * s.done.toNat + 4 * s.err.toNat + 8 * s.palOor.toNat := by
  have hflags : ∀ busy done err palOor : Bool,
      (0#28 ++ BitVec.ofBool palOor ++ BitVec.ofBool err ++ BitVec.ofBool done ++ BitVec.ofBool busy).toNat =
        busy.toNat + 2 * done.toNat + 4 * err.toNat + 8 * palOor.toNat := by decide
  exact hflags s.busy s.done s.err s.palOor

/-- ERRCODE reads as its three bits (R26). -/
theorem errCodeWord_toNat (s : State) : (errCodeWord s).toNat = s.errCode.toNat :=
  BitVec.toNat_setWidth_of_le (by decide)

/-- An offset that is none of the ten registers' reads 0 (R34). -/
theorem regRead_reserved {offset : Nat} (h : 0x28 ≤ offset ∨ offset % 4 ≠ 0) (s : State) : regRead s offset = 0 := by
  unfold regRead
  iterate 10 rw [if_neg (by omega)]

/-- Settles O39: the value read is `regRead`, whose row for each offset is the register's word. -/
theorem registerReads : Obligations.RegisterReads := by
  intro s q offset hq
  refine ⟨regRead s offset, step_readReg hq, ?_, ?_, ?_, ?_, ?_, ?_, ?_, ?_, ?_, ?_, fun h => regRead_reserved h s⟩
  · rintro rfl; exact ctrlWord_toNat s
  · rintro rfl; exact statusWord_toNat s
  · rintro rfl; exact errCodeWord_toNat s
  all_goals rintro rfl; rfl

/-! ### Register writes -/

section
variable {s : State} {offset : Nat} (w : Word)

theorem regWrite_busy (h : s.busy = true) : regWrite s offset w = s := if_pos h

theorem regWrite_chord (h : s.busy = false) : regWrite s 0x0C w = { s with chord := w } := by
  simp [regWrite, h]

theorem regWrite_inLen (h : s.busy = false) : regWrite s 0x10 w = { s with inLen := maskInLen s w } := by
  simp [regWrite, h]

/-- A write to a read-only or reserved offset has no effect (R34). -/
theorem regWrite_other (hc : offset ≠ 0x0C) (hl : offset ≠ 0x10) : regWrite s offset w = s := by
  simp [regWrite, hc, hl]

end

/-- IN_LEN keeps the low IN_ADDR_BITS bits of what is written (R188). -/
theorem getLsbD_maskInLen (s : State) (w : Word) (b : Nat) :
    (maskInLen s w).getLsbD b = (decide (b < s.params.inAddrBits) && w.getLsbD b) := by
  have hmask : maskInLen s w = (w.setWidth s.params.inAddrBits).setWidth 32 := by
    rw [← BitVec.ofNat_toNat, BitVec.toNat_setWidth]
    rfl
  rw [hmask, BitVec.getLsbD_setWidth, BitVec.getLsbD_setWidth, Bool.and_left_comm]
  congr 1
  exact Bool.and_eq_right_iff_imp.2 fun h => decide_eq_true (BitVec.lt_of_getLsbD h)

/-- While BUSY no register write has an effect, CTRL's included (R186). -/
theorem step_writeReg_busy {s : State} {q : List HostEvent} {offset : Nat} {w : Word}
    (hq : s.hostQ = .writeReg offset w :: q) (hb : s.busy = true) : step s = .next (s.withQueue q) := by
  by_cases ho : offset = 0
  · subst ho
    rw [step_ctrlWrite hq, ctrlWrite_busy (s := s.withQueue q) hb]
  · rw [step_writeReg hq ho, regWrite_busy (s := s.withQueue q) w hb]

/-- Settles O40: an offset other than CTRL's is one `regWrite`, and each clause is one of its rows. -/
theorem registerWrites : Obligations.RegisterWrites := by
  intro s q offset w hq
  refine ⟨step_writeReg_busy hq, ?_, ?_, ?_⟩
  · rintro hi rfl
    rw [step_writeReg hq (by decide), regWrite_chord (s := s.withQueue q) w hi]
  · rintro hi rfl
    refine ⟨maskInLen s w, ?_, getLsbD_maskInLen s w⟩
    rw [step_writeReg hq (by decide), regWrite_inLen (s := s.withQueue q) w hi]
    rfl
  · intro ho hc hl
    rw [step_writeReg hq ho, regWrite_other w hc hl]

/-! ### The end of a decode -/

/-- A drawn outcome is DONE or ERR, as its code is 0 or not (R64). -/
theorem drawResult_ends (s : State) : (drawResult s).done = true ∨ (drawResult s).err = true := by
  by_cases h : Config.drawCode s.draws = 0
  · exact .inl (beq_iff_eq.2 h)
  · exact .inr (bne_iff_ne.2 h)

/-- The block ends its decode only with DONE or with ERR (R189). -/
theorem BlockMoved.ends {s t : State} (h : BlockMoved s t) (hb : s.busy = true) (ht : t.busy = false) :
    t.done = true ∨ t.err = true := by
  have hne : ¬s.busy = false := by simp [hb]
  cases h with
  | rest | packet | pixel => exact absurd ht hne
  | drawn => exact drawResult_ends s
  | wrote d =>
    rcases advancePixel_cases (outWrite s d s.pixel) with ⟨-, he⟩ | ⟨-, he⟩
    · rw [he]; exact .inl rfl
    · rw [he] at ht; exact absurd ht hne
  | raised => exact .inr rfl

/-- Settles O43: the block ends only with DONE or ERR, and of the host's events only a reset touches a running decode's
BUSY. -/
theorem decodeEndsOnlyBy : Obligations.DecodeEndsOnlyBy := by
  intro s t hb h ht
  have hne : ¬s.busy = false := by simp [hb]
  cases step_cases h with
  | block q t _ hm => exact (hm.ends hb ht).imp_right .inl
  | ctrl w q => rw [ctrlWrite_busy (s := s.withQueue q) hb] at ht; exact absurd ht hne
  | writeReg offset w q => rw [regWrite_busy (s := s.withQueue q) w hb] at ht; exact absurd ht hne
  | read | writeIn => exact absurd ht hne
  | reset q hq => exact .inr (.inr ⟨q, hq⟩)

end Sys2Proof.Machine
end

section
/-! PROOFS. Errors (60_exceptions.md): what raises `PacketOverrun` (R206), the entry into an error (R209), and that only START
moves the block out of idle (R217). -/

namespace Sys2Proof.Machine

/-! ### Raising -/

/-- Settles O11: the count is FetchPacket's first check after the header, for both kinds and before any byte is read. -/
theorem packetOverrunRaised : Obligations.PacketOverrunRaised := by
  intro count s h
  have hraise (kind : PktKind) : Raises (packetResult (takePacket kind count s)) s .packetOverrun := by
    rw [takePacket_overrun h]
    exact raises_raiseError _ _
  exact ⟨hraise .run, hraise .raw⟩

/-- Settles O48: the raise leaves the block idle, and an idle block does not move. -/
theorem errorEntry : Obligations.ErrorEntry := fun e s =>
  ⟨raises_raiseError e s, fun _ hq => step_idle hq (raiseError_busy e s)⟩

/-! ### Leaving idle -/

/-- A register write other than CTRL's neither starts nor ends a decode (R34, R186 to R188). -/
theorem regWrite_keeps_busy (s : State) (offset : Nat) (w : Word) : (regWrite s offset w).busy = s.busy := by
  unfold regWrite
  split_ifs <;> rfl

/-- The block stays idle over a step that is no CTRL write with START (R217). -/
theorem step_stays_idle {s t : State} (hb : s.busy = false) (h : step s = .next t)
    (hs : ∀ w q, s.hostQ = .writeReg 0 w :: q → w.getLsbD 0 = false) : t.busy = false := by
  cases step_cases h with
  | block q t hq =>
    rw [step_idle hq hb] at h
    cases h
    exact hb
  | ctrl w q hq =>
    rw [hs w q hq, ctrlWrite_config (s := s.withQueue q) hb]
    exact hb
  | writeReg offset w q => exact (regWrite_keeps_busy _ offset w).trans hb
  | read | writeIn => exact hb
  | reset => rfl

/-- Settles O42: a step that leaves idle cannot be one of those over which the block stays idle. -/
theorem onlyStartLeavesIdle : Obligations.OnlyStartLeavesIdle := by
  refine fun s hb => ⟨fun t h ht => ?_, fun q hq => step_idle hq hb⟩
  by_contra hstart
  have hidle : t.busy = false := step_stays_idle hb h fun w q hq =>
    Bool.eq_false_iff.2 fun hw => hstart ⟨w, q, hq, hw⟩
  exact Bool.false_ne_true (hidle.symm.trans ht)

end Sys2Proof.Machine
end

section
/-! PROOFS. Reset (70_reset_and_hazards.md): the state at power-up (R230, R231), and a reset at any time, which leaves the words
of OUT an interrupted decode did not write (R232). -/

namespace Sys2Proof.Machine

/-! ### The general mapping is its own inverse (R168) -/

/-- An index below `n`, counted from the other end when `flip` is set. -/
def flipIndex (flip : Bool) (n i : Nat) : Nat := if flip then n - 1 - i else i

theorem flipIndex_lt {flip : Bool} {n i : Nat} (hi : i < n) : flipIndex flip n i < n := by
  unfold flipIndex
  split <;> omega

theorem flipIndex_flipIndex {flip : Bool} {n i : Nat} (hi : i < n) : flipIndex flip n (flipIndex flip n i) = i := by
  cases flip with
  | false => rfl
  | true => exact Nat.sub_sub_self (Nat.le_sub_one_of_lt hi)

theorem dest_eq_flipIndex (flipV flipH : Bool) (w h k : Nat) :
    dest flipV flipH w h k = flipIndex flipV h (storedRow w k) * w + flipIndex flipH w (storedCol w k) := rfl

theorem storedRow_mul_add {w r c : Nat} (hc : c < w) : storedRow w (r * w + c) = r := by
  rw [storedRow, Nat.mul_comm, Nat.mul_add_div (Nat.zero_lt_of_lt hc), Nat.div_eq_of_lt hc, Nat.add_zero]

theorem storedCol_mul_add {w r c : Nat} (hc : c < w) : storedCol w (r * w + c) = c := by
  rw [storedCol, Nat.mul_comm, Nat.mul_add_mod, Nat.mod_eq_of_lt hc]

/-- The row and the column of a destination are those of the position, each flipped or not; flipping both again gives the
position back. -/
theorem dest_dest {flipV flipH : Bool} {w h k : Nat} (hk : k < w * h) :
    dest flipV flipH w h (dest flipV flipH w h k) = k := by
  have hrow : storedRow w k < h := Nat.div_lt_of_lt_mul hk
  have hcol : storedCol w k < w := Nat.mod_lt k (Nat.pos_of_lt_mul_right hk)
  have hrow' : storedRow w (dest flipV flipH w h k) = flipIndex flipV h (storedRow w k) :=
    storedRow_mul_add (flipIndex_lt hcol)
  have hcol' : storedCol w (dest flipV flipH w h k) = flipIndex flipH w (storedCol w k) :=
    storedCol_mul_add (flipIndex_lt hcol)
  calc dest flipV flipH w h (dest flipV flipH w h k)
      = storedRow w k * w + storedCol w k := by
        rw [dest_eq_flipIndex, hrow', hcol', flipIndex_flipIndex hrow, flipIndex_flipIndex hcol]
    _ = k := destTL_eq w k

/-! ### The registers after a reset -/

/-- Every register of R23 to R33 but CHORD resets to 0, and a reserved offset reads 0 anyway (R34, R230). -/
theorem regRead_resetBlock (s : State) (offset : Nat) :
    regRead (resetBlock s) offset = if offset = 0x0C then 0x18000810#32 else 0 := by
  have hctrl : ctrlWord (resetBlock s) = 0 := by
    rw [ctrlWord, resetBlock_strict]
    rfl
  have hstatus : statusWord (resetBlock s) = 0 := by
    rw [statusWord, resetBlock_palOor, resetBlock_err, resetBlock_done, resetBlock_busy]
    rfl
  have herrCode : errCodeWord (resetBlock s) = 0 := rfl
  by_cases h : offset = 0x0C
  · subst h
    rfl
  · simp [regRead, h, hctrl, hstatus, herrCode]

/-- The parameters of the machine at power-up lie in the ranges of R5, whatever the open choices are. -/
theorem configParams_valid : Config.params.valid :=
  ⟨Nat.le_add_right 18 _, Nat.add_le_add_left (Nat.le_of_lt_succ Config.inAddrBitsOver18.isLt) 18,
    Nat.le_of_lt_succ Config.maxPixels.isLt⟩

/-! ### The words of OUT after a reset -/

theorem outWord_resetBlock_idle {s : State} (h : s.busy = false) (d : Nat) :
    outWord (resetBlock s) d = outWord s d := by
  simp only [outWord, resetBlock_out, outAfterReset, if_pos h]

/-- A reset during an undisturbed decode touches no word that the decode has not written (R232). -/
theorem outWord_resetBlock_unwritten {s : State} {d : Nat} (hb : s.busy = true) (ht : s.tainted = false)
    (hd : writtenByDecode s d = false) : outWord (resetBlock s) d = outWord s d := by
  simp [outWord, outAfterReset, hb, ht, memLookup_forgetWritten, hd]

/-- While BUSY, N is the number of pixels of the latched header (R36). -/
theorem streaming_n {s : State} (h : s.Streaming) : s.consts.n = s.width * s.height := by
  obtain ⟨op, -, -, -, -, hconsts, -⟩ := streaming_consts h
  rw [hconsts]
  rfl

/-- An index that is no destination of a position counted is not among the words the decode wrote: were it among them, its
own destination would be such a position, which the mapping takes back to the index (R168). -/
theorem writtenByDecode_eq_false {s : State} (h : s.Streaming) {d : Nat}
    (hd : ∀ k, k < s.position → dest s.consts.flipV s.consts.flipH s.width s.height k ≠ d) :
    writtenByDecode s d = false := by
  rw [Bool.eq_false_iff]
  intro hw
  obtain ⟨hn, hpos⟩ : d < s.consts.n ∧ dest s.consts.flipV s.consts.flipH s.width s.height d < s.position := by
    simpa [writtenByDecode] using hw
  exact hd _ hpos (dest_dest (streaming_n h ▸ hn))

/-! ### The obligations -/

/-- Settles O51: the one step is `resetBlock`; a running decode keeps every word outside the destinations it has counted. -/
theorem resetEvent : Obligations.ResetEvent := by
  intro s q hinv hq
  refine ⟨resetBlock (s.withQueue q), step_reset hq, regRead_resetBlock _, rfl, rfl, rfl, rfl, fun _ => rfl,
    outWord_resetBlock_idle (s := s.withQueue q), fun hb ht d hd => ?_⟩
  exact outWord_resetBlock_unwritten (s := s.withQueue q) hb ht (writtenByDecode_eq_false (hinv.streaming hb) hd)

/-- Settles O50: the registers at power-up are those a reset leaves. -/
theorem resetState : Obligations.ResetState :=
  ⟨regRead_resetBlock State.reset, rfl, rfl, configParams_valid, rfl, rfl⟩

end Sys2Proof.Machine
end

section
/-! PROOFS. Decoding and encoding as inverses of each other (30_encoding.md): per encoding, what its fields give back, and
what the bytes that decode are made of. -/

namespace Sys2Proof

open Machine (headerKind packetCount_pos packetCount_le extractLsb'_append_low extractLsb'_append_mid
  extractLsb'_append_high)

/-! ### Packet headers -/

/-- The instruction of a packet header of this kind and count (R70). -/
def packetInstr : PktKind → Nat → Instr
  | .run, count => .run count
  | .raw, count => .raw count

theorem decodePacket_eq_packetInstr (h : Byte) : decodePacket h = packetInstr (headerKind h) (packetCount h) := by
  unfold decodePacket headerKind
  split <;> rfl

theorem encode_packetInstr (kind : PktKind) (count : Nat) : encode (packetInstr kind count) = [encodePacket kind count] := by
  cases kind <;> rfl

theorem countOk_iff {count : Nat} : countOk count = true ↔ 1 ≤ count ∧ count ≤ 128 := by
  simp [countOk]

theorem headerKind_eq (h : Byte) : headerKind h = if 128 ≤ h.toNat then .run else .raw := by
  simp only [headerKind, headerBit7_iff]

/-- A header byte is its kind's bit 7 and its count less one (R70, R72). -/
theorem encodePacket_toNat (kind : PktKind) {count : Nat} (h : 1 ≤ count ∧ count ≤ 128) :
    (encodePacket kind count).toNat = (if kind = .run then 128 else 0) + (count - 1) := by
  cases kind <;> simp [encodePacket] <;> omega

/-- The kind and the count of an encoded header are those it was made of (R70, R72). -/
theorem fields_encodePacket (kind : PktKind) {count : Nat} (h : 1 ≤ count ∧ count ≤ 128) :
    headerKind (encodePacket kind count) = kind ∧ packetCount (encodePacket kind count) = count := by
  rw [headerKind_eq, packetCount_eq, encodePacket_toNat kind h]
  cases kind with
  | run => simp; omega
  | raw => simp; omega

/-- A header byte is made of its kind and its count (R73). -/
theorem encodePacket_fields (h : Byte) : encodePacket (headerKind h) (packetCount h) = h := by
  have hlt := h.isLt
  apply BitVec.eq_of_toNat_eq
  rw [encodePacket_toNat _ ⟨packetCount_pos h, packetCount_le h⟩, headerKind_eq, packetCount_eq]
  by_cases h7 : 128 ≤ h.toNat
  · simp [h7]; omega
  · simp [h7]; omega

theorem packetInstr_wf_slot (kind : PktKind) (count : Nat) :
    (packetInstr kind count).wf = countOk count ∧ (packetInstr kind count).slot = .packet := by
  cases kind <;> exact ⟨rfl, rfl⟩

theorem decodePacket_encodePacket (kind : PktKind) {count : Nat} (h : countOk count = true) :
    decodePacket (encodePacket kind count) = packetInstr kind count := by
  obtain ⟨hkind, hcount⟩ := fields_encodePacket kind (countOk_iff.1 h)
  rw [decodePacket_eq_packetInstr, hkind, hcount]

/-! ### Format keys -/

theorem decode_key {t d c : Byte} {op : Instr} (rest : List Byte) :
    decode .key (t :: d :: c :: rest) = .ok (op, rest) ↔ decodeKey (mkKey c d t) = .ok op := by
  rw [decode]
  cases decodeKey (mkKey c d t) <;> simp

/-- What a legal key decodes to is well formed and has the key's three bytes as its encoding (R75). -/
theorem encode_decodeKey {key : Key} {op : Instr} (h : decodeKey key = .ok op) :
    op.wf = true ∧ op.slot = .key ∧ encode op = [keyType key, keyDepth key, keyCmapDepth key] := by
  rcases decodeKey_ok.1 h with ⟨rle, rfl, ht, hd⟩ | ⟨rle, rfl, ht, hd⟩ | ⟨rle, rfl, ht, hd⟩ | ⟨rle, rfl, ht, hd⟩ |
    ⟨rle, rfl, ht, hd, hc⟩ | ⟨rle, rfl, ht, hd, hc⟩ <;> simp [Instr.wf, Instr.slot, encode, encodeKey, *]

/-! ### Origin descriptors -/

/-- The instruction of an origin descriptor's fields (R77, R78). -/
def originInstr : Bool → Bool → BitVec 2 → BitVec 4 → Instr
  | false, false => .orgBL
  | false, true => .orgBR
  | true, false => .orgTL
  | true, true => .orgTR

theorem decodeOrigin_eq_originInstr (d : Byte) :
    decodeOrigin d = originInstr (d.getLsbD 5) (d.getLsbD 4) (d.extractLsb' 6 2) (d.extractLsb' 0 4) := by
  unfold decodeOrigin
  cases d.getLsbD 5 <;> cases d.getLsbD 4 <;> rfl

theorem encode_originInstr (upper right : Bool) (hi : BitVec 2) (lo : BitVec 4) :
    (originInstr upper right hi lo).wf = true ∧ (originInstr upper right hi lo).slot = .origin ∧
      encode (originInstr upper right hi lo) = [encodeOrigin upper right hi lo] := by
  cases upper <;> cases right <;> exact ⟨rfl, rfl, rfl⟩

/-- A descriptor is made of its four fields (R77). -/
theorem encodeOrigin_fields (d : Byte) :
    encodeOrigin (d.getLsbD 5) (d.getLsbD 4) (d.extractLsb' 6 2) (d.extractLsb' 0 4) = d := by
  revert d; decide

/-- An encoded descriptor has the four fields it was made of (R77, R78). -/
theorem decodeOrigin_encodeOrigin (upper right : Bool) (hi : BitVec 2) (lo : BitVec 4) :
    decodeOrigin (encodeOrigin upper right hi lo) = originInstr upper right hi lo := by
  revert upper right hi lo; decide

/-! ### CTRL words -/

/-- The instruction of a CTRL word's action bits and ignored bits (R80). Log entry 14. -/
def ctrlInstr : Bool → Bool → Bool → Bool → BitVec 28 → Except Reject Instr
  | true, strict, argb, abgr, x => .ok (.start strict argb abgr x)
  | false, true, argb, abgr, x => .ok (.strict argb abgr x)
  | false, false, true, false, x => .ok (.loadArgb x)
  | false, false, false, true, x => .ok (.loadAbgr x)
  | false, false, false, false, _ => .error .noCommand
  | false, false, true, true, _ => .error .noCommand

theorem decodeCtrl_eq_ctrlInstr (w : Word) : decodeCtrl w =
    ctrlInstr (w.getLsbD 0) (w.getLsbD 1) (w.getLsbD 2) (w.getLsbD 3) (w.extractLsb' 4 28) := by
  unfold decodeCtrl
  cases w.getLsbD 0 <;> cases w.getLsbD 1 <;> cases w.getLsbD 2 <;> cases w.getLsbD 3 <;> rfl

theorem encode_ctrlInstr {start strict argb abgr : Bool} {x : BitVec 28} {i : Instr}
    (h : ctrlInstr start strict argb abgr x = .ok i) :
    i.wf = true ∧ i.slot = .ctrl ∧ encode i = wordBytes (ctrlWordOf start strict argb abgr x) := by
  cases start <;> cases strict <;> cases argb <;> cases abgr <;> cases h <;> exact ⟨rfl, rfl, rfl⟩

/-- A CTRL word is made of its action bits and its ignored bits (R80). -/
theorem ctrlWordOf_fields (w : Word) :
    ctrlWordOf (w.getLsbD 0) (w.getLsbD 1) (w.getLsbD 2) (w.getLsbD 3) (w.extractLsb' 4 28) = w := by
  apply BitVec.eq_of_getLsbD_eq
  intro k hk
  rw [getLsbD_ctrlWordOf]
  split_ifs with h0 h1 h2 h3
  iterate 4 subst_vars; rfl
  rw [BitVec.getLsbD_extractLsb', decide_eq_true (by omega), Bool.true_and, Nat.add_sub_of_le (by omega)]

theorem ignored_ctrlWordOf (start strict argb abgr : Bool) (x : BitVec 28) :
    (ctrlWordOf start strict argb abgr x).extractLsb' 4 28 = x := by
  apply BitVec.eq_of_getLsbD_eq
  intro k hk
  rw [BitVec.getLsbD_extractLsb', getLsbD_ctrlWordOf, if_neg (by omega), if_neg (by omega), if_neg (by omega),
    if_neg (by omega), Nat.add_sub_cancel_left, decide_eq_true hk, Bool.true_and]

/-- A CTRL word decodes by the bits it was made of (R80). -/
theorem decodeCtrl_ctrlWordOf (start strict argb abgr : Bool) (x : BitVec 28) :
    decodeCtrl (ctrlWordOf start strict argb abgr x) = ctrlInstr start strict argb abgr x := by
  rw [decodeCtrl_eq_ctrlInstr, ignored_ctrlWordOf]
  simp only [getLsbD_ctrlWordOf]
  rfl

/-- The bytes of a word that is written as four bytes. -/
theorem wordBytes_append (b0 b1 b2 b3 : Byte) : wordBytes (b3 ++ b2 ++ b1 ++ b0) = [b0, b1, b2, b3] := by
  have h2 : (b3 ++ b2 ++ b1 ++ b0).extractLsb' 16 8 = b2 :=
    (BitVec.extractLsb'_append_eq_of_le (by decide)).trans (extractLsb'_append_mid b3 b2 b1)
  have h3 : (b3 ++ b2 ++ b1 ++ b0).extractLsb' 24 8 = b3 :=
    (BitVec.extractLsb'_append_eq_of_le (by decide)).trans <|
      (BitVec.extractLsb'_append_eq_of_le (by decide)).trans (extractLsb'_append_high b3 b2)
  rw [wordBytes, h2, h3, extractLsb'_append_low _ b0, extractLsb'_append_mid _ b1 b0]

/-- A word is its four bytes. -/
theorem append_wordBytes (w : Word) :
    w.extractLsb' 24 8 ++ w.extractLsb' 16 8 ++ w.extractLsb' 8 8 ++ w.extractLsb' 0 8 = w := by
  apply BitVec.eq_of_getLsbD_eq
  intro k hk
  simp only [BitVec.getLsbD_append, BitVec.getLsbD_extractLsb']
  split_ifs <;> simp <;> grind

theorem decode_ctrl {b0 b1 b2 b3 : Byte} {i : Instr} (rest : List Byte) :
    decode .ctrl (b0 :: b1 :: b2 :: b3 :: rest) = .ok (i, rest) ↔ decodeCtrl (b3 ++ b2 ++ b1 ++ b0) = .ok i := by
  rw [decode]
  cases decodeCtrl (b3 ++ b2 ++ b1 ++ b0) <;> simp

/-- The bytes of a CTRL word decode by the bits it was made of (R80). -/
theorem decode_wordBytes {start strict argb abgr : Bool} {x : BitVec 28} {i : Instr} (rest : List Byte)
    (h : ctrlInstr start strict argb abgr x = .ok i) :
    decode .ctrl (wordBytes (ctrlWordOf start strict argb abgr x) ++ rest) = .ok (i, rest) := by
  refine (decode_ctrl rest).2 ?_
  rw [append_wordBytes, decodeCtrl_ctrlWordOf, h]

/-! ### The obligations -/

/-- Settles O1: each encoding's fields are given back, row by row. -/
theorem decodeOfEncode : Obligations.DecodeOfEncode := by
  intro i rest hwf
  have hone {j : Instr} (h : j = i) : (Except.ok (j, rest) : Except Reject _) = .ok (i, rest) := by rw [h]
  cases i with
  | run count => exact hone (decodePacket_encodePacket .run hwf)
  | raw count => exact hone (decodePacket_encodePacket .raw hwf)
  | tc24 | tc32 | gs8 | gs16 | pal24 | pal32 => exact (decode_key rest).2 (decodeKey_ok.2 (by simp))
  | orgBL hi lo => exact hone (decodeOrigin_encodeOrigin false false hi lo)
  | orgBR hi lo => exact hone (decodeOrigin_encodeOrigin false true hi lo)
  | orgTL hi lo => exact hone (decodeOrigin_encodeOrigin true false hi lo)
  | orgTR hi lo => exact hone (decodeOrigin_encodeOrigin true true hi lo)
  | start | strict | loadArgb | loadAbgr => exact decode_wordBytes rest rfl

/-- Settles O2: in each place, what the bytes decode to is made of the fields they are made of. -/
theorem encodeOfDecode : Obligations.EncodeOfDecode := by
  intro sl bs rest i h
  match sl, bs with
  | .packet, h' :: _ =>
    cases h
    obtain ⟨hwf, hslot⟩ := packetInstr_wf_slot (headerKind h') (packetCount h')
    rw [decodePacket_eq_packetInstr, encode_packetInstr, encodePacket_fields]
    exact ⟨hwf.trans (countOk_iff.2 ⟨packetCount_pos h', packetCount_le h'⟩), hslot, rfl⟩
  | .origin, d :: _ =>
    cases h
    rw [decodeOrigin_eq_originInstr]
    obtain ⟨hwf, hslot, henc⟩ := encode_originInstr (d.getLsbD 5) (d.getLsbD 4) (d.extractLsb' 6 2) (d.extractLsb' 0 4)
    exact ⟨hwf, hslot, by rw [henc, encodeOrigin_fields]; rfl⟩
  | .key, t :: d :: c :: rest' =>
    cases hk : decodeKey (mkKey c d t) with
    | error r => simp [decode, hk] at h
    | ok op =>
      obtain ⟨rfl, rfl⟩ : op = i ∧ rest' = rest := by simpa [decode, hk] using h
      obtain ⟨hwf, hslot, henc⟩ := encode_decodeKey hk
      exact ⟨hwf, hslot, by simp [henc]⟩
  | .ctrl, b0 :: b1 :: b2 :: b3 :: rest' =>
    cases hk : decodeCtrl (b3 ++ b2 ++ b1 ++ b0) with
    | error r => simp [decode, hk] at h
    | ok op =>
      obtain ⟨rfl, rfl⟩ : op = i ∧ rest' = rest := by simpa [decode, hk] using h
      rw [decodeCtrl_eq_ctrlInstr] at hk
      obtain ⟨hwf, hslot, henc⟩ := encode_ctrlInstr hk
      exact ⟨hwf, hslot, by rw [henc, ctrlWordOf_fields, wordBytes_append]; rfl⟩

end Sys2Proof
end

section
/-! PROOFS. The rows of the format key by match and mask (R75), and which decoded instruction a step runs (R80, R101, R167). -/

namespace Sys2Proof

/-! ### Keys under a mask -/

/-- Two keys are equal when their three bytes are (R75). -/
theorem key_eq_iff {a b : Key} : a = b ↔
    keyType a = keyType b ∧ keyDepth a = keyDepth b ∧ keyCmapDepth a = keyCmapDepth b := by
  refine ⟨fun h => by simp [h], fun ⟨ht, hd, hc⟩ => ?_⟩
  rw [← mkKey_fields a, ← mkKey_fields b, ht, hd, hc]

/-- A masked key is compared byte by byte. -/
theorem key_masked_iff {key mask row : Key} : key &&& mask = row ↔
    keyType key &&& keyType mask = keyType row ∧ keyDepth key &&& keyDepth mask = keyDepth row ∧
      keyCmapDepth key &&& keyCmapDepth mask = keyCmapDepth row := by
  rw [key_eq_iff]
  simp only [keyType, keyDepth, keyCmapDepth, BitVec.extractLsb'_and]

/-- A row's TYPE bits without bit 3 are the code of its model; bit 3 is RLE (R74, R75). -/
theorem masked_type_iff {t : Byte} {m : ColorModel} :
    t &&& 0xF7#8 = encodeType false m ↔ t = encodeType (t.getLsbD 3) m := by
  cases m <;> (revert t; decide)

theorem keyType_getLsbD_three (key : Key) : key.getLsbD 3 = (keyType key).getLsbD 3 := by
  simp [keyType]

/-- The row of a key whose CMAP_DEPTH is don't-care (R75). -/
theorem depthRow_iff {key : Key} {m : ColorModel} {depth : Byte} :
    key &&& 0x00FFF7#24 = mkKey 0 depth (encodeType false m) ↔
      keyType key = encodeType (key.getLsbD 3) m ∧ keyDepth key = depth := by
  rw [key_masked_iff, keyType_mkKey, keyDepth_mkKey, keyCmapDepth_mkKey, keyType_getLsbD_three, ← masked_type_iff]
  have hd : keyDepth key &&& keyDepth 0x00FFF7#24 = keyDepth key := BitVec.and_allOnes
  have hc : keyCmapDepth key &&& keyCmapDepth 0x00FFF7#24 = 0 := BitVec.and_zero
  rw [hd, hc, eq_self, and_true]
  rfl

/-- The row of a key with a CMAP_DEPTH (R75). -/
theorem entryRow_iff {key : Key} {m : ColorModel} {depth entry : Byte} :
    key &&& 0xFFFFF7#24 = mkKey entry depth (encodeType false m) ↔
      keyType key = encodeType (key.getLsbD 3) m ∧ keyDepth key = depth ∧ keyCmapDepth key = entry := by
  rw [key_masked_iff, keyType_mkKey, keyDepth_mkKey, keyCmapDepth_mkKey, keyType_getLsbD_three, ← masked_type_iff]
  have hd : keyDepth key &&& keyDepth 0xFFFFF7#24 = keyDepth key := BitVec.and_allOnes
  have hc : keyCmapDepth key &&& keyCmapDepth 0xFFFFF7#24 = keyCmapDepth key := BitVec.and_allOnes
  rw [hd, hc]
  rfl

/-- A rejected key is told apart by whether its image type is legal (R201, R202). -/
theorem decodeKey_error {key : Key} {r : Reject} (h : decodeKey key = .error r) :
    r = if (imageType (keyType key)).isSome then .formatKey else .imageType := by
  unfold decodeKey at h
  split at h
  · next ht => cases h; simp [ht]
  all_goals
    next ht =>
      split_ifs at h
      cases h
      simp [ht]

/-- A type that is some model's code, RLE or not, is that of the bit 3 it has. -/
theorem encodeType_bit3 (rle : Bool) (m : ColorModel) : (encodeType rle m).getLsbD 3 = rle := by
  cases rle <;> cases m <;> rfl

/-- An accepted key matches one of the six rows (R75). -/
theorem decodeKey_ok_row {key : Key} {op : Instr} (h : decodeKey key = .ok op) :
    key &&& 0x00FFF7#24 ∈ [0x001802#24, 0x002002#24, 0x000803#24, 0x001003#24] ∨
      key &&& 0xFFFFF7#24 ∈ [0x180801#24, 0x200801#24] := by
  have hrle {rle : Bool} {m : ColorModel} (ht : keyType key = encodeType rle m) :
      keyType key = encodeType (key.getLsbD 3) m := by
    rw [keyType_getLsbD_three, ht, encodeType_bit3]
  rcases decodeKey_ok.1 h with ⟨_, -, ht, hd⟩ | ⟨_, -, ht, hd⟩ | ⟨_, -, ht, hd⟩ | ⟨_, -, ht, hd⟩ | ⟨_, -, ht, hd, hc⟩ |
    ⟨_, -, ht, hd, hc⟩
  · exact .inl (by rw [depthRow_iff (m := .tc).2 ⟨hrle ht, hd⟩]; decide)
  · exact .inl (by rw [depthRow_iff (m := .tc).2 ⟨hrle ht, hd⟩]; decide)
  · exact .inl (by rw [depthRow_iff (m := .gs).2 ⟨hrle ht, hd⟩]; decide)
  · exact .inl (by rw [depthRow_iff (m := .gs).2 ⟨hrle ht, hd⟩]; decide)
  · exact .inr (by rw [entryRow_iff (m := .pal).2 ⟨hrle ht, hd, hc⟩]; decide)
  · exact .inr (by rw [entryRow_iff (m := .pal).2 ⟨hrle ht, hd, hc⟩]; decide)

/-- Settles O5: a match under a row's mask is the row's type code and depths, and every accepted key matches a row. -/
theorem formatKeyRows : Obligations.FormatKeyRows := by
  intro key
  refine ⟨fun h => ?_, fun h => ?_, fun h => ?_, fun h => ?_, fun h => ?_, fun h => ?_, fun hdepth hentry => ?_⟩
  · obtain ⟨ht, hd⟩ := (depthRow_iff (m := .tc) (depth := 24#8)).1 h
    exact ⟨decodeKey_ok.2 (.inl ⟨_, rfl, ht, hd⟩), by rw [hd]; rfl⟩
  · obtain ⟨ht, hd⟩ := (depthRow_iff (m := .tc) (depth := 32#8)).1 h
    exact ⟨decodeKey_ok.2 (.inr (.inl ⟨_, rfl, ht, hd⟩)), by rw [hd]; rfl⟩
  · obtain ⟨ht, hd⟩ := (depthRow_iff (m := .gs) (depth := 8#8)).1 h
    exact ⟨decodeKey_ok.2 (.inr (.inr (.inl ⟨_, rfl, ht, hd⟩))), by rw [hd]; rfl⟩
  · obtain ⟨ht, hd⟩ := (depthRow_iff (m := .gs) (depth := 16#8)).1 h
    exact ⟨decodeKey_ok.2 (.inr (.inr (.inr (.inl ⟨_, rfl, ht, hd⟩)))), by rw [hd]; rfl⟩
  · obtain ⟨ht, hd, hc⟩ := (entryRow_iff (m := .pal) (depth := 8#8) (entry := 24#8)).1 h
    exact ⟨decodeKey_ok.2 (.inr (.inr (.inr (.inr (.inl ⟨_, rfl, ht, hd, hc⟩))))), by rw [hd]; rfl⟩
  · obtain ⟨ht, hd, hc⟩ := (entryRow_iff (m := .pal) (depth := 8#8) (entry := 32#8)).1 h
    exact ⟨decodeKey_ok.2 (.inr (.inr (.inr (.inr (.inr ⟨_, rfl, ht, hd, hc⟩))))), by rw [hd]; rfl⟩
  · cases hk : decodeKey key with
    | ok op => exact ((decodeKey_ok_row hk).elim hdepth hentry).elim
    | error r => exact congrArg _ (decodeKey_error hk)

/-! ### Words written out from the tables -/

/-- Settles O7: the decoder computes on each word. -/
theorem specWordsDecode : Obligations.SpecWordsDecode :=
  ⟨rfl, rfl, rfl, rfl, rfl, rfl, rfl, rfl, rfl, rfl, rfl, rfl⟩

namespace Machine

/-! ### What a step runs -/

/-- Settles O8: each place's fetch decodes the bytes that stand there. -/
theorem stepRunsDecoded : Obligations.StepRunsDecoded := by
  intro s q i
  refine ⟨fun hm hd hr hl hk hi hdec => ?_, fun hm hd hr hl hdec => ?_, fun hm hd hr hdec => ?_, fun w hq hdec => ?_⟩
  · cases hdec
    exact step_header hm hd hr hl hk hi
  · exact step_key hm hd hr hl ((decode_key []).1 hdec)
  · cases hdec
    exact step_origin hm hd hr
  · have hw := (decode_ctrl []).1 hdec
    rw [append_wordBytes] at hw
    exact step_ctrl hq hw

end Machine

end Sys2Proof
end

section
/-! PROOFS. The block's turn in a running decode (R167): the three parts of a pixel step as equations, the colour of a sample
without the state around it (R130 to R139), and all that the turn can give from a state of the invariant. -/

namespace Sys2Proof.Machine

variable {s t : State}

/-! ### The parts of a pixel step -/

theorem turn_write (hd : Decoding s) (hr : s.pixelReady = true) : perform (fetchBlock s) =
    writePixel (dest (!s.desc.getLsbD 5) (s.desc.getLsbD 4) s.width s.height s.position) s := by
  obtain ⟨hb, hp, ht⟩ := hd
  simp [fetchBlock, hb, hp, ht, hr, exec_decodeOrigin]

/-- A packet header is decoded and executed as FetchPacket takes it (R101). -/
theorem exec_decodePacket (h : Byte) (s : State) :
    exec (decodePacket h) s = packetResult (takePacket (headerKind h) (packetCount h) s) := by
  unfold decodePacket headerKind
  split <;> rfl

theorem turn_header (hd : Decoding s) (hr : s.pixelReady = false) (hl : s.consts.rle = true) (hk : s.pktRem = 0) :
    perform (fetchBlock s) = packetResult (fetchPacket s) := by
  obtain ⟨hb, hp, ht⟩ := hd
  have hfetch : perform (fetchBlock s) = perform (fetchPacketHeader s) := by
    simp [fetchBlock, hb, hp, ht, hr, hl, hk]
  rw [hfetch, fetchPacketHeader]
  rcases fetchHeader_cases s with ⟨-, e⟩ | ⟨hi, e⟩
  · rw [e, fetchPacket, e]
    rfl
  · rw [e, fetchPacket_of_header hi]
    exact exec_decodePacket _ s

theorem turn_key {op : Instr} (hd : Decoding s) (hr : s.pixelReady = false)
    (hl : s.consts.rle = false ∨ s.pktRem ≠ 0) (hk : decodeKey s.key = .ok op) : perform (fetchBlock s) = exec op s := by
  obtain ⟨hb, hp, ht⟩ := hd
  have hl' : ¬(s.consts.rle = true ∧ s.pktRem = 0) := by rcases hl with h | h <;> simp [h]
  simp [fetchBlock, hb, hp, ht, hr, hl', fetchKey, hk]

/-! ### The colour of a sample -/

/-- The palette resolver without the state it leaves: the colour and whether it is the sentinel, or the error (R135 to
R139). Nothing for an entry of the wrong number of bytes. -/
def entryColour (entry : List Byte → Option Rgba) (index : Byte) (s : State) :
    Option (Except DecodeError (Rgba × Bool)) :=
  if 0 ≤ paletteOffset s index ∧ paletteOffset s index < (s.cmapLen : Int) then
    match memRead s (18 + s.consts.eb * (paletteOffset s index).toNat) s.consts.eb with
    | none => some (.error (.truncatedInput .read))
    | some e => (entry e).map fun c => .ok (c, false)
  else if s.consts.strictD then some (.error .paletteIndexOutOfRange)
  else some (.ok (sentinel, true))

/-- The resolver of a format key without the state it leaves (R130). -/
def colourOf (op : Instr) (smp : List Byte) (s : State) : Option (Except DecodeError (Rgba × Bool)) :=
  match op, smp with
  | .tc24 _ _, smp => (bgr smp).map fun c => .ok (c, false)
  | .tc32 _ _, smp => (bgra smp).map fun c => .ok (c, false)
  | .gs8 _ _, smp => (gray smp).map fun c => .ok (c, false)
  | .gs16 _ _, smp => (grayAlpha smp).map fun c => .ok (c, false)
  | .pal24 _, [index] => entryColour bgr index s
  | .pal32 _, [index] => entryColour bgra index s
  | _, _ => none

/-- A state in which PAL_OOR is set when a sentinel was substituted (R138). -/
def State.markOor (s : State) (oor : Bool) : State := { s with palOor := s.palOor || oor }

@[simp] theorem markOor_false (s : State) : s.markOor false = s := by
  simp [State.markOor]

theorem markOor_true (s : State) : s.markOor true = setPalOor s := by
  simp [State.markOor, setPalOor]

/-- What the resolver leaves for a colour or an error. -/
def resolvedTo (s : State) : Except DecodeError (Rgba × Bool) → Eff Rgba
  | .error e => .raise e s
  | .ok (c, oor) => .ok c (s.markOor oor)

theorem resolvePalette_eq (entry : List Byte → Option Rgba) (index : Byte) (s : State) :
    resolvePalette entry index s = (entryColour entry index s).map (resolvedTo s) := by
  unfold resolvePalette entryColour palLookup
  split_ifs with hin hs
  · cases memRead s (18 + s.consts.eb * (paletteOffset s index).toNat) s.consts.eb with
    | none => rfl
    | some e => cases h : entry e <;> simp [h, resolvedTo]
  · simp [hs, resolvedTo]
  · simp [hs, resolvedTo, markOor_true]

/-- `resolve` is the colour, applied to the state (R130). -/
theorem resolve_eq (op : Instr) (smp : List Byte) (s : State) :
    resolve op smp s = (colourOf op smp s).map (resolvedTo s) := by
  have hdirect (o : Option Rgba) : o.map (fun c => Eff.ok c s) =
      (o.map fun c => (Except.ok (c, false) : Except DecodeError (Rgba × Bool))).map (resolvedTo s) := by
    cases o <;> simp [resolvedTo]
  cases op with
  | tc24 | tc32 | gs8 | gs16 => exact hdirect _
  | pal24 | pal32 =>
    match smp with
    | [index] => exact resolvePalette_eq _ index s
    | [] | _ :: _ :: _ => rfl
  | _ => rfl

/-- What a pixel operation answers for a colour or an error (R139, R143). -/
def latched (s : State) : Option (Except DecodeError (Rgba × Bool)) → Result
  | none => .fault .sampleShape
  | some (.error e) => .next (raiseError e s)
  | some (.ok (c, oor)) => .next (latchPixel c (s.markOor oor))

theorem palettePixelOf_eq (entry : List Byte → Option Rgba) (index : Byte) (s : State) :
    palettePixelOf entry index s = latched s (entryColour entry index s) := by
  unfold palettePixelOf entryColour palLookup indexOutOfRange
  split_ifs with hin hs
  · cases memRead s (18 + s.consts.eb * (paletteOffset s index).toNat) s.consts.eb with
    | none => rfl
    | some e => cases h : entry e <;> simp [h, latched]
  · simp [hs, latched]
  · simp [hs, latched, markOor_true]

/-- The part of a pixel operation after its sample is the colour, latched (R130, R143). -/
theorem pixelRest_eq (op : Instr) (smp : List Byte) (s : State) :
    pixelRest op smp s = latched s (colourOf op smp s) := by
  have hdirect (o : Option Rgba) : resolved o s = latched s (o.map fun c => .ok (c, false)) := by
    cases o <;> simp [latched]
  cases op with
  | tc24 | tc32 | gs8 | gs16 => exact hdirect _
  | pal24 | pal32 =>
    match smp with
    | [index] => exact palettePixelOf_eq _ index s
    | [] | _ :: _ :: _ => rfl
  | _ => rfl

/-- The palette is read from the decode constants, the latched header and IN below L alone. -/
theorem entryColour_congr (f : List Byte → Option Rgba) (index : Byte) (hc : t.consts = s.consts) (h2 : t.hdr2 = s.hdr2)
    (hl : t.inLen = s.inLen) (hin : ∀ a, a < s.inLimit → inByte t a = inByte s a) :
    entryColour f index t = entryColour f index s := by
  have hread (a n : Nat) : memRead t a n = memRead s a n := by
    have hL : t.inLimit = s.inLimit := congrArg BitVec.toNat hl
    unfold memRead
    rw [hL]
    split
    · rw [inBytes_congr fun i hi => hin (a + i) (by omega)]
    · rfl
  have hoff : paletteOffset t index = paletteOffset s index := by simp only [paletteOffset, State.cmapOrigin, h2]
  have hlen : t.cmapLen = s.cmapLen := by simp only [State.cmapLen, h2]
  simp only [entryColour, hread, hoff, hlen, hc]

/-- And so is a colour. -/
theorem colourOf_congr (op : Instr) (smp : List Byte) (hc : t.consts = s.consts) (h2 : t.hdr2 = s.hdr2)
    (hl : t.inLen = s.inLen) (hin : ∀ a, a < s.inLimit → inByte t a = inByte s a) :
    colourOf op smp t = colourOf op smp s := by
  cases op with
  | pal24 | pal32 =>
    match smp with
    | [index] => exact entryColour_congr _ index hc h2 hl hin
    | [] | _ :: _ :: _ => rfl
  | _ => rfl

end Sys2Proof.Machine
end

section
/-! PROOFS. All that the block's turn can give from a state of the invariant: no read outside IN below L, no sample of the
wrong size and no write outside the image (R51, R66, R130). -/

namespace Sys2Proof.Machine

variable {s t : State}

/-! ### What a running decode says -/

/-- FLIPV and FLIPH are those of the latched descriptor (R36, R161). -/
theorem State.Streaming.flips (h : s.Streaming) :
    s.consts.flipV = !s.desc.getLsbD 5 ∧ s.consts.flipH = s.desc.getLsbD 4 := by
  obtain ⟨op, -, -, -, -, hc, -⟩ := streaming_consts h
  rw [hc]
  exact ⟨rfl, rfl⟩

theorem State.Streaming.n_lt (h : s.Streaming) : s.consts.n < 2 ^ 32 := streaming_n_lt h

/-- PIX_COUNT steps without wrapping while a pixel is left (R32). -/
theorem State.Streaming.position_succ (h : s.Streaming) : (s.pixCount + 1).toNat = s.position + 1 :=
  toNat_add_ofNat (d := 1) (Nat.lt_of_le_of_lt h.pixelLeft h.n_lt)

/-- A sample is one to four bytes (R36, R75). -/
theorem State.Streaming.ss_bounds (h : s.Streaming) : 1 ≤ s.consts.ss ∧ s.consts.ss ≤ 4 := by
  obtain ⟨op, -, -, hss, -⟩ := streaming_consts h
  rw [hss]
  cases op <;> simp [keySampleBytes]

/-- The end of an uncompressed sample lies below L while its pixel is left (R109). -/
theorem State.Streaming.flat_end (h : s.Streaming) (hl : s.consts.rle = false) {k : Nat} (hk : k ≤ s.consts.n) :
    s.consts.base + k * s.consts.ss ≤ s.inLimit := by
  obtain ⟨op, -, -, -, -, -, -, -, hdata⟩ := streaming_consts h
  calc s.consts.base + k * s.consts.ss ≤ s.consts.base + s.consts.n * s.consts.ss := by gcongr
    _ = s.consts.base + s.consts.ss * s.consts.n := by rw [Nat.mul_comm s.consts.n]
    _ ≤ s.inLimit := hdata hl

/-- Where no header is due a sample is at hand (R100, R109). -/
theorem State.Streaming.sampleReady (h : s.Streaming) (hl : s.consts.rle = false ∨ s.pktRem ≠ 0) :
    SampleReady s.consts.rle s := by
  cases hrle : s.consts.rle with
  | false => exact .inl ⟨rfl, h.flat_end hrle h.pixelLeft⟩
  | true =>
    have hrem : s.pktRem ≠ 0 := hl.resolve_left (by simp [hrle])
    refine .inr ?_
    cases hkind : s.pktKind with
    | run => exact .inl ⟨rfl, hrem, rfl, h.runLatch hrem hkind⟩
    | raw =>
      have hbody := h.rawBody hrem hkind
      have hone : s.consts.ss ≤ s.pktRem * s.consts.ss := Nat.le_mul_of_pos_left _ (Nat.pos_of_ne_zero hrem)
      exact .inr ⟨rfl, hrem, rfl, by omega⟩

/-- A palette entry in range lies below L: the colormap does (R135, R208). -/
theorem State.Streaming.entry_end (h : s.Streaming) {op : Instr} (hop : decodeKey s.key = .ok op)
    (hpal : keyModel op = .pal) {i : Nat} (hi : i < s.cmapLen) :
    18 + s.consts.eb * i + s.consts.eb ≤ s.inLimit := by
  obtain ⟨op', hop', -, -, -, hc, -, hmap, -⟩ := streaming_consts h
  obtain rfl : op' = op := by rw [hop] at hop'; cases hop'; rfl
  have hbase : s.consts.base = 18 + s.consts.eb * s.cmapLen := by
    rw [hc, hpal]
    rfl
  calc 18 + s.consts.eb * i + s.consts.eb = 18 + s.consts.eb * (i + 1) := by ring
    _ ≤ 18 + s.consts.eb * s.cmapLen := by gcongr; exact hi
    _ = s.consts.base := hbase.symm
    _ ≤ s.inLimit := hmap hpal

/-- What a sample of the right size resolves to in a running decode: a colour of its bytes, or for an index out of range the
sentinel in permissive mode and the error in strict mode. No READ error is among them (R51, R130 to R139). -/
inductive Coloured (s : State) : Except DecodeError (Rgba × Bool) → Prop
  | colour (c : Rgba) : Coloured s (.ok (c, false))
  | sentinel (h : s.consts.strictD = false) : Coloured s (.ok (sentinel, true))
  | outOfRange (h : s.consts.strictD = true) : Coloured s (.error .paletteIndexOutOfRange)

theorem entryColour_coloured {f : List Byte → Option Rgba} {index : Byte}
    (hf : ∀ e : List Byte, e.length = s.consts.eb → ∃ c, f e = some c)
    (hend : ∀ i, i < s.cmapLen → 18 + s.consts.eb * i + s.consts.eb ≤ s.inLimit) :
    ∃ r, entryColour f index s = some r ∧ Coloured s r := by
  unfold entryColour
  split_ifs with hin hs
  · have hi : (paletteOffset s index).toNat < s.cmapLen := by omega
    obtain ⟨c, hc⟩ := hf _ (inBytes_length s (18 + s.consts.eb * (paletteOffset s index).toNat) s.consts.eb)
    exact ⟨_, by rw [memRead_of_le (hend _ hi)]; simp [hc], .colour c⟩
  · exact ⟨_, rfl, .outOfRange hs⟩
  · exact ⟨_, rfl, .sentinel (by simpa using hs)⟩

theorem bgr_of_length {l : List Byte} (h : l.length = 3) : ∃ c, bgr l = some c := by
  obtain ⟨a, b, c, rfl⟩ := List.length_eq_three.1 h
  exact ⟨_, rfl⟩

theorem bgra_of_length {l : List Byte} (h : l.length = 4) : ∃ c, bgra l = some c := by
  obtain ⟨a, b, c, d, rfl⟩ := List.length_eq_four.1 h
  exact ⟨_, rfl⟩

/-- In a running decode every sample of SS bytes resolves (R130). -/
theorem State.Streaming.coloured (h : s.Streaming) {op : Instr} (hop : decodeKey s.key = .ok op) {smp : List Byte}
    (hlen : smp.length = s.consts.ss) : ∃ r, colourOf op smp s = some r ∧ Coloured s r := by
  obtain ⟨op', hop', -, hss, heb, -⟩ := streaming_consts h
  obtain rfl : op' = op := by rw [hop] at hop'; cases hop'; rfl
  rw [hss] at hlen
  have hslot := (decodeKey_imageType hop).2
  cases op' with
  | tc24 =>
    obtain ⟨c, hc⟩ := bgr_of_length hlen
    exact ⟨_, by simp [colourOf, hc], .colour c⟩
  | tc32 =>
    obtain ⟨c, hc⟩ := bgra_of_length hlen
    exact ⟨_, by simp [colourOf, hc], .colour c⟩
  | gs8 =>
    obtain ⟨a, rfl⟩ := List.length_eq_one_iff.1 hlen
    exact ⟨_, rfl, .colour _⟩
  | gs16 =>
    obtain ⟨a, b, rfl⟩ := List.length_eq_two.1 hlen
    exact ⟨_, rfl, .colour _⟩
  | pal24 =>
    obtain ⟨index, rfl⟩ := List.length_eq_one_iff.1 hlen
    exact entryColour_coloured (fun e he => bgr_of_length (he.trans (heb rfl))) fun i hi => h.entry_end hop rfl hi
  | pal32 =>
    obtain ⟨index, rfl⟩ := List.length_eq_one_iff.1 hlen
    exact entryColour_coloured (fun e he => bgra_of_length (he.trans (heb rfl))) fun i hi => h.entry_end hop rfl hi
  | _ => cases hslot

/-! ### The turn of a running decode -/

/-- No packet header is due (R100). -/
theorem not_headerDue_iff : ¬(s.consts.rle = true ∧ s.pktRem = 0) ↔ s.consts.rle = false ∨ s.pktRem ≠ 0 := by
  rw [not_and_or, Bool.not_eq_true]

/-- The output index of the current pixel (R162). -/
def State.pixelDest (s : State) : Nat := dest s.consts.flipV s.consts.flipH s.width s.height s.position

theorem State.Streaming.pixelDest_lt (h : s.Streaming) : s.pixelDest < s.consts.n := by
  have hleft := h.pixelLeft
  rw [streaming_n h] at hleft ⊢
  exact dest_lt hleft

/-- A pixel word that waits is written at the current pixel's index (R167). -/
theorem State.Streaming.turn_wrote (h : s.Streaming) (hd : Decoding s) (hr : s.pixelReady = true) :
    perform (fetchBlock s) = .next (advancePixel (outWrite s s.pixelDest s.pixel)) := by
  obtain ⟨hv, hh⟩ := h.flips
  rw [turn_write hd hr, ← hv, ← hh]
  exact if_pos h.pixelDest_lt

/-- All that the block's turn can give from a running, undisturbed decode of the invariant. -/
inductive StreamMoved (s : State) : State → Prop
  | wrote (hr : s.pixelReady = true) : StreamMoved s (advancePixel (outWrite s s.pixelDest s.pixel))
  | refused (e : DecodeError) (he : e ≠ .truncatedInput .read) : StreamMoved s (raiseError e s)
  | packet (p : Word) (count : Nat) (kind : PktKind) (latch : List Byte) (hr : s.pixelReady = false)
      (hl : s.consts.rle = true) (hk : s.pktRem = 0) (hpos : 1 ≤ count) (hmax : count ≤ 128)
      (hn : s.position + count ≤ s.consts.n) (hlow : s.inOffset ≤ p.toNat) (hhigh : p.toNat ≤ s.inLimit)
      (hlatch : latch.length = s.consts.ss ∨ latch = s.slatch)
      (hrun : kind = .run → latch.length = s.consts.ss)
      (hraw : kind = .raw → p.toNat + count * s.consts.ss ≤ s.inLimit) : StreamMoved s (s.withPacket p count kind latch)
  | pixel (c : Rgba) (oor : Bool) (hr : s.pixelReady = false) (hl : s.consts.rle = false ∨ s.pktRem ≠ 0)
      (ho : oor = true → s.consts.strictD = false) :
      StreamMoved s (latchPixel c ((s.sampleTaken s.consts.rle).markOor oor))
  | outOfRange (hr : s.pixelReady = false) (hl : s.consts.rle = false ∨ s.pktRem ≠ 0) :
      StreamMoved s (raiseError .paletteIndexOutOfRange (s.sampleTaken s.consts.rle))

/-- A header that is due is taken, or its packet does not fit (R101). -/
theorem streamMoved_fetchPacket (hr : s.pixelReady = false) (hl : s.consts.rle = true)
    (hk : s.pktRem = 0) : ∃ t, packetResult (fetchPacket s) = .next t ∧ StreamMoved s t := by
  rcases fetchHeader_cases s with ⟨-, e⟩ | ⟨hi, -⟩
  · exact ⟨_, by rw [fetchPacket, e]; rfl, .refused (.truncatedInput .packet) (by decide)⟩
  rw [fetchPacket_of_header hi]
  have hpos := packetCount_pos (inByte s s.inOffset)
  have hmax := packetCount_le (inByte s s.inOffset)
  generalize packetCount (inByte s s.inOffset) = count at *
  rcases takePacket_cases (if (inByte s s.inOffset).getLsbD 7 then .run else .raw) count s with
    ⟨-, e⟩ | ⟨-, -, e⟩ | ⟨hn, -, hp, e⟩ | ⟨hn, -, hp, e⟩
  · exact ⟨_, by rw [e]; rfl, .refused _ (by decide)⟩
  · exact ⟨_, by rw [e]; rfl, .refused _ (by decide)⟩
  · have hptr := inPtr_past_packet hp
    exact ⟨_, by rw [e]; rfl, .packet _ count .run _ hr hl hk hpos hmax (by omega) (by omega) (by omega)
      (.inl (inBytes_length _ _ _)) (fun _ => inBytes_length _ _ _) (fun h => by cases h)⟩
  · have hptr : (s.inPtr + 1).toNat = s.inOffset + 1 := inPtr_past_header (by omega)
    exact ⟨_, by rw [e]; rfl, .packet _ count .raw s.slatch hr hl hk hpos hmax (by omega) (by omega) (by omega)
      (.inr rfl) (fun h => by cases h) (fun _ => by omega)⟩

/-- The pixel operation of the latched key takes the sample at hand and resolves it, as one equation (R130). -/
theorem State.Streaming.exec_key_eq (h : s.Streaming) (hl : s.consts.rle = false ∨ s.pktRem ≠ 0) {op : Instr}
    (hop : decodeKey s.key = .ok op) : exec op s = latched (s.sampleTaken s.consts.rle)
      (colourOf op (sampleBytes s.consts.rle s) s) := by
  obtain ⟨op', hop', hrle, -⟩ := streaming_consts h
  obtain rfl : op' = op := by rw [hop] at hop'; cases hop'; rfl
  rw [exec_key (decodeKey_imageType hop).2, hrle, nextSample_of_ready (h.sampleReady hl)]
  dsimp only
  rw [pixelRest_eq, colourOf_congr (s := s) (t := s.sampleTaken s.consts.rle) _ _ rfl rfl rfl fun _ _ => rfl]

theorem State.Streaming.streamMoved_key (h : s.Streaming) (hr : s.pixelReady = false)
    (hl : s.consts.rle = false ∨ s.pktRem ≠ 0) {op : Instr} (hop : decodeKey s.key = .ok op) :
    ∃ t, exec op s = .next t ∧ StreamMoved s t := by
  obtain ⟨r, hcolour, hr'⟩ := h.coloured hop (sampleBytes_length (h.sampleReady hl))
  rw [h.exec_key_eq hl hop, hcolour]
  cases hr' with
  | colour c => exact ⟨_, rfl, .pixel c false hr hl (by simp)⟩
  | sentinel hs => exact ⟨_, rfl, .pixel sentinel true hr hl fun _ => hs⟩
  | outOfRange hs => exact ⟨_, rfl, .outOfRange hr hl⟩

/-- The block's turn in a running decode never stops (R167). -/
theorem State.Streaming.streamMoved (h : s.Streaming) (hd : Decoding s) :
    ∃ t, perform (fetchBlock s) = .next t ∧ StreamMoved s t := by
  cases hr : s.pixelReady with
  | true => exact ⟨_, h.turn_wrote hd hr, .wrote hr⟩
  | false =>
    by_cases hdue : s.consts.rle = true ∧ s.pktRem = 0
    · rw [turn_header hd hr hdue.1 hdue.2]
      exact streamMoved_fetchPacket hr hdue.1 hdue.2
    · have hl := not_headerDue_iff.1 hdue
      obtain ⟨op, hop, -⟩ := streaming_consts h
      rw [turn_key hd hr hl hop]
      exact h.streamMoved_key hr hl hop

/-- All that the block's turn can give from a state of the invariant. -/
inductive Turned (s : State) : State → Prop
  | rest (hb : s.busy = false) : Turned s s
  | drawn (hb : s.busy = true) (ht : s.tainted = true) (hs : s.Streaming) : Turned s (drawResult s)
  | moved (t : State) (hd : Decoding s) (hs : s.Streaming) (hm : StreamMoved s t) : Turned s t

theorem State.Inv.turned (h : s.Inv) : ∃ t, perform (fetchBlock s) = .next t ∧ Turned s t := by
  cases hb : s.busy with
  | false => exact ⟨s, by simp [fetchBlock, hb], .rest hb⟩
  | true =>
    have hs := h.streaming hb
    cases ht : s.tainted with
    | true => exact ⟨_, by simp [fetchBlock, hb, hs.phase, ht], .drawn hb ht hs⟩
    | false =>
      have hd : Decoding s := ⟨hb, hs.phase, ht⟩
      obtain ⟨t, hstep, hm⟩ := hs.streamMoved hd
      exact ⟨t, hstep, .moved t hd hs hm⟩

end Sys2Proof.Machine
end

section
/-! PROOFS. The invariant of the machine (10_state.md): what of it every operation keeps, and that every step keeps it. -/

namespace Sys2Proof.Machine

variable {s t : State}

/-! ### The part of the invariant that the status does not touch -/

/-- The bounds of the invariant that hold whatever the status: parameters, memories, pointers, packet state, PAL_OOR. -/
structure State.Bounded (s : State) : Prop where
  params : s.params.valid
  inWf : Memory.wf s.inMem = true
  outWf : Memory.wf s.out.words = true
  inSpace : ∀ c ∈ s.inMem, c.1 < 2 ^ s.params.inAddrBits
  outSpace : ∀ c ∈ s.out.words, c.1 < s.params.maxPixels
  inLenBits : s.inLimit < 2 ^ s.params.inAddrBits
  inPtrBits : s.inOffset < 2 ^ s.params.inAddrBits
  pktRem : s.pktRem ≤ 128
  slatch : s.slatch.length ≤ 4
  epoch : s.out.epoch ≤ s.draws
  palOor : s.palOor = true → s.tainted = false → s.consts.strictD = false

/-- The part of the invariant that the status decides. -/
structure State.Settled (s : State) : Prop where
  status : s.OneStatus
  errCode : s.err = true ↔ s.errCode ≠ 0
  streaming : s.busy = true → s.Streaming
  resting : s.busy = false → s.Resting

theorem State.Inv.bounded (h : s.Inv) : s.Bounded :=
  ⟨h.params, h.inWf, h.outWf, h.inSpace, h.outSpace, h.inLenBits, h.inPtrBits, h.pktRem, h.slatch, h.epoch, h.palOor⟩

theorem State.Bounded.inv (h : s.Bounded) (hs : s.Settled) : s.Inv :=
  ⟨h.params, h.inWf, h.outWf, h.inSpace, h.outSpace, hs.status, hs.errCode, h.inLenBits, h.inPtrBits, h.pktRem, h.slatch,
    h.epoch, h.palOor, hs.streaming, hs.resting⟩

/-- What a running decode of the invariant says of the flags. -/
theorem State.Inv.flags_of_busy (h : s.Inv) (hb : s.busy = true) : s.done = false ∧ s.err = false ∧ s.errCode = 0 := by
  obtain ⟨hbd, hbe, -⟩ := h.status
  have herr : s.err = false := by simpa [hb] using hbe
  refine ⟨by simpa [hb] using hbd, herr, ?_⟩
  by_contra hc
  simp [h.errCode.2 hc] at herr

/-! ### Raising -/

/-- A raise meets the invariant wherever it is made before DONE (R209). -/
theorem State.Bounded.raise (h : s.Bounded) (hd : s.done = false) (e : DecodeError) : (raiseError e s).Inv := by
  have hb : (raiseError e s).Bounded := { h with outWf := rfl, outSpace := by simp, epoch := le_refl _ }
  refine hb.inv ⟨by simp [State.OneStatus, hd], ⟨fun _ => code_ne_zero e, fun _ => rfl⟩, by simp, fun _ => ?_⟩
  exact ⟨rfl, rfl, by simp [hd], by simp [hd], by simp [hd]⟩

/-! ### Host events that leave the decode alone -/

/-- A state with other memories, another count of draws, value read, queue and draw flag. -/
def State.withHost (s : State) (m : List Host.Cell) (n : Nat) (r : Word) (q : List HostEvent) (tn : Bool) : State :=
  { s with inMem := m, draws := n, rdata := r, hostQ := q, tainted := tn }

theorem State.Streaming.withHost (h : s.Streaming) {m : List Host.Cell} {n : Nat} {r : Word} {q : List HostEvent}
    {tn : Bool} : (s.withHost m n r q tn).Streaming :=
  ⟨h.phase, h.valid, h.pixelLeft, h.ptrHigh, h.ptrLow, h.flat, h.packet, h.runLatch, h.rawBody⟩

/-- The host's accesses keep the invariant: they change no register a decode looks at (R50, R52, R185). -/
theorem State.Inv.withHost (h : s.Inv) {m : List Host.Cell} {n : Nat} {r : Word} {q : List HostEvent} {tn : Bool}
    (hwf : Memory.wf m = true) (hspace : ∀ c ∈ m, c.1 < 2 ^ s.params.inAddrBits) (hn : s.draws ≤ n)
    (htn : tn = false → s.tainted = false) : (s.withHost m n r q tn).Inv := by
  have hb : (s.withHost m n r q tn).Bounded :=
    { h.bounded with
      inWf := hwf, inSpace := hspace, epoch := h.epoch.trans hn, palOor := fun hp ht => h.palOor hp (htn ht) }
  refine hb.inv ⟨h.status, h.errCode, fun hb => (h.streaming hb).withHost, fun hb => ?_⟩
  have hr := h.resting hb
  exact ⟨hr.phase, hr.noPixel, hr.counted, fun hd ht => hr.streamUsed hd (htn ht), hr.sized⟩

theorem State.Inv.withQueue (h : s.Inv) (q : List HostEvent) : (s.withQueue q).Inv :=
  h.withHost (n := s.draws) h.inWf h.inSpace (le_refl _) id

/-- While idle CHORD, STRICT and IN_LEN are free, within IN_ADDR_BITS (R187, R188). -/
theorem State.Inv.configured (h : s.Inv) (hb : s.busy = false) (strict : Bool) (chord inLen : Word)
    (hl : inLen.toNat < 2 ^ s.params.inAddrBits) :
    ({ s with strict := strict, chord := chord, inLen := inLen } : State).Inv := by
  have hbound : ({ s with strict := strict, chord := chord, inLen := inLen } : State).Bounded :=
    { h.bounded with inLenBits := hl }
  refine hbound.inv ⟨h.status, h.errCode, fun hb' => ?_, fun _ => ?_⟩
  · exact absurd (hb.symm.trans hb') Bool.false_ne_true
  · have hr := h.resting hb
    exact ⟨hr.phase, hr.noPixel, hr.counted, hr.streamUsed, hr.sized⟩

/-! ### The block's turn -/

/-- A running decode goes on with other packet state, pixel and PAL_OOR, as long as they fit what is left. -/
theorem State.Inv.streams (h : s.Inv) (hb : s.busy = true) {p : Word} {r : Nat} {k : PktKind} {l : List Byte} {px : Word}
    {ready oor : Bool} (hr : r ≤ 128) (hl : l.length ≤ 4)
    (ho : oor = true → s.tainted = false → s.consts.strictD = false) (hlow : s.consts.base ≤ p.toNat)
    (hhigh : p.toNat ≤ s.inLimit)
    (hflat : s.consts.rle = false →
      r = 0 ∧ p.toNat = s.consts.base + (s.position + (if ready then 1 else 0)) * s.consts.ss)
    (hpacket : s.consts.rle = true → s.position + (if ready then 1 else 0) + r ≤ s.consts.n)
    (hrun : r ≠ 0 → k = .run → l.length = s.consts.ss)
    (hraw : r ≠ 0 → k = .raw → p.toNat + r * s.consts.ss ≤ s.inLimit) :
    ({ s.withPacket p r k l with pixel := px, pixelReady := ready, palOor := oor } : State).Inv := by
  have hs := h.streaming hb
  have hbound : ({ s.withPacket p r k l with pixel := px, pixelReady := ready, palOor := oor } : State).Bounded :=
    { h.bounded with inPtrBits := hhigh.trans_lt h.inLenBits, pktRem := hr, slatch := hl, palOor := ho }
  refine hbound.inv ⟨h.status, h.errCode, fun _ => ?_, fun hb' => absurd (hb.symm.trans hb') (by simp)⟩
  exact ⟨hs.phase, hs.valid, hs.pixelLeft, hhigh, hlow, hflat, hpacket, hrun, hraw⟩

/-- IN_PTR and PKT_REM after the sample at hand, within what is left of input and packet (R22, R100, R109). -/
structure SampleFits (s : State) : Prop where
  low : s.inOffset ≤ (sampleEnd s.consts.rle s).toNat
  high : (sampleEnd s.consts.rle s).toNat ≤ s.inLimit
  rem : sampleRem s.consts.rle s ≤ s.pktRem
  flat : s.consts.rle = false → sampleRem s.consts.rle s = 0 ∧
    (sampleEnd s.consts.rle s).toNat = s.consts.base + (s.position + 1) * s.consts.ss
  packet : s.consts.rle = true → sampleRem s.consts.rle s + 1 = s.pktRem
  rawBody : sampleRem s.consts.rle s ≠ 0 → s.pktKind = .raw →
    (sampleEnd s.consts.rle s).toNat + sampleRem s.consts.rle s * s.consts.ss ≤ s.inLimit

theorem State.Streaming.sampleFits (h : s.Streaming) (hr : s.pixelReady = false)
    (hl : s.consts.rle = false ∨ s.pktRem ≠ 0) : SampleFits s := by
  cases hrle : s.consts.rle with
  | false =>
    obtain ⟨hrem, hptr⟩ := h.flat hrle
    have hend := h.flat_end hrle (k := s.position + 1) h.pixelLeft
    have hptr' : (sampleEnd s.consts.rle s).toNat = s.consts.base + (s.position + 1) * s.consts.ss := by
      rw [hrle]
      exact BitVec.toNat_ofNat .. ▸ Nat.mod_eq_of_lt (hend.trans_lt s.inLen.isLt)
    have hrem' : sampleRem s.consts.rle s = s.pktRem := by rw [hrle]; rfl
    have hnext : (s.position + 1) * s.consts.ss = s.position * s.consts.ss + s.consts.ss := by ring
    simp only [State.readyCount, hr, Bool.false_eq_true, if_false, Nat.add_zero] at hptr
    exact ⟨by omega, by omega, by omega, fun _ => ⟨hrem'.trans hrem, hptr'⟩, fun hc => by simp [hrle] at hc,
      fun hc => absurd (hrem'.trans hrem) hc⟩
  | true =>
    have hrem : s.pktRem ≠ 0 := hl.resolve_left (by simp [hrle])
    have hrem' : sampleRem s.consts.rle s = s.pktRem - 1 := by rw [hrle]; rfl
    cases hkind : s.pktKind with
    | run =>
      have hptr' : sampleEnd s.consts.rle s = s.inPtr := by simp [hrle, sampleEnd, hkind]
      have hhigh := h.ptrHigh
      exact ⟨by rw [hptr']; exact le_refl _, by rw [hptr']; exact hhigh, by omega, fun hc => by simp [hrle] at hc,
        fun _ => by omega, fun _ hc => by simp [hkind] at hc⟩
    | raw =>
      have hbody := h.rawBody hrem hkind
      obtain ⟨r, hr⟩ : ∃ r, s.pktRem = r + 1 := ⟨s.pktRem - 1, by omega⟩
      rw [hr, Nat.succ_mul] at hbody
      have hptr' : (sampleEnd s.consts.rle s).toNat = s.inOffset + s.consts.ss := by
        simp only [hrle, sampleEnd, hkind]
        exact toNat_add_ofNat (by have := s.inLen.isLt; simp only [State.inLimit, State.inOffset] at hbody ⊢; omega)
      have hrem'' : sampleRem s.consts.rle s = r := by omega
      exact ⟨by omega, by omega, by omega, fun hc => by simp [hrle] at hc, fun _ => by omega,
        fun _ _ => by rw [hptr', hrem'']; omega⟩

/-- Taking the sample at hand keeps the bounds. -/
theorem State.Inv.bounded_sampleTaken (h : s.Inv) (hf : SampleFits s) : (s.sampleTaken s.consts.rle).Bounded :=
  { h.bounded with inPtrBits := hf.high.trans_lt h.inLenBits, pktRem := hf.rem.trans h.pktRem }

/-- The pixel write goes on to the next pixel or ends the decode with DONE (R167). -/
theorem State.Inv.wrote (h : s.Inv) (hb : s.busy = true) (hr : s.pixelReady = true) :
    (advancePixel (outWrite s s.pixelDest s.pixel)).Inv := by
  have hs := h.streaming hb
  have hpos : (s.pixCount + 1).toNat = s.position + 1 := hs.position_succ
  obtain ⟨op, -, -, -, -, -, hmax, -⟩ := streaming_consts hs
  have hbound (pc : Word) : ({ outWrite s s.pixelDest s.pixel with pixCount := pc, pixelReady := false } : State).Bounded :=
    { h.bounded with
      outWf := wf_memInsert _ _ _ h.outWf
      outSpace := fun c hc => (mem_memInsert hc).elim (fun e => e ▸ hs.pixelDest_lt.trans_le hmax) (h.outSpace c) }
  have hready : s.readyCount = 1 := by simp [State.readyCount, hr]
  obtain ⟨hdone, herr, hcode⟩ := h.flags_of_busy hb
  rcases advancePixel_cases (outWrite s s.pixelDest s.pixel) with ⟨hlast, e⟩ | ⟨hmore, e⟩
  · have hlast : s.position + 1 = s.consts.n := hlast
    rw [e]
    have hsize : s.consts.n = s.width * s.height := streaming_n hs
    refine State.Bounded.inv { hbound (s.pixCount + 1) with } ⟨?_, h.errCode, by simp, fun _ => ?_⟩
    · simp [State.OneStatus, outWrite, herr]
    · refine ⟨rfl, rfl, fun _ => hpos.trans hlast, fun _ _ => ?_, fun _ => hsize⟩
      show s.pktRem = 0
      cases hrle : s.consts.rle with
      | false => exact (hs.flat hrle).1
      | true => have := hs.packet hrle; omega
  · have hmore : s.position + 1 ≠ s.consts.n := hmore
    rw [e]
    refine (hbound (s.pixCount + 1)).inv ⟨h.status, h.errCode, fun _ => ?_, fun hb' => absurd (hb.symm.trans hb') (by simp)⟩
    have hleft := hs.pixelLeft
    refine ⟨hs.phase, hs.valid, ?_, hs.ptrHigh, hs.ptrLow, fun hf => ?_, fun hp => ?_, hs.runLatch, hs.rawBody⟩
    · show (s.pixCount + 1).toNat < s.consts.n
      omega
    · obtain ⟨hrem, hptr⟩ := hs.flat hf
      refine ⟨hrem, ?_⟩
      show s.inOffset = s.consts.base + ((s.pixCount + 1).toNat + 0) * s.consts.ss
      rw [hptr, hready, hpos]
    · show (s.pixCount + 1).toNat + 0 + s.pktRem ≤ s.consts.n
      have := hs.packet hp
      omega

theorem State.Inv.streamMoved (h : s.Inv) (hd : Decoding s) (hm : StreamMoved s t) : t.Inv := by
  obtain ⟨hb, -, ht⟩ := hd
  have hs := h.streaming hb
  obtain ⟨hdone, -, -⟩ := h.flags_of_busy hb
  cases hm with
  | wrote hr => exact h.wrote hb hr
  | refused e => exact h.bounded.raise hdone e
  | packet p count kind latch hr hl hk hpos hmax hn hlow hhigh hlatch hrun hraw =>
    have hlen : latch.length ≤ 4 := by
      rcases hlatch with hlen | rfl
      · exact hlen ▸ hs.ss_bounds.2
      · exact h.slatch
    have hready : (if s.pixelReady then 1 else 0) = 0 := by simp [hr]
    exact h.streams hb (px := s.pixel) (ready := s.pixelReady) (oor := s.palOor) hmax hlen h.palOor
      (hs.ptrLow.trans hlow) hhigh (fun hc => by simp [hl] at hc) (fun _ => by omega) (fun _ => hrun) (fun _ => hraw)
  | pixel c oor hr hl ho =>
    have hf := hs.sampleFits hr hl
    have hoor : (s.palOor || oor) = true → s.tainted = false → s.consts.strictD = false := fun hp ht =>
      (Bool.or_eq_true_iff.1 hp).elim (fun hp => h.palOor hp ht) ho
    have hready : s.readyCount = 0 := by simp [State.readyCount, hr]
    refine h.streams hb (p := sampleEnd s.consts.rle s) (k := s.pktKind) (l := s.slatch) (ready := true)
      (hf.rem.trans h.pktRem) h.slatch hoor (hs.ptrLow.trans hf.low) hf.high hf.flat (fun hp => ?_) (fun hn => ?_) hf.rawBody
    · have hleft := hs.packet hp
      have hrem := hf.packet hp
      show s.position + 1 + sampleRem s.consts.rle s ≤ s.consts.n
      omega
    · exact hs.runLatch fun hz => hn (Nat.le_zero.1 (hz ▸ hf.rem))
  | outOfRange hr hl => exact (h.bounded_sampleTaken (hs.sampleFits hr hl)).raise hdone _

/-- A drawn outcome keeps the invariant, by the bounds of the draws (R22, R32, R64). -/
theorem State.Inv.drawn (h : s.Inv) (hb : s.busy = true) (ht : s.tainted = true) : (drawResult s).Inv := by
  have hs := h.streaming hb
  obtain ⟨-, hdone, -⟩ := drawnPixCount_bounds hs.pixelLeft
  obtain ⟨-, hhigh⟩ := drawnInPtr_bounds hs.ptrHigh
  have hsize : s.consts.n = s.width * s.height := streaming_n hs
  have hptr : (BitVec.ofNat 32 (drawnInPtr s)).toNat = drawnInPtr s :=
    BitVec.toNat_ofNat .. ▸ Nat.mod_eq_of_lt (hhigh.trans_lt s.inLen.isLt)
  have htainted : (drawResult s).tainted = true := ht
  have hzero : (drawResult s).done = true ↔ Config.drawCode s.draws = 0 := beq_iff_eq
  have hcode : (drawResult s).err = true ↔ Config.drawCode s.draws ≠ 0 := bne_iff_ne
  have hbound : (drawResult s).Bounded :=
    { h.bounded with
      outWf := rfl, outSpace := by simp [drawResult], epoch := le_refl _
      inPtrBits := lt_of_eq_of_lt hptr (hhigh.trans_lt h.inLenBits)
      palOor := fun _ hf => absurd (htainted.symm.trans hf) (by simp) }
  refine hbound.inv ⟨⟨fun hc => ?_, fun hc => ?_, fun hc => hcode.1 hc.2 (hzero.1 hc.1)⟩, hcode, fun hc => ?_, fun _ => ?_⟩
  · exact absurd hc.1 Bool.false_ne_true
  · exact absurd hc.1 Bool.false_ne_true
  · exact absurd hc Bool.false_ne_true
  · refine ⟨rfl, rfl, fun hd => ?_, fun _ hf => absurd (htainted.symm.trans hf) (by simp), fun _ => hsize⟩
    have hcount := hdone (hzero.1 hd)
    show (BitVec.ofNat 32 (drawnPixCount s)).toNat = s.consts.n
    rw [hcount]
    exact BitVec.toNat_ofNat .. ▸ Nat.mod_eq_of_lt hs.n_lt

theorem State.Inv.turn (h : s.Inv) (ht : Turned s t) : t.Inv := by
  cases ht with
  | rest => exact h
  | drawn hb ht => exact h.drawn hb ht
  | moved t hd _ hm => exact h.streamMoved hd hm

/-! ### START -/

/-- What START and the header latch leave before the checks: the bounds hold, PIX_COUNT and the packet state are clear and
the flags are those of a decode under way (R35, R181). -/
structure State.Entered (s : State) : Prop where
  bounded : s.Bounded
  status : s.busy = true ∧ s.done = false ∧ s.err = false ∧ s.errCode = 0
  cleared : s.pixCount = 0 ∧ s.pktRem = 0 ∧ s.pixelReady = false ∧ s.palOor = false

theorem State.Bounded.entered (h : s.Bounded) : (headerLatch (startEntry s)).Entered := by
  have hbytes : (wordBytes (Config.unspecSlatch s.draws)).length = 4 := rfl
  obtain ⟨a, b, c, e⟩ := headerLatch_eq (startEntry s)
  rw [e]
  exact ⟨⟨h.params, h.inWf, h.outWf, h.inSpace, h.outSpace, h.inLenBits, Nat.two_pow_pos _, Nat.zero_le _, hbytes.le,
    h.epoch.trans (Nat.le_succ _), fun hp => absurd hp Bool.false_ne_true⟩, ⟨rfl, rfl, rfl, rfl⟩, rfl, rfl, rfl, rfl⟩

/-- BASE lies below L for every file the checks accept (R36, R208). -/
theorem base_le_of_validate {c : Consts} (hv : validate s = .ok c) : c.base ≤ s.inLimit := by
  obtain ⟨-, hheader, rle, model, op, -, -, rfl, -, hmap, -⟩ := validate_ok.1 hv
  cases model with
  | pal => exact hmap rfl
  | tc | gs => exact hheader

/-- IN_PTR at BASE is exact (R22, R181). -/
theorem base_toNat_of_validate {c : Consts} (hv : validate s = .ok c) : (BitVec.ofNat 32 c.base).toNat = c.base :=
  BitVec.toNat_ofNat .. ▸ Nat.mod_eq_of_lt ((base_le_of_validate hv).trans_lt s.inLen.isLt)

theorem n_of_validate {c : Consts} (hv : validate s = .ok c) : c.n = s.width * s.height := by
  obtain ⟨-, -, rle, model, op, -, -, rfl, -⟩ := validate_ok.1 hv
  rfl

/-- Entering STREAM, or DONE for an empty image, meets the invariant (R181). -/
theorem State.Entered.begins (h : s.Entered) {c : Consts} (hv : validate s = .ok c) : (beginStream c s).Inv := by
  obtain ⟨hbound, ⟨hbusy, hdone, herr, hcode⟩, hcount, hrem, hready, hoor⟩ := h
  have hle := base_le_of_validate hv
  have hptr := base_toNat_of_validate hv
  have hpos : s.position = 0 := congrArg BitVec.toNat hcount
  have hbound' : ({ s with consts := c, inPtr := BitVec.ofNat 32 c.base } : State).Bounded :=
    { hbound with
      inPtrBits := lt_of_eq_of_lt hptr (hle.trans_lt hbound.inLenBits)
      palOor := fun hp => absurd (hoor.symm.trans hp) Bool.false_ne_true }
  unfold beginStream
  by_cases hn : c.n = 0
  · rw [if_pos hn]
    refine State.Bounded.inv { hbound' with } ⟨⟨by simp, by simp, by simp [herr]⟩, by simp [herr, hcode], by simp, fun _ => ?_⟩
    exact ⟨rfl, hready, fun _ => hpos.trans hn.symm, fun _ _ => hrem, fun _ => n_of_validate hv⟩
  · rw [if_neg hn]
    refine State.Bounded.inv { hbound' with } ⟨⟨by simp [hdone], by simp [herr], by simp [herr]⟩, by simp [herr, hcode],
      fun _ => ?_, fun hb => absurd (hbusy.symm.trans hb) (by simp)⟩
    have hready' : s.readyCount = 0 := by simp [State.readyCount, hready]
    refine ⟨rfl, hv, ?_, hptr.le.trans hle, hptr.ge, fun _ => ⟨hrem, ?_⟩, fun _ => ?_, fun hc => absurd hrem hc,
      fun hc => absurd hrem hc⟩
    · show s.position < c.n
      omega
    · show (BitVec.ofNat 32 c.base).toNat = c.base + (s.position + s.readyCount) * c.ss
      rw [hptr, hpos, hready', Nat.zero_mul, Nat.add_zero]
    · show s.position + s.readyCount + s.pktRem ≤ c.n
      omega

theorem State.Bounded.start (h : s.Bounded) : (start s).Inv := by
  have hentered := h.entered
  rcases start_cases s with ⟨e, -, hstart⟩ | ⟨c, hv, hstart⟩
  · rw [hstart]
    exact hentered.bounded.raise hentered.status.2.1 e
  · rw [hstart]
    exact hentered.begins hv

/-! ### CTRL and register writes, reset -/

theorem State.Inv.ctrlWrite (h : s.Inv) (startBit strict argb abgr : Bool) : (ctrlWrite startBit strict argb abgr s).Inv := by
  cases hb : s.busy with
  | true => rwa [ctrlWrite_busy hb]
  | false =>
    have hconf := h.configured hb strict (presetChord argb abgr s.chord) s.inLen h.inLenBits
    rw [ctrlWrite_idle hb, loadPreset_eq_presetChord]
    split
    · exact hconf.bounded.start
    · exact hconf

theorem maskInLen_lt (s : State) (w : Word) : (maskInLen s w).toNat < 2 ^ s.params.inAddrBits :=
  (BitVec.toNat_ofNat .. ▸ Nat.mod_le _ _ : (maskInLen s w).toNat ≤ w.toNat % 2 ^ s.params.inAddrBits).trans_lt
    (Nat.mod_lt _ (Nat.two_pow_pos _))

theorem State.Inv.regWrite (h : s.Inv) (offset : Nat) (w : Word) : (regWrite s offset w).Inv := by
  cases hb : s.busy with
  | true => rwa [regWrite_busy w hb]
  | false =>
    by_cases hc : offset = 0x0C
    · rw [hc, regWrite_chord w hb]
      exact h.configured hb s.strict w s.inLen h.inLenBits
    · by_cases hl : offset = 0x10
      · rw [hl, regWrite_inLen w hb]
        exact h.configured hb s.strict s.chord (maskInLen s w) (maskInLen_lt s w)
      · rwa [regWrite_other w hc hl]

/-- A reset keeps OUT canonical and in its space, whatever it forgets (R232). -/
theorem State.Bounded.outAfterReset (h : s.Bounded) : Memory.wf (outAfterReset s).words = true ∧
    (∀ c ∈ (outAfterReset s).words, c.1 < s.params.maxPixels) ∧ (outAfterReset s).epoch ≤ s.draws + 1 := by
  have hepoch := h.epoch
  unfold Machine.outAfterReset
  split_ifs
  · exact ⟨h.outWf, h.outSpace, hepoch.trans (Nat.le_succ _)⟩
  · exact ⟨rfl, by simp, le_refl _⟩
  · refine ⟨wf_forgetWritten _ _ h.outWf, fun c hc => ?_, hepoch.trans (Nat.le_succ _)⟩
    obtain ⟨v, hv⟩ := mem_forgetWritten hc
    exact h.outSpace (c.1, v) hv

theorem State.Bounded.reset (h : s.Bounded) : (resetBlock s).Inv := by
  have hbytes : (wordBytes (Config.unspecSlatch s.draws)).length = 4 := rfl
  obtain ⟨hwf, hspace, hepoch⟩ := h.outAfterReset
  have hbound : (resetBlock s).Bounded :=
    ⟨h.params, h.inWf, hwf, h.inSpace, hspace, Nat.two_pow_pos _, Nat.two_pow_pos _, Nat.zero_le _, hbytes.le, hepoch,
      fun hp => absurd hp Bool.false_ne_true⟩
  exact hbound.inv ⟨by simp [State.OneStatus], by simp, by simp, fun _ => ⟨rfl, rfl, by simp, by simp, by simp⟩⟩

/-! ### Every step -/

theorem mem_space_memInsert {m : List Host.Cell} {a lim : Nat} {b : Byte} (h : ∀ c ∈ m, c.1 < lim) (ha : a < lim) :
    ∀ c ∈ memInsert m a b, c.1 < lim := fun c hc => (mem_memInsert hc).elim (fun e => e ▸ ha) (h c)

/-- What a step of the block's turn gives from a state of the invariant. -/
theorem State.Inv.turned_of_step (h : s.Inv) {q : List HostEvent} (hm : BlockMoves s q) :
    ∃ t, step s = .next t ∧ Turned (s.withQueue q) t := by
  rw [step_block hm]
  exact (h.withQueue q).turned

/-- A step from a state of the invariant, with the block's turn as `Turned` says it. -/
theorem State.Inv.step_turned (h : s.Inv) {q : List HostEvent} (hm : BlockMoves s q) (hstep : step s = .next t) :
    Turned (s.withQueue q) t := by
  obtain ⟨u, hu, hturn⟩ := h.turned_of_step hm
  rw [hu] at hstep
  cases hstep
  exact hturn

/-- Every step keeps the invariant. -/
theorem State.Inv.step (h : s.Inv) (hstep : step s = .next t) : t.Inv := by
  cases step_cases hstep with
  | block q t hm => exact (h.withQueue q).turn (h.step_turned hm hstep)
  | ctrl w q => exact (h.withQueue q).ctrlWrite _ _ _ _
  | writeReg offset w q => exact (h.withQueue q).regWrite offset w
  | read q n r _ hn => exact h.withHost (tn := s.tainted) h.inWf h.inSpace hn id
  | writeIn a b q _ ha =>
    exact h.withHost (n := s.draws) (r := s.rdata) (wf_memInsert _ _ _ h.inWf) (mem_space_memInsert h.inSpace ha)
      (le_refl _) fun ht => (Bool.or_eq_false_iff.1 ht).1
  | reset q => exact (h.withQueue q).bounded.reset

/-- Settles O55: every operation a step can be keeps the invariant. -/
theorem stepKeepsInvariant : Obligations.StepKeepsInvariant := fun _ _ => State.Inv.step

/-- Settles O54: at power-up the registers are clear, the memories empty and the parameters in their ranges. -/
theorem resetMeetsInvariant : Obligations.ResetMeetsInvariant := by
  have hbound : State.reset.Bounded :=
    ⟨configParams_valid, rfl, rfl, by simp [State.reset], by simp [State.reset], Nat.two_pow_pos _, Nat.two_pow_pos _,
      Nat.zero_le _, Nat.zero_le _, le_refl _, fun hp => absurd hp Bool.false_ne_true⟩
  exact hbound.inv ⟨by simp [State.OneStatus, State.reset], by simp [State.reset], by simp [State.reset],
    fun _ => ⟨rfl, rfl, by simp [State.reset], by simp [State.reset], by simp [State.reset]⟩⟩

end Sys2Proof.Machine
end

section
/-! PROOFS. What single steps keep: the configuration of a running decode (R36, R50, R186), the status while idle (R25), the
words of OUT from N on (R66). None of these needs the invariant. -/

namespace Sys2Proof.Machine

variable {s t : State}

/-! ### The configuration -/

/-- What no step of the block changes: the parameters, the configuration, the latched header and the decode constants. -/
def State.setup (s : State) : Params × Bool × Word × Word × Word × Word × Word × Consts :=
  (s.params, s.strict, s.chord, s.inLen, s.hdr0, s.hdr1, s.hdr2, s.consts)

theorem setup_eq_iff : t.setup = s.setup ↔ t.params = s.params ∧ t.strict = s.strict ∧ t.chord = s.chord ∧
    t.inLen = s.inLen ∧ t.hdr0 = s.hdr0 ∧ t.hdr1 = s.hdr1 ∧ t.hdr2 = s.hdr2 ∧ t.consts = s.consts := by
  simp [State.setup]

theorem advancePixel_setup (s : State) : (advancePixel s).setup = s.setup := by
  rw [advancePixel_eq]
  rfl

theorem BlockMoved.setup (h : BlockMoved s t) : t.setup = s.setup := by
  cases h with
  | wrote => exact advancePixel_setup _
  | rest | drawn | raised | packet | pixel => rfl

/-- What not even START changes: the parameters, IN and the events to come. -/
def State.fixture (s : State) : Params × List Host.Cell × List HostEvent := (s.params, s.inMem, s.hostQ)

theorem fixture_eq_iff : t.fixture = s.fixture ↔ t.params = s.params ∧ t.inMem = s.inMem ∧ t.hostQ = s.hostQ := by
  simp [State.fixture]

theorem BlockMoved.fixture (h : BlockMoved s t) : t.fixture = s.fixture := by
  cases h with
  | wrote => rw [advancePixel_eq]; rfl
  | rest | drawn | raised | packet | pixel => rfl

theorem beginStream_fixture (c : Consts) (s : State) : (beginStream c s).fixture = s.fixture := by
  unfold beginStream
  by_cases hn : c.n = 0
  · rw [if_pos hn]; rfl
  · rw [if_neg hn]; rfl

theorem headerLatch_fixture (s : State) : (headerLatch s).fixture = s.fixture := by
  obtain ⟨a, b, c, e⟩ := headerLatch_eq s
  rw [e]
  rfl

theorem start_fixture (s : State) : (start s).fixture = s.fixture := by
  have hlatch := headerLatch_fixture (startEntry s)
  rcases start_cases s with ⟨e, -, h⟩ | ⟨c, -, h⟩
  · rw [h]
    exact hlatch
  · rw [h, beginStream_fixture]
    exact hlatch

theorem ctrlWrite_fixture (startBit strict argb abgr : Bool) (s : State) :
    (ctrlWrite startBit strict argb abgr s).fixture = s.fixture := by
  cases hb : s.busy with
  | true => rw [ctrlWrite_busy hb]
  | false =>
    rw [ctrlWrite_idle hb, loadPreset_eq_presetChord]
    split
    · exact start_fixture _
    · rfl

theorem regWrite_fixture (s : State) (offset : Nat) (w : Word) : (regWrite s offset w).fixture = s.fixture := by
  unfold regWrite
  split_ifs <;> rfl

theorem step_params (h : step s = .next t) : t.params = s.params := by
  cases step_cases h with
  | block q t _ hb => exact (fixture_eq_iff.1 hb.fixture).1
  | ctrl w q => exact (fixture_eq_iff.1 (ctrlWrite_fixture _ _ _ _ _)).1
  | writeReg offset w q => exact (fixture_eq_iff.1 (regWrite_fixture _ offset w)).1
  | read | writeIn | reset => rfl

theorem step_inMem (h : step s = .next t) (hw : ∀ a b q, s.hostQ ≠ .writeIn a b :: q) : t.inMem = s.inMem := by
  cases step_cases h with
  | block q t _ hb => exact (fixture_eq_iff.1 hb.fixture).2.1
  | ctrl w q => exact (fixture_eq_iff.1 (ctrlWrite_fixture _ _ _ _ _)).2.1
  | writeReg offset w q => exact (fixture_eq_iff.1 (regWrite_fixture _ offset w)).2.1
  | read | reset => rfl
  | writeIn a b q hq => exact absurd hq (hw a b q)

/-- A step takes one event off the queue, if there is one. -/
theorem step_hostQ (h : step s = .next t) : t.hostQ = s.hostQ.tail := by
  cases step_cases h with
  | block q t hm hb =>
    rw [(fixture_eq_iff.1 hb.fixture).2.2]
    rcases hm with ⟨hq, rfl⟩ | hq <;> rw [hq] <;> rfl
  | ctrl w q hq => rw [(fixture_eq_iff.1 (ctrlWrite_fixture _ _ _ _ _)).2.2, hq]; rfl
  | writeReg offset w q _ hq => rw [(fixture_eq_iff.1 (regWrite_fixture _ offset w)).2.2, hq]; rfl
  | read q n r hq => rcases hq with ⟨_, hq⟩ | ⟨_, hq⟩ | ⟨_, hq⟩ | ⟨_, hq⟩ <;> rw [hq] <;> rfl
  | writeIn a b q hq => rw [hq]; rfl
  | reset q hq => rw [hq]; rfl

/-- Only a reset and a register write while idle change the setup (R36, R186). -/
theorem step_setup (h : step s = .next t) (hr : ∀ q, s.hostQ ≠ .reset :: q)
    (hw : s.busy = true ∨ ∀ offset w q, s.hostQ ≠ .writeReg offset w :: q) : t.setup = s.setup := by
  cases step_cases h with
  | block q t _ hb => exact hb.setup
  | ctrl w q hq =>
    have hb : s.busy = true := hw.resolve_right fun hn => hn 0 w q hq
    rw [ctrlWrite_busy (s := s.withQueue q) hb]
    rfl
  | writeReg offset w q _ hq =>
    have hb : s.busy = true := hw.resolve_right fun hn => hn offset w q hq
    rw [regWrite_busy (s := s.withQueue q) w hb]
    rfl
  | read | writeIn => rfl
  | reset q hq => exact absurd hq (hr q)

/-- Settles O57: the block's turn keeps the setup and IN, and of the host's events each touches its own part alone. -/
theorem stepKeepsConfiguration : Obligations.StepKeepsConfiguration := fun _ _ h =>
  ⟨step_params h, step_inMem h, fun hr hw => (setup_eq_iff.1 (step_setup h hr hw)).2⟩

/-! ### The status while idle -/

/-- DONE, ERR, PAL_OOR, ERRCODE with its cause, PIX_COUNT and IN_PTR. -/
def State.outcome (s : State) : Bool × Bool × Bool × BitVec 3 × Option Cause × Word × Word :=
  (s.done, s.err, s.palOor, s.errCode, s.errCause, s.pixCount, s.inPtr)

theorem regWrite_outcome (s : State) (offset : Nat) (w : Word) : (regWrite s offset w).outcome = s.outcome := by
  unfold regWrite
  split_ifs <;> rfl

/-- While idle the outcome of the last decode stays (R25, R105). -/
theorem step_outcome (hb : s.busy = false) (h : step s = .next t) (hr : ∀ q, s.hostQ ≠ .reset :: q)
    (hs : ∀ w q, s.hostQ = .writeReg 0 w :: q → w.getLsbD 0 = false) : t.outcome = s.outcome := by
  cases step_cases h with
  | block q t hq =>
    rw [step_idle hq hb] at h
    cases h
    rfl
  | ctrl w q hq =>
    rw [hs w q hq, ctrlWrite_config (s := s.withQueue q) hb]
    rfl
  | writeReg offset w q => exact regWrite_outcome _ offset w
  | read | writeIn => rfl
  | reset q hq => exact absurd hq (hr q)

/-- Settles O44: an idle block stays idle, and no event but START and reset touches the outcome. -/
theorem statusKeptWhileIdle : Obligations.StatusKeptWhileIdle := by
  intro s t hb h hr hs
  refine ⟨step_stays_idle hb h hs, ?_⟩
  simpa [State.outcome] using step_outcome hb h hr hs

/-! ### The words of OUT from N on -/

theorem outWord_congr (h : t.out = s.out) (d : Nat) : outWord t d = outWord s d := by
  simp only [outWord, h]

theorem advancePixel_out (s : State) : (advancePixel s).out = s.out := by
  rw [advancePixel_eq]

/-- The block's turn writes no word from N on, unless it raises or draws (R66). -/
theorem BlockMoved.outWord (h : BlockMoved s t) (ht : s.tainted = false) (he : t.err = false) {d : Nat}
    (hd : s.consts.n ≤ d) : outWord t d = outWord s d := by
  cases h with
  | rest | packet | pixel => rfl
  | drawn hb htaint => exact absurd (ht.symm.trans htaint) Bool.false_ne_true
  | wrote d' hb hp _ hr _ hn =>
    rw [outWord_congr (advancePixel_out _), outWord_outWrite, if_neg (by omega)]
  | raised => exact absurd he.symm Bool.false_ne_true

theorem beginStream_out (c : Consts) (s : State) : (beginStream c s).out = s.out := by
  unfold beginStream
  by_cases hn : c.n = 0
  · rw [if_pos hn]; rfl
  · rw [if_neg hn]

/-- START writes no word of OUT, unless it raises (R181, R210). -/
theorem start_out (he : (start s).err = false) : (start s).out = s.out := by
  obtain ⟨a, b, c, hlatch⟩ := headerLatch_eq (startEntry s)
  rcases start_cases s with ⟨e, -, h⟩ | ⟨c, -, h⟩
  · rw [h] at he
    exact absurd he.symm Bool.false_ne_true
  · rw [h, beginStream_out, hlatch]
    rfl

theorem ctrlWrite_out {startBit strict argb abgr : Bool} (he : (ctrlWrite startBit strict argb abgr s).err = false) :
    (ctrlWrite startBit strict argb abgr s).out = s.out := by
  cases hb : s.busy with
  | true => rw [ctrlWrite_busy hb]
  | false =>
    rw [ctrlWrite_idle hb, loadPreset_eq_presetChord] at he ⊢
    cases startBit with
    | true => exact start_out he
    | false => rfl

theorem regWrite_out (s : State) (offset : Nat) (w : Word) : (regWrite s offset w).out = s.out := by
  unfold regWrite
  split_ifs <;> rfl

theorem outWord_resetBlock_above (ht : s.tainted = false) {d : Nat} (hd : s.consts.n ≤ d) :
    outWord (resetBlock s) d = outWord s d := by
  cases hb : s.busy with
  | false => exact outWord_resetBlock_idle hb d
  | true =>
    exact outWord_resetBlock_unwritten hb ht (by simp [writtenByDecode, Nat.not_lt.2 hd])

/-- Settles O58: the pixel write is the only write of a word, below N; a reset forgets only words below N. -/
theorem outWrittenOnlyBelowN : Obligations.OutWrittenOnlyBelowN := by
  intro s t d ht h he hd
  cases step_cases h with
  | block q t _ hb => exact hb.outWord ht he hd
  | ctrl w q => exact outWord_congr (ctrlWrite_out he) d
  | writeReg offset w q => exact outWord_congr (regWrite_out _ offset w) d
  | read | writeIn => rfl
  | reset q => exact outWord_resetBlock_above (s := s.withQueue q) ht hd

end Sys2Proof.Machine
end

section
/-! PROOFS. What single steps do from a state of the invariant: where a step stops (R50, R52), how IN_PTR and the words of OUT
move (R22, R168), and how a decode ends (R51, R64, R237). -/

namespace Sys2Proof.Machine

variable {s t : State}

/-! ### Where a step stops -/

/-- Settles O56: the block's turn goes on, and a host event stops the step exactly when its address check fails. -/
theorem neverStuck : Obligations.NeverStuck := by
  intro s h
  unfold HeadInRange
  match hq : s.hostQ with
  | [] =>
    obtain ⟨t, ht, -⟩ := h.turned_of_step (q := []) (.inl ⟨hq, rfl⟩)
    exact ⟨fun _ => ⟨t, ht⟩, fun hn => absurd trivial hn⟩
  | .wait :: q =>
    obtain ⟨t, ht, -⟩ := h.turned_of_step (q := q) (.inr hq)
    exact ⟨fun _ => ⟨t, ht⟩, fun hn => absurd trivial hn⟩
  | .writeReg offset w :: q =>
    refine ⟨fun _ => ?_, fun hn => absurd trivial hn⟩
    by_cases ho : offset = 0
    · subst ho
      exact ⟨_, step_ctrlWrite hq⟩
    · exact ⟨_, step_writeReg hq ho⟩
  | .readReg offset :: q => exact ⟨fun _ => ⟨_, step_readReg hq⟩, fun hn => absurd trivial hn⟩
  | .writeIn a b :: q =>
    have hstep := step_writeIn hq
    exact ⟨fun ha => ⟨_, hstep.trans (if_pos (decide_eq_true ha))⟩,
      fun ha => .inl ⟨.inl ⟨a, b, q, rfl⟩, hstep.trans (if_neg fun hc => ha (of_decide_eq_true hc))⟩⟩
  | .readIn a :: q =>
    have hstep := step_readIn hq
    exact ⟨fun ha => ⟨_, hstep.trans (if_pos (decide_eq_true ha))⟩,
      fun ha => .inl ⟨.inr ⟨a, q, rfl⟩, hstep.trans (if_neg fun hc => ha (of_decide_eq_true hc))⟩⟩
  | .readOut d :: q =>
    have hstep := step_readOut hq
    exact ⟨fun hd => ⟨_, hstep.trans (if_pos hd)⟩, fun hd => .inr ⟨.inl ⟨d, q, rfl⟩, hstep.trans (if_neg hd)⟩⟩
  | .readOutByte a :: q =>
    have hstep := step_readOutByte hq
    exact ⟨fun ha => ⟨_, hstep.trans (if_pos ha)⟩, fun ha => .inr ⟨.inr ⟨a, q, rfl⟩, hstep.trans (if_neg ha)⟩⟩
  | .reset :: q => exact ⟨fun _ => ⟨_, step_reset hq⟩, fun hn => absurd trivial hn⟩

/-! ### IN_PTR -/

theorem drawnInPtr_toNat (h : s.inOffset ≤ s.inLimit) : (BitVec.ofNat 32 (drawnInPtr s)).toNat = drawnInPtr s :=
  BitVec.toNat_ofNat .. ▸ Nat.mod_eq_of_lt ((drawnInPtr_bounds h).2.trans_lt s.inLen.isLt)

theorem StreamMoved.inPtr (h : StreamMoved s t) (hs : s.Streaming) : s.inOffset ≤ t.inOffset ∧ t.inOffset ≤ s.inLimit := by
  cases h with
  | wrote =>
    rw [advancePixel_eq]
    exact ⟨le_refl _, hs.ptrHigh⟩
  | refused => exact ⟨le_refl _, hs.ptrHigh⟩
  | packet p count kind latch _ _ _ _ _ _ hlow hhigh => exact ⟨hlow, hhigh⟩
  | pixel c oor hr hl =>
    have hf := hs.sampleFits hr hl
    exact ⟨hf.low, hf.high⟩
  | outOfRange hr hl =>
    have hf := hs.sampleFits hr hl
    exact ⟨hf.low, hf.high⟩

/-- Over the block's turn IN_PTR does not move back and does not pass L (R22). -/
theorem Turned.inPtr (h : Turned s t) (hb : s.busy = true) : s.inOffset ≤ t.inOffset ∧ t.inOffset ≤ s.inLimit := by
  cases h with
  | rest hidle => exact absurd (hidle.symm.trans hb) Bool.false_ne_true
  | drawn _ _ hs =>
    have hbounds := drawnInPtr_bounds hs.ptrHigh
    rw [← drawnInPtr_toNat hs.ptrHigh] at hbounds
    exact hbounds
  | moved t _ hs hm => exact hm.inPtr hs

/-- Settles O59: the block's turn stays between IN_PTR and L, and no host event but a reset moves either while BUSY. -/
theorem inPtrNeverBack : Obligations.InPtrNeverBack := by
  intro s t h hb hr hstep
  have hsetup := step_setup hstep hr (.inl hb)
  obtain ⟨-, -, -, hlen, -⟩ := setup_eq_iff.1 hsetup
  have hL : t.inLimit = s.inLimit := congrArg BitVec.toNat hlen
  have hhigh := (h.streaming hb).ptrHigh
  rw [hL]
  cases step_cases hstep with
  | block q t hm => exact (h.step_turned hm hstep).inPtr hb
  | ctrl w q =>
    rw [ctrlWrite_busy (s := s.withQueue q) hb]
    exact ⟨le_refl _, hhigh⟩
  | writeReg offset w q =>
    rw [regWrite_busy (s := s.withQueue q) w hb]
    exact ⟨le_refl _, hhigh⟩
  | read | writeIn => exact ⟨le_refl _, hhigh⟩
  | reset q hq => exact absurd hq (hr q)

/-! ### The cause READ -/

/-- The checks of START never answer READ (R208). -/
theorem validate_ne_read (s : State) : validate s ≠ .error (.truncatedInput .read) := by
  unfold validate
  split_ifs
  · simp
  · simp
  · split
    · simp
    · split
      · simp
      · unfold validateSizes
        split_ifs <;> simp

theorem cause_ne_read {e : DecodeError} (he : e ≠ .truncatedInput .read) : e.cause? ≠ some .read := by
  cases e with
  | truncatedInput c => exact fun hc => he (by simpa [DecodeError.cause?] using hc)
  | _ => simp [DecodeError.cause?]

theorem beginStream_errCause (c : Consts) (s : State) : (beginStream c s).errCause = s.errCause := by
  unfold beginStream
  by_cases hn : c.n = 0
  · rw [if_pos hn]; rfl
  · rw [if_neg hn]

theorem start_cause_ne_read (s : State) : (start s).errCause ≠ some .read := by
  obtain ⟨a, b, c, hlatch⟩ := headerLatch_eq (startEntry s)
  rcases start_cases s with ⟨e, hv, h⟩ | ⟨c, -, h⟩
  · rw [h]
    exact cause_ne_read fun he => validate_ne_read _ (he ▸ hv)
  · rw [h, beginStream_errCause, hlatch]
    exact nofun

theorem ctrlWrite_cause_read {startBit strict argb abgr : Bool}
    (hc : (ctrlWrite startBit strict argb abgr s).errCause = some .read) : s.errCause = some .read := by
  cases hb : s.busy with
  | true => rwa [ctrlWrite_busy hb] at hc
  | false =>
    rw [ctrlWrite_idle hb, loadPreset_eq_presetChord] at hc
    cases startBit with
    | true => exact absurd hc (start_cause_ne_read _)
    | false => exact hc

theorem regWrite_errCause (s : State) (offset : Nat) (w : Word) : (regWrite s offset w).errCause = s.errCause := by
  unfold regWrite
  split_ifs <;> rfl

theorem Turned.cause_read (h : Turned s t) (hc : t.errCause = some .read) : s.errCause = some .read := by
  cases h with
  | rest => exact hc
  | drawn => cases hc
  | moved t _ _ hm =>
    cases hm with
    | wrote =>
      rw [advancePixel_eq] at hc
      exact hc
    | refused e he => exact absurd hc (cause_ne_read he)
    | packet | pixel => exact hc
    | outOfRange => cases hc

/-- Settles O49: neither the block's turn nor START records READ, and no host event records a cause. -/
theorem readErrorNeverReported : Obligations.ReadErrorNeverReported := by
  intro s t h hstep hc
  cases step_cases hstep with
  | block q t hm => exact (h.step_turned hm hstep).cause_read hc
  | ctrl w q => exact ctrlWrite_cause_read (s := s.withQueue q) hc
  | writeReg offset w q => exact (regWrite_errCause (s.withQueue q) offset w).symm.trans hc
  | read | writeIn => exact hc
  | reset => cases hc

/-! ### A disturbed decode -/

/-- Settles O52: the block's move is the draw, whose bounds are those of R22 and R32. -/
theorem dutyBrokenDraws : Obligations.DutyBrokenDraws := by
  intro s q h hm hb ht
  have hs := (h.streaming hb).withHost (m := s.inMem) (n := s.draws) (r := s.rdata) (q := q) (tn := s.tainted)
  have hinv : (drawResult (s.withQueue q)).Inv := (h.withQueue q).drawn hb ht
  have hzero : (drawResult (s.withQueue q)).done = true ↔ Config.drawCode s.draws = 0 := beq_iff_eq
  have hcode : (drawResult (s.withQueue q)).err = true ↔ Config.drawCode s.draws ≠ 0 := bne_iff_ne
  obtain ⟨hlow, hdone, herr⟩ := drawnPixCount_bounds (s := s.withQueue q) hs.pixelLeft
  have hle : drawnPixCount (s.withQueue q) ≤ s.consts.n := by
    by_cases hz : Config.drawCode s.draws = 0
    · exact (hdone hz).le
    · exact (herr hz).le
  have hpos : (drawResult (s.withQueue q)).position = drawnPixCount (s.withQueue q) :=
    (BitVec.toNat_ofNat ..).trans (Nat.mod_eq_of_lt (hle.trans_lt hs.n_lt))
  obtain ⟨hplow, hphigh⟩ := drawnInPtr_bounds (s := s.withQueue q) hs.ptrHigh
  have hptr : (drawResult (s.withQueue q)).inOffset = drawnInPtr (s.withQueue q) :=
    drawnInPtr_toNat (s := s.withQueue q) hs.ptrHigh
  refine ⟨_, step_drawn hm hb hs.phase ht, rfl, rfl, ?_, hinv.errCode, ?_, fun hd => ?_, fun he => ?_, ?_, ?_,
    rfl, rfl, rfl, rfl, rfl, rfl, rfl, fun _ => rfl⟩
  · rw [hzero, ← not_iff_not, Bool.not_eq_false, hcode]
  · rwa [hpos]
  · rw [hpos]
    exact hdone (hzero.1 hd)
  · rw [hpos]
    exact herr (hcode.1 he)
  · rwa [hptr]
  · rwa [hptr]

/-! ### The words of OUT -/

/-- A bijection and its own inverse on the indices of the image (R168). -/
theorem dest_bijOn (flipV flipH : Bool) (w h : Nat) :
    Set.BijOn (dest flipV flipH w h) (Set.Iio (w * h)) (Set.Iio (w * h)) :=
  Set.InvOn.bijOn ⟨fun _ hk => dest_dest hk, fun _ hk => dest_dest hk⟩ (fun _ hk => dest_lt hk) fun _ hk => dest_lt hk

/-- Settles O31: the mapping stays in the image and takes itself back. -/
theorem destPermutation : Obligations.DestPermutation := fun flipV flipH w h =>
  ⟨dest_bijOn flipV flipH w h, fun _ => dest_dest⟩

theorem isSome_memInsert {m : List (Nat × Word)} {a b : Nat} {v : Word} (h : b = a ∨ (memLookup m b).isSome = true) :
    (memLookup (memInsert m a v) b).isSome = true := by
  rw [memLookup_memInsert]
  split
  · rfl
  · next hne => exact h.resolve_left hne

theorem covered_of_ended (hb : t.busy = false) (hd : t.done = false) : Covered t := fun _ hc =>
  hc.elim (fun hc => absurd (hb.symm.trans hc) Bool.false_ne_true) fun hc => absurd (hd.symm.trans hc) Bool.false_ne_true

/-- The pixel write covers the pixel it counts (R168). -/
theorem covered_wrote (hs : s.Streaming) (hd : Decoding s) (hc : Covered s) :
    Covered (advancePixel (outWrite s s.pixelDest s.pixel)) := by
  rw [advancePixel_eq]
  intro _ _ k hk
  have hk : k < s.position + 1 := lt_of_lt_of_eq hk hs.position_succ
  refine isSome_memInsert ?_
  rcases Nat.lt_succ_iff_lt_or_eq.1 hk with hlt | rfl
  · exact .inr (hc hd.2.2 (.inl hd.1) k hlt)
  · exact .inl rfl

theorem Turned.covered (h : Turned s t) (hi : s.Inv) (hc : Covered s) : Covered t := by
  cases h with
  | rest => exact hc
  | drawn _ ht => exact fun hf => absurd (hf.symm.trans ht) Bool.false_ne_true
  | moved t hd hs hm =>
    obtain ⟨hdone, -⟩ := hi.flags_of_busy hd.1
    cases hm with
    | wrote => exact covered_wrote hs hd hc
    | refused => exact covered_of_ended rfl hdone
    | packet | pixel => exact hc
    | outOfRange => exact covered_of_ended rfl hdone

/-- START begins with no pixel counted. -/
theorem start_position (s : State) : (start s).position = 0 := by
  obtain ⟨a, b, c, hlatch⟩ := headerLatch_eq (startEntry s)
  have hbegin (c : Consts) (u : State) : (beginStream c u).position = u.position := by
    unfold beginStream
    split <;> rfl
  rcases start_cases s with ⟨e, -, h⟩ | ⟨c, -, h⟩
  · rw [h, hlatch]
    rfl
  · rw [h, hbegin, hlatch]
    rfl

theorem covered_ctrlWrite (hc : Covered s) (startBit strict argb abgr : Bool) :
    Covered (ctrlWrite startBit strict argb abgr s) := by
  cases hb : s.busy with
  | true => rwa [ctrlWrite_busy hb]
  | false =>
    rw [ctrlWrite_idle hb, loadPreset_eq_presetChord]
    cases startBit with
    | true => exact fun _ _ k hk => absurd (lt_of_lt_of_eq hk (start_position _)) (Nat.not_lt_zero k)
    | false => exact hc

theorem covered_regWrite (hc : Covered s) (offset : Nat) (w : Word) : Covered (regWrite s offset w) := by
  unfold regWrite
  split_ifs <;> exact hc

theorem State.Inv.step_covered (h : s.Inv) (hc : Covered s) (hstep : Machine.step s = .next t) : Covered t := by
  cases step_cases hstep with
  | block q t hm => exact (h.step_turned hm hstep).covered (h.withQueue q) hc
  | ctrl w q => exact covered_ctrlWrite (s := s.withQueue q) hc _ _ _ _
  | writeReg offset w q => exact covered_regWrite (s := s.withQueue q) hc offset w
  | read => exact hc
  | writeIn => exact fun ht => hc (Bool.or_eq_false_iff.1 ht).1
  | reset => exact covered_of_ended rfl rfl

/-- After DONE every index of the image is the destination of a counted pixel (R168). -/
theorem State.Inv.covered_done (h : s.Inv) (hc : Covered s) (hd : s.done = true) (ht : s.tainted = false) {d : Nat}
    (hlt : d < s.width * s.height) : (memLookup s.out.words d).isSome = true := by
  have hb : s.busy = false := by
    obtain ⟨hbd, -⟩ := h.status
    simpa [hd] using hbd
  have hr := h.resting hb
  have hk := hc ht (.inr hd) (dest s.consts.flipV s.consts.flipH s.width s.height d)
    (by rw [hr.counted hd, hr.sized hd]; exact dest_lt hlt)
  rwa [dest_dest hlt] at hk

/-- Settles O60: each pixel write covers the pixel it counts, and at DONE the counted pixels are the whole image. -/
theorem everyPixelWritten : Obligations.EveryPixelWritten :=
  ⟨fun _ _ => State.Inv.step_covered, fun _ h hc hd ht _ => h.covered_done hc hd ht⟩

end Sys2Proof.Machine
end

section
/-! PROOFS. Runs of the block alone: a decode ends within three moves for each pixel left (R237), and one to three moves are
the pixel step as one action (R167). -/

namespace Sys2Proof.Machine

variable {s t u : State}

/-! ### Runs -/

theorem run_one (h : step s = .next t) : run 1 s = .next t := by
  rw [run, h]
  rfl

theorem run_succ_iff {m : Nat} : run (m + 1) s = .next u ↔ ∃ t, step s = .next t ∧ run m t = .next u := by
  rw [run]
  cases step s <;> simp

theorem run_succ {m : Nat} (h : step s = .next t) (hr : run m t = .next u) : run (m + 1) s = .next u :=
  run_succ_iff.2 ⟨t, h, hr⟩

theorem run_add {m k : Nat} (h : run m s = .next t) (hk : run k t = .next u) : run (m + k) s = .next u := by
  induction m generalizing s with
  | zero =>
    cases h
    rwa [Nat.zero_add]
  | succ m ih =>
    obtain ⟨v, hstep, hrest⟩ := run_succ_iff.1 h
    rw [Nat.succ_add]
    exact run_succ hstep (ih hrest)

theorem State.Inv.run (h : s.Inv) {m : Nat} (hr : run m s = .next t) : t.Inv := by
  induction m generalizing s with
  | zero =>
    cases hr
    exact h
  | succ m ih =>
    obtain ⟨v, hstep, hrest⟩ := run_succ_iff.1 hr
    exact ih (h.step hstep) hrest

theorem step_alone (hq : s.hostQ = []) : step s = perform (fetchBlock s) := by
  rw [step_block (.inl ⟨hq, rfl⟩), withQueue_self hq]

/-! ### The end of a decode -/

theorem movesLeft_le (s : State) : movesLeft s ≤ 3 * (s.consts.n - s.position) := Nat.sub_le _ _

theorem State.Streaming.movesLeft_pos (h : s.Streaming) : 1 ≤ movesLeft s := by
  have hleft := h.pixelLeft
  unfold movesLeft
  split_ifs <;> omega

/-- Each move of a running decode ends it, or leaves fewer moves (R237). -/
theorem StreamMoved.progress (h : StreamMoved s t) (hs : s.Streaming) (hd : Decoding s) :
    (t.busy = false ∧ (t.done = true ∨ t.err = true)) ∨
      (Decoding t ∧ t.hostQ = s.hostQ ∧ movesLeft t < movesLeft s) := by
  have hleft := hs.pixelLeft
  cases h with
  | wrote hr =>
    have hpos : (s.pixCount + 1).toNat = s.position + 1 := hs.position_succ
    rcases advancePixel_cases (outWrite s s.pixelDest s.pixel) with ⟨-, e⟩ | ⟨-, e⟩
    · rw [e]
      exact .inl ⟨rfl, .inl rfl⟩
    · rw [e]
      refine .inr ⟨hd, rfl, (movesLeft_le _).trans_lt ?_⟩
      have hbefore : movesLeft s = 3 * (s.consts.n - s.position) - 2 := by simp [movesLeft, hr]
      show 3 * (s.consts.n - (s.pixCount + 1).toNat) < movesLeft s
      omega
  | refused => exact .inl ⟨rfl, .inr rfl⟩
  | packet p count kind latch hr hl hk hpos =>
    refine .inr ⟨hd, rfl, ?_⟩
    have hbefore : movesLeft s = 3 * (s.consts.n - s.position) := by simp [movesLeft, hr, hl, hk]
    have hafter : movesLeft (s.withPacket p count kind latch) = 3 * (s.consts.n - s.position) - 1 := by
      have hready : (s.withPacket p count kind latch).pixelReady = false := hr
      have hcount : (s.withPacket p count kind latch).pktRem ≠ 0 := Nat.one_le_iff_ne_zero.1 hpos
      rw [movesLeft, hready, if_neg Bool.false_ne_true, if_neg (not_headerDue_iff.2 (.inr hcount))]
      rfl
    omega
  | pixel c oor hr hl =>
    refine .inr ⟨hd, rfl, ?_⟩
    have hbefore : movesLeft s = 3 * (s.consts.n - s.position) - 1 := by
      rw [movesLeft, hr, if_neg Bool.false_ne_true, if_neg (not_headerDue_iff.2 hl)]
    have hafter : movesLeft (latchPixel c ((s.sampleTaken s.consts.rle).markOor oor)) =
      3 * (s.consts.n - s.position) - 2 := rfl
    omega
  | outOfRange => exact .inl ⟨rfl, .inr rfl⟩

/-- A decode left alone ends within the moves left. -/
theorem State.Inv.terminates {k : Nat} (h : s.Inv) (hd : Decoding s) (hq : s.hostQ = []) (hk : movesLeft s ≤ k) :
    ∃ m t, m ≤ movesLeft s ∧ Machine.run m s = .next t ∧ t.busy = false ∧ (t.done = true ∨ t.err = true) := by
  have hs := h.streaming hd.1
  have hpos := hs.movesLeft_pos
  induction k generalizing s with
  | zero => omega
  | succ k ih =>
    obtain ⟨t, hturn, hm⟩ := hs.streamMoved hd
    have hstep : Machine.step s = .next t := (step_alone hq).trans hturn
    rcases hm.progress hs hd with hend | ⟨hdt, hqt, hless⟩
    · exact ⟨1, t, hpos, run_one hstep, hend⟩
    · have hinv := h.step hstep
      have hst := hinv.streaming hdt.1
      obtain ⟨m, v, hm, hrun, hend⟩ := ih hinv hdt (hqt.trans hq) (by omega) hst hst.movesLeft_pos
      exact ⟨m + 1, v, by omega, run_succ hstep hrun, hend⟩

/-- Settles O53: every move leaves fewer moves or ends the decode. -/
theorem decodeTerminates : Obligations.DecodeTerminates := fun _ h hd hq => h.terminates hd hq (le_refl _)

/-! ### The pixel step as one action -/

/-- The end of a pixel step as one update (R162, R167). -/
theorem storePixel_eq (c : Rgba) (s : State) : storePixel c s = { s with
    out := (outWrite s s.pixelDest (pack s.consts c)).out, pixCount := s.pixCount + 1
    busy := s.busy && !decide (s.position + 1 = s.consts.n)
    done := s.done || decide (s.position + 1 = s.consts.n)
    phase := if s.position + 1 = s.consts.n then .idle else s.phase } := by
  unfold storePixel
  by_cases h : s.position + 1 = s.consts.n
  · simp [h]
    rfl
  · simp [h]
    rfl

/-- The write of a latched pixel is the end of the pixel step, up to the latch (R167). -/
theorem write_latched (c : Rgba) (hr : s.pixelReady = false) :
    advancePixel (outWrite (latchPixel c s) (latchPixel c s).pixelDest (latchPixel c s).pixel) =
      { storePixel c s with pixel := pack s.consts c } := by
  rw [advancePixel_eq, storePixel_eq, hr]
  rfl

/-- What the pixel step gives for a colour or an error, once its sample is taken (R167). -/
def stored (s : State) : Except DecodeError (Rgba × Bool) → State
  | .error e => raiseError e s
  | .ok (c, oor) => storePixel c (s.markOor oor)

/-- PixelStep where a sample is taken, by its colour (R130, R167). -/
theorem pixelStep_eq {op : Instr} {smp : List Byte} {r : Except DecodeError (Rgba × Bool)}
    (hop : decodeKey s.key = .ok op) (hn : nextSample s.consts.rle s = .ok smp t) (hc : colourOf op smp t = some r) :
    pixelStep s = some (stored t r) := by
  simp only [pixelStep, hop, hn, resolve_eq, hc, Option.map_some]
  cases r <;> rfl

theorem pixelStep_raised {op : Instr} (hop : decodeKey s.key = .ok op) (hn : nextSample s.consts.rle s = .raised t) :
    pixelStep s = some t := by
  simp only [pixelStep, hop, hn]

/-- With a sample at hand, one or two moves are the pixel step. -/
theorem pixelStep_of_sample (h : s.Inv) (hd : Decoding s) (hr : s.pixelReady = false) (hq : s.hostQ = [])
    (hl : s.consts.rle = false ∨ s.pktRem ≠ 0) :
    ∃ m t u, 1 ≤ m ∧ m ≤ 2 ∧ run m s = .next t ∧ pixelStep s = some u ∧ t = { u with pixel := t.pixel } := by
  have hs := h.streaming hd.1
  obtain ⟨op, hop, -⟩ := streaming_consts hs
  have hready := hs.sampleReady hl
  obtain ⟨r, hcolour, -⟩ := hs.coloured hop (sampleBytes_length hready)
  have hu : pixelStep s = some (stored (s.sampleTaken s.consts.rle) r) :=
    pixelStep_eq hop (nextSample_of_ready hready)
      ((colourOf_congr (s := s) (t := s.sampleTaken s.consts.rle) _ _ rfl rfl rfl fun _ _ => rfl).trans hcolour)
  have hstep : step s = latched (s.sampleTaken s.consts.rle) (some r) := by
    rw [step_alone hq, turn_key hd hr hl hop, hs.exec_key_eq hl hop, hcolour]
  cases r with
  | error e => exact ⟨1, _, _, le_refl 1, by omega, run_one hstep, hu, rfl⟩
  | ok x =>
    obtain ⟨c, oor⟩ := x
    have hturn := ((h.step hstep).streaming hd.1).turn_wrote hd rfl
    have hwrite := (step_alone (s := latchPixel c ((s.sampleTaken s.consts.rle).markOor oor)) hq).trans hturn
    refine ⟨2, _, _, by omega, le_refl 2, run_succ hstep (run_one hwrite), hu, ?_⟩
    rw [write_latched c (s := (s.sampleTaken s.consts.rle).markOor oor) hr]
    rfl

theorem fetchPacket_ok (h : fetchPacket s = .ok () t) : t.pktRem ≠ 0 ∧ ∃ p r k l, t = s.withPacket p r k l := by
  have hpos := packetCount_pos (inByte s s.inOffset)
  rcases fetchHeader_cases s with ⟨-, e⟩ | ⟨hi, -⟩
  · rw [fetchPacket, e] at h
    cases h
  rw [fetchPacket_of_header hi] at h
  rcases takePacket_cases (if (inByte s s.inOffset).getLsbD 7 then .run else .raw) (packetCount (inByte s s.inOffset)) s
    with ⟨-, e⟩ | ⟨-, -, e⟩ | ⟨-, -, -, e⟩ | ⟨-, -, -, e⟩ <;> rw [e] at h <;> cases h
  · exact ⟨Nat.one_le_iff_ne_zero.1 hpos, _, _, _, _, rfl⟩
  · exact ⟨Nat.one_le_iff_ne_zero.1 hpos, _, _, _, s.slatch, rfl⟩

/-- A sample whose header is due is that of the state with the header taken (R100). -/
theorem nextSample_after_fetch (hl : s.consts.rle = true) (hk : s.pktRem = 0) (hf : fetchPacket s = .ok () t) :
    nextSample s.consts.rle s = nextSample t.consts.rle t := by
  obtain ⟨hrem, p, r, k, l, rfl⟩ := fetchPacket_ok hf
  have hlt : (s.withPacket p r k l).consts.rle = true := hl
  rw [hl, hlt, nextSample_fetch hk, hf, nextSample_packet hrem]

theorem pixelStep_after_fetch (hl : s.consts.rle = true) (hk : s.pktRem = 0) (hf : fetchPacket s = .ok () t) :
    pixelStep s = pixelStep t := by
  have hkey : t.key = s.key := by
    obtain ⟨-, p, r, k, l, rfl⟩ := fetchPacket_ok hf
    rfl
  rw [pixelStep, pixelStep, nextSample_after_fetch hl hk hf, hkey]

/-- Settles O32: a header that is due is one move and leaves the rest of the same pixel step. -/
theorem pixelStepRefined : Obligations.PixelStepRefined := by
  intro s h hd hr hq
  by_cases hdue : s.consts.rle = true ∧ s.pktRem = 0
  · obtain ⟨hl, hk⟩ := hdue
    obtain ⟨op, hop, -⟩ := streaming_consts (h.streaming hd.1)
    have hstep : step s = packetResult (fetchPacket s) := (step_alone hq).trans (turn_header hd hr hl hk)
    cases hf : fetchPacket s with
    | raised t =>
      have hnext : nextSample s.consts.rle s = .raised t := by rw [hl, nextSample_fetch hk, hf]
      exact ⟨1, t, t, le_refl 1, by omega, run_one (hstep.trans (by rw [hf]; rfl)), pixelStep_raised hop hnext, rfl⟩
    | ok _ v =>
      have hstep : step s = .next v := hstep.trans (by rw [hf]; rfl)
      have hinv := h.step hstep
      have hu := pixelStep_after_fetch hl hk hf
      obtain ⟨hrem, p, r, k, l, rfl⟩ := fetchPacket_ok hf
      obtain ⟨m, t, u, h1, h2, hrun, hpixel, ht⟩ := pixelStep_of_sample hinv hd hr hq (.inr hrem)
      exact ⟨m + 1, t, u, by omega, by omega, run_succ hstep hrun, hu.trans hpixel, ht⟩
  · obtain ⟨m, t, u, h1, h2, hrest⟩ := pixelStep_of_sample h hd hr hq (not_headerDue_iff.1 hdue)
    exact ⟨m, t, u, h1, by omega, hrest⟩

end Sys2Proof.Machine
end

section
/-! PROOFS. What a sample depends on (R100 to R109): two states with the same decode constants, pointers, packet state in use
and bytes of IN below L take the same samples and raise the same errors. -/

namespace Sys2Proof.Machine

variable {s t s' t' : State}

/-- Two states no sample source tells apart: PKT_KIND and SLATCH count while a packet has samples left. -/
structure SameSource (s t : State) : Prop where
  consts : t.consts = s.consts
  inLen : t.inLen = s.inLen
  inPtr : t.inPtr = s.inPtr
  pixCount : t.pixCount = s.pixCount
  pktRem : t.pktRem = s.pktRem
  packet : s.pktRem ≠ 0 → t.pktKind = s.pktKind ∧ (s.pktKind = .run → t.slatch = s.slatch)
  input : ∀ a, a < s.inLimit → inByte t a = inByte s a

/-- Two states got from `s` and `t` by the same move of IN_PTR and of the packet state in use. -/
inductive MovedAlike (s t : State) : State → State → Prop
  | intro {p p' : Word} {r r' : Nat} {k k' : PktKind} {l l' : List Byte} (hp : p' = p) (hr : r' = r)
      (h : r ≠ 0 → k' = k ∧ (k = .run → l' = l)) : MovedAlike s t (s.withPacket p r k l) (t.withPacket p' r' k' l')

/-- Two parts of a pixel step went on alike, or raised alike. -/
inductive EffAlike {α : Type} (s t : State) : Eff α → Eff α → Prop
  | ok {x x' : α} {s' t' : State} (hx : x' = x) (h : MovedAlike s t s' t') : EffAlike s t (.ok x s') (.ok x' t')
  | raised (e : DecodeError) {s' t' : State} (h : MovedAlike s t s' t') :
      EffAlike s t (.raised (raiseError e s')) (.raised (raiseError e t'))

theorem SameSource.moved (h : SameSource s t) (hm : MovedAlike s t s' t') : SameSource s' t' := by
  obtain ⟨hp, hr, hk⟩ := hm
  exact ⟨h.consts, h.inLen, hp, h.pixCount, hr, hk, h.input⟩

/-- No move at all is the same move of both. -/
theorem SameSource.stay (h : SameSource s t) : MovedAlike s t s t := ⟨h.inPtr, h.pktRem, h.packet⟩

theorem MovedAlike.trans {u v : State} (h : MovedAlike s t s' t') (h' : MovedAlike s' t' u v) : MovedAlike s t u v := by
  obtain ⟨-, -, -⟩ := h
  obtain ⟨hp, hr, hk⟩ := h'
  exact ⟨hp, hr, hk⟩

theorem EffAlike.trans {α : Type} {a b : Eff α} (hm : MovedAlike s t s' t') (h : EffAlike s' t' a b) : EffAlike s t a b := by
  cases h with
  | ok hx h => exact .ok hx (hm.trans h)
  | raised e h => exact .raised e (hm.trans h)

theorem SameSource.inLimit (h : SameSource s t) : t.inLimit = s.inLimit := congrArg BitVec.toNat h.inLen

theorem SameSource.inOffset (h : SameSource s t) : t.inOffset = s.inOffset := congrArg BitVec.toNat h.inPtr

theorem SameSource.position (h : SameSource s t) : t.position = s.position := congrArg BitVec.toNat h.pixCount

theorem SameSource.inBytes (h : SameSource s t) {a n : Nat} (hn : a + n ≤ s.inLimit) : inBytes t a n = inBytes s a n :=
  inBytes_congr fun i hi => h.input (a + i) (by omega)

theorem SameSource.takePacket (h : SameSource s t) (kind : PktKind) {count : Nat} (hpos : 1 ≤ count) :
    EffAlike s t (takePacket kind count s) (takePacket kind count t) := by
  have hroom : t.consts.n - t.position = s.consts.n - s.position := by rw [h.consts, h.position]
  have hbody : t.inOffset + 1 + packetBody kind count t.consts.ss = s.inOffset + 1 + packetBody kind count s.consts.ss := by
    rw [h.inOffset, h.consts]
  have hL := h.inLimit
  rcases Nat.lt_or_ge (s.consts.n - s.position) count with hover | hn
  · rw [takePacket_overrun hover, takePacket_overrun (s := t) (by omega)]
    exact .raised _ h.stay
  rcases Nat.lt_or_ge s.inLimit (s.inOffset + 1 + packetBody kind count s.consts.ss) with hshort | hfits
  · rw [takePacket_short hn hshort, takePacket_short (s := t) (by omega) (by omega)]
    exact .raised _ h.stay
  have hn' : t.position + count ≤ t.consts.n := by omega
  have hfits' : t.inOffset + 1 + packetBody kind count t.consts.ss ≤ t.inLimit := by omega
  cases kind with
  | run =>
    rw [takePacket_run (s := s) (by omega) hfits, takePacket_run hn' hfits']
    refine .ok rfl ⟨by rw [h.inPtr, h.consts], rfl, fun _ => ⟨rfl, fun _ => ?_⟩⟩
    rw [h.inOffset, h.consts, h.inBytes (n := s.consts.ss) hfits]
  | raw =>
    rw [takePacket_raw (s := s) (by omega) hfits, takePacket_raw hn' hfits']
    exact .ok rfl ⟨by rw [h.inPtr], rfl, fun _ => ⟨rfl, fun hc => by cases hc⟩⟩

theorem fetchPacket_noHeader (h : s.inLimit ≤ s.inOffset) :
    fetchPacket s = .raised (raiseError (.truncatedInput .packet) s) := by
  rcases fetchHeader_cases s with ⟨-, e⟩ | ⟨hc, -⟩
  · rw [fetchPacket, e]
  · omega

theorem SameSource.fetchPacket (h : SameSource s t) : EffAlike s t (fetchPacket s) (fetchPacket t) := by
  have hL := h.inLimit
  have hO := h.inOffset
  rcases Nat.lt_or_ge s.inOffset s.inLimit with hi | hi
  · rw [fetchPacket_of_header hi, fetchPacket_of_header (s := t) (by omega), hO, h.input _ hi]
    exact h.takePacket _ (packetCount_pos _)
  · rw [fetchPacket_noHeader hi, fetchPacket_noHeader (s := t) (by omega)]
    exact .raised _ h.stay

theorem SameSource.deliver (h : SameSource s t) (hr : s.pktRem ≠ 0) : EffAlike s t (deliver s) (deliver t) := by
  obtain ⟨hkind, hlatch⟩ := h.packet hr
  have hrem : t.pktRem - 1 = s.pktRem - 1 := by rw [h.pktRem]
  have hend : t.inOffset + t.consts.ss = s.inOffset + s.consts.ss := by rw [h.inOffset, h.consts]
  have hL := h.inLimit
  rcases deliver_cases s with ⟨hk, e⟩ | ⟨hk, hb, e⟩ | ⟨hk, hb, e⟩
  · rw [e, deliver_of_run (hkind.trans hk)]
    exact .ok (hlatch hk) ⟨h.inPtr, hrem, fun _ => ⟨hkind, hlatch⟩⟩
  · rw [e, deliver_of_raw (hkind.trans hk) (by omega)]
    refine .ok ?_ ⟨by rw [h.inPtr, h.consts], hrem, fun _ => ⟨hkind, hlatch⟩⟩
    rw [h.inOffset, h.consts, h.inBytes hb]
  · rcases deliver_cases t with ⟨hc, -⟩ | ⟨-, hc, -⟩ | ⟨-, -, e'⟩
    · rw [hkind, hk] at hc
      cases hc
    · omega
    · rw [e, e']
      exact .raised _ h.stay

theorem SameSource.rawSample (h : SameSource s t) : EffAlike s t (rawSample s) (rawSample t) := by
  have hend : t.consts.base + t.position * t.consts.ss + t.consts.ss =
      s.consts.base + s.position * s.consts.ss + s.consts.ss := by rw [h.consts, h.position]
  have hL := h.inLimit
  rcases rawSample_cases s with ⟨hb, e⟩ | ⟨hb, e⟩ <;> rcases rawSample_cases t with ⟨hc, e'⟩ | ⟨hc, e'⟩
  · rw [e, e']
    refine .ok ?_ ⟨by rw [h.consts, h.position], h.pktRem, h.packet⟩
    rw [h.consts, h.position, h.inBytes hb]
  · omega
  · omega
  · rw [e, e']
    exact .raised _ h.stay

/-- Two states no sample source tells apart take the same sample (R100). -/
theorem SameSource.nextSample (h : SameSource s t) (rle : Bool) : EffAlike s t (nextSample rle s) (nextSample rle t) := by
  cases rle with
  | false => exact h.rawSample
  | true =>
    by_cases hr : s.pktRem = 0
    · have hfetch := h.fetchPacket
      rw [nextSample_fetch hr, nextSample_fetch (h.pktRem.trans hr)]
      cases hs : Machine.fetchPacket s with
      | raised u =>
        rw [hs] at hfetch
        generalize Machine.fetchPacket t = b at hfetch ⊢
        cases hfetch with
        | raised e hm => exact .raised e hm
      | ok _ u =>
        rw [hs] at hfetch
        generalize Machine.fetchPacket t = b at hfetch ⊢
        cases hfetch with
        | ok _ hm => exact .trans hm ((h.moved hm).deliver (fetchPacket_ok hs).1)
    · rw [nextSample_packet hr, nextSample_packet fun hc => hr (h.pktRem.symm.trans hc)]
      exact h.deliver hr

end Sys2Proof.Machine
end

section
/-! PROOFS. What a decode depends on (R58, R190): START leaves states that look alike from states that agree on IN below L, IN_LEN,
CHORD and the CTRL word, and states that look alike stay alike. -/

namespace Sys2Proof.Machine

variable {s t s' t' : State}

/-! ### START -/

/-- What START looks at: the parameters, CHORD, STRICT, IN_LEN, IN below L and the events to come. -/
structure SameFile (s t : State) : Prop where
  params : t.params = s.params
  chord : t.chord = s.chord
  strict : t.strict = s.strict
  inLen : t.inLen = s.inLen
  hostQ : t.hostQ = s.hostQ
  input : ∀ a, a < s.inLimit → inByte t a = inByte s a

/-- The header latch reads below 18, and 18 is at most L where it reads (R35). -/
theorem SameFile.header (h : SameFile s t) : (headerLatch t).header = (headerLatch s).header := by
  have hL : t.inLimit = s.inLimit := congrArg BitVec.toNat h.inLen
  rw [headerLatch_header, headerLatch_header, hL]
  split
  · next h18 =>
    have hb (a : Nat) (ha : a < 18) : inByte t a = inByte s a := h.input a (by omega)
    have h16 (a : Nat) (ha : a + 1 < 18) : le16 t a = le16 s a := by rw [le16, le16, hb _ ha, hb _ (by omega)]
    rw [hb 17 (by decide), hb 7 (by decide), hb 16 (by decide), hb 2 (by decide), h16 14 (by decide), h16 12 (by decide),
      h16 5 (by decide), h16 3 (by decide)]
  · rfl

/-- A state with another latched header. -/
def State.withHeader (s : State) (a b c : Word) : State := { s with hdr0 := a, hdr1 := b, hdr2 := c }

/-- START latches the same header in both (R35). -/
theorem SameFile.latched (h : SameFile s t) : ∃ a b c, headerLatch (startEntry s) = (startEntry s).withHeader a b c ∧
    headerLatch (startEntry t) = (startEntry t).withHeader a b c := by
  obtain ⟨a, b, c, hs⟩ := headerLatch_eq (startEntry s)
  obtain ⟨a', b', c', ht⟩ := headerLatch_eq (startEntry t)
  have hheader : (headerLatch (startEntry t)).header = (headerLatch (startEntry s)).header :=
    SameFile.header ⟨h.params, h.chord, h.strict, h.inLen, h.hostQ, h.input⟩
  rw [hs, ht, header_eq_iff] at hheader
  obtain ⟨rfl, rfl, rfl⟩ : a' = a ∧ b' = b ∧ c' = c := hheader
  exact ⟨a', b', c', hs, ht⟩

theorem SameFile.raised (h : SameFile s t) (a b c : Word) (e : DecodeError) :
    SameView (raiseError e ((startEntry s).withHeader a b c)) (raiseError e ((startEntry t).withHeader a b c)) where
  params := h.params
  strict := h.strict
  busy := rfl
  done := rfl
  err := rfl
  palOor := rfl
  errCode := rfl
  errCause := rfl
  chord := h.chord
  inLen := h.inLen
  hdr0 := rfl
  hdr1 := rfl
  hdr2 := rfl
  pixCount := rfl
  inPtr := rfl
  pktRem := rfl
  phase := rfl
  pixelReady := rfl
  hostQ := h.hostQ
  clean := ⟨rfl, rfl⟩
  consts hb := by simp [State.withHeader, startEntry, startFlags] at hb
  packet hr := absurd rfl hr
  pixel hr := absurd hr Bool.false_ne_true
  input := h.input
  output _ k hk := absurd hk (Nat.not_lt_zero k)

theorem SameFile.began (h : SameFile s t) (a b c : Word) (d : Consts) :
    SameView (beginStream d ((startEntry s).withHeader a b c)) (beginStream d ((startEntry t).withHeader a b c)) := by
  unfold beginStream
  split <;> exact
    { params := h.params, strict := h.strict, busy := rfl, done := rfl, err := rfl, palOor := rfl, errCode := rfl
      errCause := rfl, chord := h.chord, inLen := h.inLen, hdr0 := rfl, hdr1 := rfl, hdr2 := rfl, pixCount := rfl
      inPtr := rfl, pktRem := rfl, phase := rfl, pixelReady := rfl, hostQ := h.hostQ, clean := ⟨rfl, rfl⟩
      consts := fun _ => rfl, packet := fun hr => absurd rfl hr, pixel := fun hr => absurd hr Bool.false_ne_true
      input := h.input, output := fun _ k hk => absurd hk (Nat.not_lt_zero k) }

/-- START leaves states that look alike (R58). -/
theorem SameFile.start (h : SameFile s t) : SameView (start s) (start t) := by
  obtain ⟨a, b, c, hs, ht⟩ := h.latched
  have hvalid : validate ((startEntry t).withHeader a b c) = validate ((startEntry s).withHeader a b c) :=
    validate_congr h.params h.chord h.inLen rfl rfl rfl h.strict
  unfold Machine.start
  rw [hs, ht]
  dsimp only
  rw [hvalid]
  cases validate ((startEntry s).withHeader a b c) with
  | error e => exact h.raised a b c e
  | ok d => exact h.began a b c d

/-- Settles O45: the other bits of the word and CHORD leave files that agree, and START looks at no more. -/
theorem startForgetsHistory : Obligations.StartForgetsHistory := by
  intro strict argb abgr x s t hbs hbt hparams hchord hlen hq hin
  refine ⟨_, _, rfl, rfl, ?_⟩
  rw [ctrlWrite_idle hbs, ctrlWrite_idle hbt, loadPreset_eq_presetChord, loadPreset_eq_presetChord]
  exact SameFile.start ⟨hparams, congrArg (presetChord argb abgr) hchord, rfl, hlen, hq, hin⟩

/-! ### Steps of states that look alike -/

theorem SameView.file (h : SameView s t) : SameFile s t := ⟨h.params, h.chord, h.strict, h.inLen, h.hostQ, h.input⟩

theorem SameView.source (h : SameView s t) (hb : s.busy = true) : SameSource s t :=
  ⟨h.consts (.inl hb), h.inLen, h.inPtr, h.pixCount, h.pktRem, h.packet, h.input⟩

theorem SameView.withQueue (h : SameView s t) (q : List HostEvent) : SameView (s.withQueue q) (t.withQueue q) :=
  { h with hostQ := rfl }

theorem SameView.moved (h : SameView s t) (hm : MovedAlike s t s' t') : SameView s' t' := by
  obtain ⟨hp, hr, hk⟩ := hm
  exact { h with inPtr := hp, pktRem := hr, packet := hk }

theorem SameView.raise (h : SameView s t) (hd : s.done = false) (e : DecodeError) :
    SameView (raiseError e s) (raiseError e t) := by
  have hover : ¬((raiseError e s).busy = true ∨ (raiseError e s).done = true) := by simp [hd]
  exact { h with
    busy := rfl, err := rfl, errCode := rfl, errCause := rfl, phase := rfl, pixelReady := rfl
    consts := fun hb => absurd hb hover, pixel := fun hr => absurd hr Bool.false_ne_true
    output := fun hb => absurd hb hover }

/-- Latching the same colour under the same decode constants (R143). -/
theorem SameView.latch (h : SameView s t) (hb : s.busy = true) (c : Rgba) (oor : Bool) :
    SameView (latchPixel c (s.markOor oor)) (latchPixel c (t.markOor oor)) := by
  have hoor : (t.palOor || oor) = (s.palOor || oor) := by rw [h.palOor]
  have hpixel : pack t.consts c = pack s.consts c := by rw [h.consts (.inl hb)]
  exact { h with palOor := hoor, pixelReady := rfl, pixel := fun _ => hpixel }

theorem SameView.latched (h : SameView s t) (hb : s.busy = true) (hd : s.done = false)
    {o : Option (Except DecodeError (Rgba × Bool))} (hs : latched s o = .next s') :
    ∃ t', latched t o = .next t' ∧ SameView s' t' := by
  match o with
  | none => cases hs
  | some (.error e) =>
    cases hs
    exact ⟨_, rfl, h.raise hd e⟩
  | some (.ok (c, oor)) =>
    cases hs
    exact ⟨_, rfl, h.latch hb c oor⟩

/-- The pixel write at the same index of the same word (R167). -/
theorem SameView.wrote (h : SameView s t) (hs : s.Streaming) (hb : s.busy = true) (hr : s.pixelReady = true) :
    SameView (advancePixel (outWrite s s.pixelDest s.pixel)) (advancePixel (outWrite t s.pixelDest t.pixel)) := by
  have hconsts := h.consts (.inl hb)
  have hpos : t.position = s.position := (h.source hb).position
  have hlast : decide (t.position + 1 = t.consts.n) = decide (s.position + 1 = s.consts.n) := by rw [hpos, hconsts]
  have hbusy : (t.busy && !decide (t.position + 1 = t.consts.n)) = (s.busy && !decide (s.position + 1 = s.consts.n)) := by
    rw [hlast, h.busy]
  have hdone : (t.done || decide (t.position + 1 = t.consts.n)) = (s.done || decide (s.position + 1 = s.consts.n)) := by
    rw [hlast, h.done]
  have hphase : (if t.position + 1 = t.consts.n then Phase.idle else t.phase) =
      if s.position + 1 = s.consts.n then .idle else s.phase := by rw [hpos, hconsts, h.phase]
  have houtput (k : Nat) (hk : k < s.position + 1) :
      outWord (outWrite t s.pixelDest t.pixel) (dest s.consts.flipV s.consts.flipH s.width s.height k) =
        outWord (outWrite s s.pixelDest s.pixel) (dest s.consts.flipV s.consts.flipH s.width s.height k) := by
    rw [outWord_outWrite, outWord_outWrite, h.pixel hr]
    split
    · rfl
    · next hne =>
      refine h.output (.inl hb) k (Nat.lt_of_le_of_ne (Nat.le_of_lt_succ hk) fun hc => hne ?_)
      rw [hc]
      rfl
  rw [advancePixel_eq, advancePixel_eq]
  exact { h with
    busy := hbusy, done := hdone, phase := hphase, pixCount := congrArg (· + 1) h.pixCount, pixelReady := rfl
    consts := fun _ => hconsts, pixel := fun hr => absurd hr Bool.false_ne_true
    output := fun _ k hk => houtput k (lt_of_lt_of_eq hk hs.position_succ) }

theorem SameView.decoding (h : SameView s t) (hd : Decoding s) : Decoding t :=
  ⟨h.busy.trans hd.1, h.phase.trans hd.2.1, h.clean.2⟩

theorem SameView.key (h : SameView s t) : t.key = s.key := by
  simp only [State.key, State.cmapDepth, State.depth, State.typ, h.hdr0]

/-- A header that is due, taken by both (R101). -/
theorem SameView.turn_header (h : SameView s t) (hd : Decoding s) (hdone : s.done = false)
    (hs : packetResult (fetchPacket s) = .next s') :
    ∃ t', packetResult (fetchPacket t) = .next t' ∧ SameView s' t' := by
  have halike := (h.source hd.1).fetchPacket
  generalize fetchPacket s = a at hs halike
  generalize fetchPacket t = b at halike ⊢
  cases halike with
  | ok _ hm =>
    cases hs
    exact ⟨_, rfl, h.moved hm⟩
  | raised e hm =>
    cases hs
    obtain ⟨hp, hr, hk⟩ := hm
    exact ⟨_, rfl, (h.moved ⟨hp, hr, hk⟩).raise hdone e⟩

/-- The pixel operation of the key, done by both (R130). -/
theorem SameView.turn_key (h : SameView s t) (hd : Decoding s) (hdone : s.done = false) {op : Instr}
    (hop : op.slot = .key) (hs : exec op s = .next s') : ∃ t', exec op t = .next t' ∧ SameView s' t' := by
  have halike := (h.source hd.1).nextSample (keyRle op)
  rw [exec_key hop] at hs ⊢
  generalize nextSample (keyRle op) s = a at hs halike
  generalize nextSample (keyRle op) t = b at halike ⊢
  cases halike with
  | raised e hm =>
    cases hs
    obtain ⟨hp, hr, hk⟩ := hm
    exact ⟨_, rfl, (h.moved ⟨hp, hr, hk⟩).raise hdone e⟩
  | @ok smp smp' u v hx hm =>
    subst hx
    obtain ⟨hp, hr, hk⟩ := hm
    have hview := h.moved ⟨hp, hr, hk⟩
    dsimp only at hs ⊢
    rw [pixelRest_eq] at hs ⊢
    rw [colourOf_congr _ _ (hview.consts (.inl hd.1)) hview.hdr2 hview.inLen hview.input]
    exact hview.latched hd.1 hdone hs

theorem SameView.turn (h : SameView s t) (hi : s.Inv) (hs : perform (fetchBlock s) = .next s') :
    ∃ t', perform (fetchBlock t) = .next t' ∧ SameView s' t' := by
  cases hb : s.busy with
  | false =>
    have hrest {u : State} (hu : u.busy = false) : perform (fetchBlock u) = .next u := by simp [fetchBlock, hu]
    rw [hrest hb] at hs
    cases hs
    exact ⟨t, hrest (h.busy.trans hb), h⟩
  | true =>
    have hstream := hi.streaming hb
    obtain ⟨hdone, -⟩ := hi.flags_of_busy hb
    have hd : Decoding s := ⟨hb, hstream.phase, h.clean.1⟩
    have hdt := h.decoding hd
    have hconsts := h.consts (.inl hb)
    cases hr : s.pixelReady with
    | true =>
      rw [hstream.turn_wrote hd hr] at hs
      cases hs
      refine ⟨_, ?_, h.wrote hstream hb hr⟩
      obtain ⟨hv, hh⟩ := hstream.flips
      have hdest : dest (!t.desc.getLsbD 5) (t.desc.getLsbD 4) t.width t.height t.position = s.pixelDest := by
        rw [State.pixelDest, hv, hh, (h.source hb).position]
        simp only [State.desc, State.width, State.height, h.hdr0, h.hdr1]
      rw [turn_write hdt (h.pixelReady.trans hr), hdest]
      exact if_pos (hconsts ▸ hstream.pixelDest_lt)
    | false =>
      have hrt := h.pixelReady.trans hr
      by_cases hdue : s.consts.rle = true ∧ s.pktRem = 0
      · obtain ⟨hl, hk⟩ := hdue
        rw [Machine.turn_header hd hr hl hk] at hs
        rw [Machine.turn_header hdt hrt (hconsts ▸ hl) (h.pktRem.trans hk)]
        exact h.turn_header hd hdone hs
      · have hl := not_headerDue_iff.1 hdue
        have hlt : t.consts.rle = false ∨ t.pktRem ≠ 0 := by rwa [hconsts, h.pktRem]
        obtain ⟨op, hop, -⟩ := streaming_consts hstream
        rw [Machine.turn_key hd hr hl hop] at hs
        rw [Machine.turn_key hdt hrt hlt (h.key ▸ hop)]
        exact h.turn_key hd hdone (decodeKey_imageType hop).2 hs

theorem SameView.ctrlWrite (h : SameView s t) (startBit strict argb abgr : Bool) :
    SameView (ctrlWrite startBit strict argb abgr s) (ctrlWrite startBit strict argb abgr t) := by
  cases hb : s.busy with
  | true => rwa [ctrlWrite_busy hb, ctrlWrite_busy (h.busy.trans hb)]
  | false =>
    rw [ctrlWrite_idle hb, ctrlWrite_idle (h.busy.trans hb), loadPreset_eq_presetChord, loadPreset_eq_presetChord]
    have hchord := congrArg (presetChord argb abgr) h.chord
    cases startBit with
    | true => exact SameFile.start ⟨h.params, hchord, rfl, h.inLen, h.hostQ, h.input⟩
    | false => exact { h with strict := rfl, chord := hchord }

/-- One step of two states that look alike, over a quiet event (R190). -/
theorem SameView.step (h : SameView s t) (hi : s.Inv) (hq : ∀ e ∈ s.hostQ, QuietEvent e)
    (hs : step s = .next s') : ∃ t', step t = .next t' ∧ SameView s' t' := by
  match hqs : s.hostQ with
  | [] =>
    have hqt := h.hostQ.trans hqs
    rw [step_alone hqs] at hs
    rw [step_alone hqt]
    exact h.turn hi hs
  | e :: q =>
    have hqt := h.hostQ.trans hqs
    have hview := h.withQueue q
    rcases hq e (by rw [hqs]; exact List.mem_cons_self) with rfl | ⟨w, rfl⟩ | ⟨offset, rfl⟩
    · rw [step_block (.inr hqs)] at hs
      rw [step_block (.inr hqt)]
      exact hview.turn (hi.withQueue q) hs
    · rw [step_ctrlWrite hqs] at hs
      cases hs
      exact ⟨_, step_ctrlWrite hqt, hview.ctrlWrite _ _ _ _⟩
    · rw [step_readReg hqs] at hs
      cases hs
      exact ⟨_, step_readReg hqt, { hview with }⟩

/-- Settles O46: by induction over the steps, each of which keeps the invariant and the likeness. -/
theorem decodeReadsNothingElse : Obligations.DecodeReadsNothingElse := by
  intro m
  induction m with
  | zero =>
    intro s t s' _ hview _ hrun
    cases hrun
    exact ⟨t, rfl, hview⟩
  | succ m ih =>
    intro s t s' hi hview hq hrun
    obtain ⟨u, hstep, hrest⟩ := run_succ_iff.1 hrun
    obtain ⟨v, hstep', hview'⟩ := hview.step hi hq hstep
    have hqu (e : HostEvent) (he : e ∈ u.hostQ) : QuietEvent e := by
      rw [step_hostQ hstep] at he
      exact hq e (List.mem_of_mem_tail he)
    obtain ⟨t', hrun', hend⟩ := ih u v s' (hi.step hstep) hview' hqu hrest
    exact ⟨t', run_succ hstep' hrun', hend⟩

end Sys2Proof.Machine
end

section
/-! PROOFS. The whole decode (R190): the samples of a stream are taken one by one, each pixel step stores the colour of its
sample at its destination, and the last one ends the decode with DONE. -/

namespace Sys2Proof.Machine

variable {s t u v : State} {rle : Bool} {smps : List (List Byte)} {p : Nat}

/-! ### The samples of a stream -/

/-- From this state NextSample gives these samples one after another, PIX_COUNT stepping between them, and leaves IN_PTR at
`p` (R100, R109, R167). -/
inductive Supplies (rle : Bool) : State → List (List Byte) → Nat → Prop
  | nil (s : State) : Supplies rle s [] s.inOffset
  | cons {s t : State} {smp : List Byte} {smps : List (List Byte)} {p : Nat} (h : nextSample rle s = .ok smp t)
      (hrest : Supplies rle (t.withPixCount (t.pixCount + 1)) smps p) : Supplies rle s (smp :: smps) p

theorem SameSource.withPixCount (h : SameSource s t) : SameSource (s.withPixCount (s.pixCount + 1))
    (t.withPixCount (t.pixCount + 1)) := { h with pixCount := congrArg (· + 1) h.pixCount }

/-- The samples depend on what a sample source looks at alone. -/
theorem SameSource.supplies (h : SameSource s t) (hs : Supplies rle s smps p) : Supplies rle t smps p := by
  induction hs generalizing t with
  | nil s =>
    rw [← h.inOffset]
    exact .nil t
  | @cons s s' smp smps p hnext _ ih =>
    have halike := h.nextSample rle
    rw [hnext] at halike
    generalize hb : Machine.nextSample rle t = b at halike
    cases halike with
    | ok hx hm =>
      subst hx
      exact .cons hb (ih (h.moved hm).withPixCount)

/-- The samples Expand's rule collects, one by one (R111). -/
theorem supplies_of_collect {m : Nat} {out stream : List Byte} (h : collect m out s = .ok stream t) :
    ∃ smps, smps.length = m ∧ Supplies true s smps t.inOffset ∧ stream = out ++ smps.flatten := by
  induction m generalizing out s with
  | zero =>
    cases h
    exact ⟨[], rfl, .nil t, by simp⟩
  | succ m ih =>
    rw [collect] at h
    cases hn : nextSample true s with
    | raised u => rw [hn] at h; cases h
    | ok smp u =>
      rw [hn] at h
      obtain ⟨smps, hlen, hsupplies, rfl⟩ := ih h
      exact ⟨smp :: smps, by rw [List.length_cons, hlen], .cons hn hsupplies, by simp⟩

/-- An uncompressed sample that lies below L, and the state in which PIX_COUNT has stepped past it (R109, R167). -/
theorem nextSample_flat_of_le (hend : s.consts.base + (s.position + 1) * s.consts.ss ≤ s.inLimit)
    (hcount : s.position + 1 < 2 ^ 32) : ∃ t v,
    nextSample false s = .ok (inBytes s (s.consts.base + s.position * s.consts.ss) s.consts.ss) t ∧
      t.withPixCount (t.pixCount + 1) = v ∧ v.inOffset = s.consts.base + (s.position + 1) * s.consts.ss ∧
      v.position = s.position + 1 ∧ v.consts = s.consts ∧ v.inLimit = s.inLimit ∧ v.inMem = s.inMem := by
  refine ⟨_, _, nextSample_of_ready (rle := false) (.inl ⟨rfl, hend⟩), rfl, ?_, ?_, rfl, rfl, rfl⟩
  · exact (BitVec.toNat_ofNat ..).trans (Nat.mod_eq_of_lt (hend.trans_lt s.inLen.isLt))
  · exact toNat_add_ofNat (d := 1) hcount

/-- The samples of an uncompressed image are the groups of SS bytes from BASE on (R109). -/
theorem supplies_flat {m : Nat} (hptr : s.inOffset = s.consts.base + s.position * s.consts.ss)
    (hend : s.consts.base + (s.position + m) * s.consts.ss ≤ s.inLimit) (hcount : s.position + m < 2 ^ 32) :
    ∃ smps, smps.length = m ∧ Supplies false s smps (s.consts.base + (s.position + m) * s.consts.ss) ∧
      smps.flatten = inBytes s (s.consts.base + s.position * s.consts.ss) (m * s.consts.ss) := by
  induction m generalizing s with
  | zero => exact ⟨[], rfl, hptr ▸ .nil s, by simp [inBytes]⟩
  | succ m ih =>
    have hswap : s.position + (m + 1) = s.position + 1 + m := by omega
    rw [hswap] at hcount hend ⊢
    have hfirst : s.consts.base + (s.position + 1) * s.consts.ss ≤ s.inLimit :=
      (Nat.add_le_add_left (Nat.mul_le_mul_right _ (Nat.le_add_right _ _)) _).trans hend
    obtain ⟨t, v, hnext, hv, hvptr, hvpos, hvc, hvl, hvm⟩ := nextSample_flat_of_le hfirst (by omega)
    obtain ⟨smps, hlen, hsupplies, hflatten⟩ := ih (s := v) (by rw [hvptr, hvpos, hvc])
      (by rwa [hvpos, hvc, hvl]) (by rwa [hvpos])
    rw [hvpos, hvc] at hsupplies hflatten
    rw [inBytes_eq_of_inMem hvm] at hflatten
    refine ⟨_ :: smps, by rw [List.length_cons, hlen], .cons hnext (hv ▸ hsupplies), ?_⟩
    rw [List.flatten_cons, hflatten, Nat.succ_mul m, Nat.add_comm (m * _), inBytes_append, Nat.succ_mul s.position,
      Nat.add_assoc s.consts.base]

/-- The stream of a file, as the samples the machine takes from its start (R109, R111). -/
theorem supplies_of_streamOf {stream : List Byte} (h : s.Inv) (hstart : AtStreamStart s) (hstream : StreamOf s stream p) :
    ∃ smps, smps.length = s.consts.n ∧ Supplies s.consts.rle s smps p ∧ smps.flatten = stream := by
  have hs := h.streaming hstart.decoding.1
  rcases hstream with ⟨hrle, rfl, rfl⟩ | ⟨hrle, hexpand⟩
  · have hend := hs.flat_end hrle (le_refl s.consts.n)
    obtain ⟨smps, hlen, hsupplies, hflatten⟩ := supplies_flat (s := s) (m := s.consts.n)
      (by rw [hstart.pointer, hstart.position, Nat.zero_mul, Nat.add_zero]) (by rwa [hstart.position, Nat.zero_add])
      (by rw [hstart.position, Nat.zero_add]; exact hs.n_lt)
    rw [hstart.position, Nat.zero_add, Nat.mul_comm] at hsupplies
    rw [hstart.position, Nat.zero_mul, Nat.add_zero, Nat.mul_comm] at hflatten
    exact ⟨smps, hlen, hrle ▸ hsupplies, hflatten⟩
  · obtain ⟨t, hcollect, rfl, -⟩ := (expandRefined s h hstart hrle).1 stream p hexpand
    obtain ⟨smps, hlen, hsupplies, rfl⟩ := supplies_of_collect hcollect
    exact ⟨smps, hlen, hrle ▸ hsupplies, rfl⟩

/-- In a running decode a sample has SS bytes (R36, R101). -/
theorem State.Inv.sample_length {smp : List Byte} (h : s.Inv) (hd : Decoding s) (hr : s.pixelReady = false)
    (hq : s.hostQ = []) (hn : nextSample s.consts.rle s = .ok smp t) : smp.length = s.consts.ss := by
  have hsample {u : State} (hu : u.Streaming) (hl : u.consts.rle = false ∨ u.pktRem ≠ 0)
      (hn : nextSample u.consts.rle u = .ok smp t) : smp.length = u.consts.ss := by
    have hready := hu.sampleReady hl
    rw [nextSample_of_ready hready] at hn
    cases hn
    exact sampleBytes_length hready
  by_cases hdue : s.consts.rle = true ∧ s.pktRem = 0
  · obtain ⟨hl, hk⟩ := hdue
    cases hf : fetchPacket s with
    | raised v =>
      rw [hl, nextSample_fetch hk, hf] at hn
      cases hn
    | ok _ v =>
      have hstep : Machine.step s = .next v := by
        rw [step_alone hq, turn_header hd hr hl hk, hf]
        rfl
      rw [nextSample_after_fetch hl hk hf] at hn
      have hinv := h.step hstep
      obtain ⟨hrem, p, r, k, l, rfl⟩ := fetchPacket_ok hf
      exact hsample (u := s.withPacket p r k l) (hinv.streaming hd.1) (.inr hrem) hn
  · exact hsample (h.streaming hd.1) (not_headerDue_iff.1 hdue) hn

/-! ### One pixel of the decode -/

/-- The state after a pixel step that stored a colour, the sample taken at `u` (R167). -/
structure PixelDone (s v : State) (c : Rgba) (oor : Bool) : Prop where
  position : v.position = s.position + 1
  header : v.header = s.header
  consts : v.consts = s.consts
  inLen : v.inLen = s.inLen
  inMem : v.inMem = s.inMem
  hostQ : v.hostQ = s.hostQ
  noPixel : v.pixelReady = false
  palOor : v.palOor = (s.palOor || oor)
  word : ∀ d, outWord v d = if d = s.pixelDest then pack s.consts c else outWord s d
  goes : s.position + 1 ≠ s.consts.n → Decoding v
  ends : s.position + 1 = s.consts.n → v.done = true ∧ v.busy = false ∧ v.err = false

/-- One pixel of a running decode whose sample resolves to a colour: up to three steps store it, and the next samples are
those after it. -/
theorem State.Inv.pixelDone {op : Instr} {smp : List Byte} {c : Rgba} {oor : Bool} (h : s.Inv) (hd : Decoding s)
    (hr : s.pixelReady = false) (hq : s.hostQ = []) (hop : decodeKey s.key = .ok op)
    (hs : Supplies s.consts.rle s (smp :: smps) p) (hc : colourOf op smp s = some (.ok (c, oor))) :
    ∃ m v, Machine.run m s = .next v ∧ v.Inv ∧ PixelDone s v c oor ∧ Supplies s.consts.rle v smps p := by
  obtain ⟨m, v, u, -, -, hrun, hpixel, hv⟩ := pixelStepRefined s h hd hr hq
  have hinv := h.run hrun
  obtain ⟨-, herr, -⟩ := h.flags_of_busy hd.1
  have hpos := (h.streaming hd.1).position_succ
  cases hs with
  | @cons _ t _ _ _ hnext hrest =>
    obtain ⟨ptr, rem, kind, latch, ⟨e, he⟩ | ⟨smp', hok⟩⟩ := nextSample_shape s.consts.rle s
    · rw [hnext] at he
      cases he
    rw [hnext] at hok
    cases hok
    have hcolour : colourOf op smp (s.withPacket ptr rem kind latch) = some (.ok (c, oor)) :=
      (colourOf_congr (s := s) (t := s.withPacket ptr rem kind latch) op smp rfl rfl rfl fun _ _ => rfl).trans hc
    rw [pixelStep_eq hop hnext hcolour] at hpixel
    obtain rfl := Option.some.inj hpixel
    rw [stored, storePixel_eq] at hv
    refine ⟨m, v, hrun, hinv, ?_, ?_⟩
    · rw [hv]
      refine ⟨hpos, rfl, rfl, rfl, rfl, rfl, hr, rfl, fun d => outWord_outWrite s s.pixelDest d _, fun hne => ?_, fun he => ?_⟩
      · have hmore : ¬(s.position + 1 = s.consts.n) := hne
        refine ⟨?_, ?_, hd.2.2⟩
        · show (s.busy && !decide (s.position + 1 = s.consts.n)) = true
          simp [hd.1, hmore]
        · show (if s.position + 1 = s.consts.n then Phase.idle else s.phase) = .stream
          rw [if_neg hmore, hd.2.1]
      · refine ⟨?_, ?_, herr⟩
        · show (s.done || decide (s.position + 1 = s.consts.n)) = true
          simp [he]
        · show (s.busy && !decide (s.position + 1 = s.consts.n)) = false
          simp [he]
    · refine SameSource.supplies ?_ hrest
      rw [hv]
      exact ⟨rfl, rfl, rfl, rfl, rfl, fun _ => ⟨rfl, fun _ => rfl⟩, fun _ _ => rfl⟩

/-! ### The rest of the decode -/

/-- The end of a decode entered at `s`: DONE with IN_PTR at `p`, the colours of the positions left stored at their
destinations and every other word as it was (R190). -/
structure Finished (s t : State) (p : Nat) (colour : Nat → Rgba) (oor : Nat → Bool) : Prop where
  ends : t.done = true ∧ t.busy = false ∧ t.err = false
  position : t.position = s.consts.n
  pointer : t.inOffset = p
  header : t.header = s.header
  palOor : t.palOor = true ↔ s.palOor = true ∨ ∃ k, s.position ≤ k ∧ k < s.consts.n ∧ oor k = true
  written : ∀ k, s.position ≤ k → k < s.consts.n →
    outWord t (dest s.consts.flipV s.consts.flipH s.width s.height k) = pack s.consts (colour k)
  kept : ∀ d, (∀ k, s.position ≤ k → k < s.consts.n → dest s.consts.flipV s.consts.flipH s.width s.height k ≠ d) →
    outWord t d = outWord s d

/-- Two positions of the image have two destinations (R168). -/
theorem State.Streaming.dest_inj (h : s.Streaming) {j k : Nat} (hj : j < s.consts.n) (hk : k < s.consts.n)
    (he : dest s.consts.flipV s.consts.flipH s.width s.height j = dest s.consts.flipV s.consts.flipH s.width s.height k) :
    j = k := by
  rw [streaming_n h] at hj hk
  exact (dest_bijOn s.consts.flipV s.consts.flipH s.width s.height).injOn hj hk he

theorem header_sizes (h : t.header = s.header) : t.width = s.width ∧ t.height = s.height ∧ t.key = s.key := by
  obtain ⟨h0, h1, -⟩ := header_eq_iff.1 h
  simp only [State.width, State.height, State.key, State.typ, State.depth, State.cmapDepth, h0, h1, and_self]

variable {colour : Nat → Rgba} {oor : Nat → Bool}

/-- The last pixel of an image ends the decode. -/
theorem PixelDone.finished (h : PixelDone s v (colour s.position) (oor s.position))
    (hlast : s.position + 1 = s.consts.n) : Finished s v v.inOffset colour oor := by
  have honly {k : Nat} (hlow : s.position ≤ k) (hhigh : k < s.consts.n) : k = s.position := by omega
  refine ⟨h.ends hlast, h.position.trans hlast, rfl, h.header, ?_, fun k hlow hhigh => ?_, fun d hd => ?_⟩
  · rw [h.palOor, Bool.or_eq_true]
    refine or_congr_right ⟨fun ho => ⟨s.position, le_refl _, by omega, ho⟩, fun ⟨k, hlow, hhigh, ho⟩ => ?_⟩
    rwa [honly hlow hhigh] at ho
  · rw [honly hlow hhigh, h.word]
    exact if_pos rfl
  · rw [h.word]
    exact if_neg fun hc => hd s.position (le_refl _) (by omega) hc.symm

/-- A pixel, then the rest of the decode. -/
theorem PixelDone.then_finished (hs : s.Streaming) (h : PixelDone s v (colour s.position) (oor s.position))
    (hrest : Finished v t p colour oor) : Finished s t p colour oor := by
  obtain ⟨hw, hh, -⟩ := header_sizes h.header
  have hpalOor := hrest.palOor
  have hwritten := hrest.written
  have hkept := hrest.kept
  rw [h.consts, h.position] at hpalOor hwritten hkept
  rw [hw, hh] at hwritten hkept
  refine ⟨hrest.ends, hrest.position.trans (by rw [h.consts]), hrest.pointer, hrest.header.trans h.header, ?_,
    fun k hlow hhigh => ?_, fun d hd => ?_⟩
  · rw [hpalOor, h.palOor, Bool.or_eq_true, or_assoc]
    refine or_congr_right ⟨?_, fun ⟨k, hlow, hhigh, ho⟩ => ?_⟩
    · rintro (ho | ⟨k, hlow, hhigh, ho⟩)
      · exact ⟨s.position, le_refl _, hs.pixelLeft, ho⟩
      · exact ⟨k, by omega, hhigh, ho⟩
    · rcases Nat.eq_or_lt_of_le hlow with rfl | hlt
      · exact .inl ho
      · exact .inr ⟨k, hlt, hhigh, ho⟩
  · rcases Nat.eq_or_lt_of_le hlow with rfl | hlt
    · rw [hkept _ fun k hlow' hhigh' hc => absurd (hs.dest_inj hhigh' hhigh hc) (by omega), h.word]
      exact if_pos rfl
    · exact hwritten k hlt hhigh
  · rw [hkept d fun k hlow hhigh => hd k (by omega) hhigh, h.word]
    exact if_neg fun hc => hd s.position (le_refl _) hs.pixelLeft hc.symm

/-- From the start of a pixel step, a running decode whose samples left all resolve to colours ends with them stored. -/
theorem State.Inv.finishes {op : Instr} {stream : List Byte} (h : s.Inv) (hd : Decoding s) (hr : s.pixelReady = false)
    (hq : s.hostQ = []) (hop : decodeKey s.key = .ok op) (hs : Supplies s.consts.rle s smps p)
    (hleft : s.position + smps.length = s.consts.n) (hstream : smps.flatten = stream.drop (s.position * s.consts.ss))
    (hcolour : ∀ k, k < s.consts.n → colourOf op (sampleAt stream s.consts.ss k) s = some (.ok (colour k, oor k))) :
    ∃ m t, Machine.run m s = .next t ∧ Finished s t p colour oor := by
  induction smps generalizing s with
  | nil =>
    have := (h.streaming hd.1).pixelLeft
    rw [List.length_nil] at hleft
    omega
  | cons smp smps ih =>
    have hpix := (h.streaming hd.1).pixelLeft
    have hlen : smp.length = s.consts.ss := by
      cases hs with
      | cons hnext => exact h.sample_length hd hr hq hnext
    rw [List.flatten_cons] at hstream
    have hsample : sampleAt stream s.consts.ss s.position = smp := by
      rw [sampleAt, ← hstream, ← hlen, List.take_left]
    have hdrop : smps.flatten = stream.drop ((s.position + 1) * s.consts.ss) := by
      rw [Nat.succ_mul, ← List.drop_drop, ← hstream, ← hlen, List.drop_left]
    obtain ⟨m, v, hrun, hinv, hpd, hsupplies⟩ := h.pixelDone hd hr hq hop hs (hsample ▸ hcolour _ hpix)
    by_cases hlast : s.position + 1 = s.consts.n
    · have hnil : smps = [] := by
        rw [List.length_cons] at hleft
        exact List.eq_nil_of_length_eq_zero (by omega)
      subst hnil
      cases hsupplies
      exact ⟨m, v, hrun, hpd.finished hlast⟩
    · obtain ⟨-, -, hkey⟩ := header_sizes hpd.header
      have hcongr (k : Nat) : colourOf op (sampleAt stream s.consts.ss k) v = colourOf op (sampleAt stream s.consts.ss k) s :=
        colourOf_congr _ _ hpd.consts (header_eq_iff.1 hpd.header).2.2 hpd.inLen fun a _ => inByte_congr hpd.inMem a
      obtain ⟨m', t, hrun', hfin⟩ := ih hinv (hpd.goes hlast) hpd.noPixel (hpd.hostQ.trans hq) (hkey ▸ hop)
        (hpd.consts ▸ hsupplies) (by rw [hpd.position, hpd.consts, ← hleft, List.length_cons]; omega)
        (by rw [hpd.position, hpd.consts, hdrop])
        (fun k hk => by rw [hpd.consts] at hk ⊢; exact (hcongr k).trans (hcolour k hk))
      exact ⟨m + m', t, run_add hrun hrun', hpd.then_finished (h.streaming hd.1) hfin⟩

/-- A sample that resolves to a colour, without the state around it. -/
theorem colourOf_of_resolve {op : Instr} {smp : List Byte} {c : Rgba} {after : State}
    (h : resolve op smp s = some (.ok c after)) : ∃ o, colourOf op smp s = some (.ok (c, o)) ∧ after = s.markOor o := by
  rw [resolve_eq] at h
  match hc : colourOf op smp s with
  | none => rw [hc] at h; cases h
  | some (.error e) => rw [hc] at h; cases h
  | some (.ok (c', o)) => rw [hc] at h; cases h; exact ⟨o, rfl, rfl⟩

/-- Settles O47: the stream's samples are those the machine takes, and each pixel step stores the colour of its own. -/
theorem wholeDecode : Obligations.WholeDecode := by
  intro s op stream p colour after h hstart hop hstream hresolve
  obtain ⟨smps, hlen, hsupplies, hflatten⟩ := supplies_of_streamOf h hstart hstream
  choose! oor hcolour hafter using fun k hk => colourOf_of_resolve (hresolve k hk)
  obtain ⟨m, t, hrun, hfin⟩ := h.finishes hstart.decoding hstart.noPixel hstart.quiet hop hsupplies
    (by rw [hstart.position, Nat.zero_add, hlen]) (by rw [hstart.position, Nat.zero_mul, hflatten]; rfl) hcolour
  obtain ⟨hdone, hbusy, herr⟩ := hfin.ends
  obtain ⟨h0, h1, h2⟩ := header_eq_iff.1 hfin.header
  have hs := h.streaming hstart.decoding.1
  have hfirst (k : Nat) : s.position ≤ k := hstart.position ▸ Nat.zero_le k
  refine ⟨m, t, hrun, hdone, hbusy, herr, hfin.position, hfin.pointer, h0, h1, h2, ?_, fun k hk => hfin.written k (hfirst k) hk,
    fun d hd => hfin.kept d fun k _ hk hc => ?_⟩
  · have hoor (k : Nat) (hk : k < s.consts.n) : (after k).palOor = true ↔ s.palOor = true ∨ oor k = true := by
      rw [hafter k hk, State.markOor, Bool.or_eq_true]
    rw [hfin.palOor]
    constructor
    · rintro (ho | ⟨k, -, hk, ho⟩)
      · exact .inl ho
      · exact .inr ⟨k, hk, (hoor k hk).2 (.inr ho)⟩
    · rintro (ho | ⟨k, hk, ho⟩)
      · exact .inl ho
      · exact ((hoor k hk).1 ho).imp_right fun ho => ⟨k, hfirst k, hk, ho⟩
  · have hlt : dest s.consts.flipV s.consts.flipH s.width s.height k < s.consts.n := by
      rw [streaming_n hs] at hk ⊢
      exact dest_lt hk
    omega

end Sys2Proof.Machine
end

section
/-! PROOFS. Single instructions: the packet headers and the length of a stream (R101 to R107), the palette operations and the
frame of a pixel operation (R100, R135 to R143), the pixel write (R167), and the host's accesses to the memories (R50 to
R55). -/

namespace Sys2Proof.Machine

variable {s t : State}

/-! ### Packets -/

/-- A pointer whose value is known is that number. -/
theorem eq_ofNat_of_toNat {w : Word} {n : Nat} (h : w.toNat = n) : w = BitVec.ofNat 32 n := by
  rw [← h, BitVec.ofNat_toNat, BitVec.setWidth_eq]

/-- Settles O9: a RUN that fits latches its sample and leaves IN_PTR past it. -/
theorem runPacketResult : Obligations.RunPacketResult := by
  intro count s hn hp
  have hptr := eq_ofNat_of_toNat (inPtr_past_packet hp)
  rw [← hptr]
  exact congrArg packetResult (takePacket_run hn hp)

/-- Settles O10: a RAW that fits leaves IN_PTR past its header. -/
theorem rawPacketResult : Obligations.RawPacketResult := by
  intro count s hn hp
  have hptr := eq_ofNat_of_toNat (inPtr_past_header (Nat.le_of_add_right_le hp))
  rw [← hptr]
  exact congrArg packetResult (takePacket_raw hn hp)

/-- Settles O12: no header byte left, or a body past L, is the one check of FetchPacket that fails. -/
theorem packetTruncatedRaised : Obligations.PacketTruncatedRaised := by
  have hshort (kind : PktKind) {count : Nat} {s : State} (hn : count ≤ s.consts.n - s.position)
      (hL : s.inLimit < s.inOffset + 1 + packetBody kind count s.consts.ss) :
      Raises (packetResult (takePacket kind count s)) s (.truncatedInput .packet) := by
    rw [takePacket_short hn hL]
    exact raises_raiseError _ _
  refine ⟨fun s q hm hd hr hl hk hL => ?_, fun _ _ hn hL => hshort .run hn hL, fun _ _ hn hL => hshort .raw hn hL⟩
  rw [step_noHeader hm hd hr hl hk (Nat.le_of_lt_succ hL)]
  exact raises_raiseError _ _

/-! ### The length of a stream -/

theorem readBytes_length (rd : Nat → Byte) (a n : Nat) : (readBytes rd a n).length = n := by
  induction n generalizing a with
  | zero => rfl
  | succ n ih => rw [readBytes, List.length_cons, ih]

/-- A packet adds SS bytes for each of its samples, of either kind (R107). -/
theorem packetStream_length (rd : Nat → Byte) (kind : PktKind) (count ss a : Nat) :
    (packetStream rd kind count ss a).length = count * ss := by
  cases kind with
  | run => simp [packetStream, readBytes_length]
  | raw => exact readBytes_length rd a (count * ss)

/-- A packet's body has at least one sample and at most one for each of its counts (R71, R107). -/
theorem packetBody_bounds (kind : PktKind) {count ss : Nat} (h : 1 ≤ count) :
    ss ≤ packetBody kind count ss ∧ packetBody kind count ss ≤ count * ss := by
  have hone : ss ≤ count * ss := Nat.le_mul_of_pos_left ss h
  cases kind with
  | run => exact ⟨le_refl ss, hone⟩
  | raw => exact ⟨hone, le_refl _⟩

/-- One packet for at most 128 samples, so that `m` more samples need at least as many packets as `m` does 128s (R107). -/
theorem packets_step {m count ss : Nat} (hmax : count ≤ 128) (hm : count ≤ m) :
    (m + 127) / 128 * (1 + ss) ≤ 1 + ss + (m - count + 127) / 128 * (1 + ss) := by
  have hdiv : (m + 127) / 128 ≤ 1 + (m - count + 127) / 128 := by omega
  calc (m + 127) / 128 * (1 + ss) ≤ (1 + (m - count + 127) / 128) * (1 + ss) := Nat.mul_le_mul_right _ hdiv
    _ = 1 + ss + (m - count + 127) / 128 * (1 + ss) := by ring

/-- Expand's loop, from `k` samples and the pointer `p`: what it adds and consumes for the samples left (R107). -/
theorem expandFrom_length {rd : Nat → Byte} {limit ss n fuel k p : Nat} {out stream : List Byte} {p' : Nat}
    (h : expandFrom rd limit ss n fuel out k p = .stream stream p') (hk : k ≤ n) (hfuel : n - k ≤ fuel) :
    stream.length = out.length + (n - k) * ss ∧ p + (n - k + 127) / 128 * (1 + ss) ≤ p' ∧
      p' ≤ p + (n - k) * (1 + ss) := by
  induction fuel generalizing out k p with
  | zero =>
    cases h
    have hdone : n - k = 0 := by omega
    simp [hdone]
  | succ fuel ih =>
    rcases Nat.eq_or_lt_of_le hk with rfl | hleft
    · rw [expandFrom_done (le_refl k)] at h
      cases h
      simp
    rcases Nat.lt_or_ge p limit with hp | hp
    · have hpos := packetCount_pos (rd p)
      have hmax := packetCount_le (rd p)
      rcases Nat.lt_or_ge (n - k) (packetCount (rd p)) with hover | hcount
      · rw [expandFrom_overrun hleft hp hover] at h
        cases h
      rcases Nat.lt_or_ge limit (p + 1 + packetBody (headerKind (rd p)) (packetCount (rd p)) ss) with hshort | hfits
      · rw [expandFrom_short hleft hp hcount hshort] at h
        cases h
      rw [expandFrom_packet hleft hp hcount hfits] at h
      obtain ⟨hlen, hlow, hhigh⟩ := ih h (by omega) (by omega)
      obtain ⟨hb1, hb2⟩ := packetBody_bounds (headerKind (rd p)) (ss := ss) hpos
      have hstep := packets_step (ss := ss) hmax hcount
      rw [List.length_append, packetStream_length] at hlen
      rw [Nat.sub_add_eq] at hlen hlow hhigh
      obtain ⟨rest, hrest⟩ : ∃ rest, n - k = packetCount (rd p) + rest := ⟨n - k - packetCount (rd p), by omega⟩
      rw [hrest] at hlen hlow hhigh hstep ⊢
      rw [Nat.add_sub_cancel_left] at hlen hlow hhigh hstep
      refine ⟨by rw [hlen]; ring, by omega, ?_⟩
      calc p' ≤ p + 1 + packetBody (headerKind (rd p)) (packetCount (rd p)) ss + rest * (1 + ss) := hhigh
        _ ≤ p + packetCount (rd p) + packetCount (rd p) * ss + rest * (1 + ss) := by omega
        _ = p + (packetCount (rd p) + rest) * (1 + ss) := by ring
    · rw [expandFrom_noHeader hleft hp] at h
      cases h

/-- Settles O15: Expand is its loop from no sample, with fuel for each of the N. -/
theorem streamLength : Obligations.StreamLength := by
  intro rd limit base ss n out p h
  have hloop := expandFrom_length h (Nat.zero_le n) (Nat.sub_le n 0)
  rwa [List.length_nil, Nat.zero_add, Nat.sub_zero, Nat.mul_comm] at hloop

/-! ### Pixel operations -/

/-- An index in range whose entry lies below L is the colour of that entry (R135 to R137). -/
theorem palettePixel_inRange {rle : Bool} {index : Byte} {f : List Byte → Option Rgba} {c : Rgba} {eb : Nat}
    (hready : SampleReady rle s) (heb : s.consts.eb = eb) (hb : sampleBytes rle s = [index])
    (hlow : s.cmapOrigin ≤ index.toNat) (hhigh : index.toNat < s.cmapOrigin + s.cmapLen)
    (hend : 18 + eb * (index.toNat - s.cmapOrigin) + eb ≤ s.inLimit)
    (hc : f (inBytes s (18 + eb * (index.toNat - s.cmapOrigin)) eb) = some c) :
    palettePixel rle f s = .next (afterPixel rle s c s.palOor) := by
  subst heb
  have hoff : (paletteOffset s index).toNat = index.toNat - s.cmapOrigin := by
    unfold paletteOffset
    omega
  have hin : 0 ≤ paletteOffset s index ∧ paletteOffset s index < (s.cmapLen : Int) := by
    unfold paletteOffset
    omega
  have hcolour : entryColour f index s = some (.ok (c, false)) := by
    rw [entryColour, if_pos hin, hoff, memRead_of_le hend]
    simp [hc]
  have htaken : entryColour f index (s.sampleTaken rle) = entryColour f index s :=
    entryColour_congr f index rfl rfl rfl fun _ _ => rfl
  rw [palettePixel_ok (hb ▸ nextSample_of_ready hready), palettePixelOf_eq, htaken, hcolour, latched, markOor_false]
  rfl

/-- Settles O21: the entry's three bytes are the pattern `bgr` takes. -/
theorem pal24Result : Obligations.Pal24Result := fun _ _ _ hready _ heb hb hlow hhigh hend =>
  palettePixel_inRange hready heb hb hlow hhigh hend rfl

/-- Settles O22: the entry's four bytes are the pattern `bgra` takes. -/
theorem pal32Result : Obligations.Pal32Result := fun _ _ _ hready _ heb hb hlow hhigh hend =>
  palettePixel_inRange hready heb hb hlow hhigh hend rfl

/-- Settles O25: NextSample begins with FetchPacket where the packet is used up, and a header that was taken leaves a sample. -/
theorem pixelOpFetchesPacket : Obligations.PixelOpFetchesPacket := by
  intro op s hslot hrle hk
  refine ⟨fun hL => ?_, fun hi => ?_⟩
  · rw [exec_key hslot, hrle, nextSample_fetch hk, fetchPacket_noHeader hL]
    exact raises_raiseError _ _
  · have hheader : exec (decodePacket (inByte s s.inOffset)) s = packetResult (fetchPacket s) := by
      rw [exec_decodePacket, fetchPacket_of_header hi]
      rfl
    rcases fetchPacket_shape s with ⟨e, hf⟩ | ⟨p, r, k, l, hf⟩
    · refine ⟨raiseError e s, by rw [hheader, hf]; rfl, ?_⟩
      rw [if_pos (show (raiseError e s).pktRem = 0 from hk), exec_key hslot, hrle, nextSample_fetch hk, hf]
    · have hrem := (fetchPacket_ok hf).1
      refine ⟨s.withPacket p r k l, by rw [hheader, hf]; rfl, ?_⟩
      rw [if_neg hrem, exec_key hslot, exec_key hslot, hrle, nextSample_fetch hk, hf, nextSample_packet hrem]

/-- Settles O27: a pixel operation moves the sample source and then latches a colour or raises. -/
theorem pixelOpFrame : Obligations.PixelOpFrame := by
  intro op s t hslot h
  obtain ⟨p, r, k, l, ⟨e, rfl⟩ | ⟨c, oor, hoor, rfl⟩⟩ := exec_key_shape hslot h
  · exact ⟨⟨rfl, rfl, rfl, rfl, rfl, rfl, rfl, rfl, rfl, rfl, rfl, rfl, rfl, fun _ => rfl⟩,
      fun hr => absurd hr Bool.false_ne_true, fun _ => ⟨rfl, rfl, rfl, rfl⟩⟩
  · refine ⟨⟨rfl, rfl, rfl, rfl, rfl, rfl, rfl, rfl, rfl, rfl, rfl, rfl, rfl, fun _ => rfl⟩,
      fun _ => ⟨rfl, rfl, rfl, rfl, rfl, fun ho => ?_, fun _ => rfl⟩, fun hr => absurd hr (by simp)⟩
    exact hoor.elim (fun he => he.trans ho) id

/-! ### The pixel write -/

/-- An origin instruction writes the pixel at one of the four flips of the general mapping (R161, R162). -/
theorem exec_origin {i : Instr} (h : i.slot = .origin) (s : State) : ∃ flipV flipH,
    originDest i s = some (dest flipV flipH s.width s.height s.position) ∧
      exec i s = writePixel (dest flipV flipH s.width s.height s.position) s := by
  cases i with
  | orgBL => exact ⟨true, false, rfl, rfl⟩
  | orgBR => exact ⟨true, true, rfl, rfl⟩
  | orgTL => exact ⟨false, false, rfl, rfl⟩
  | orgTR => exact ⟨false, true, rfl, rfl⟩
  | _ => cases h

/-- Settles O28: the pixel write at an index of the image, then the step of PIX_COUNT. -/
theorem originWritesPixel : Obligations.OriginWritesPixel := by
  intro i s hslot hn hleft
  obtain ⟨flipV, flipH, hdest, hexec⟩ := exec_origin hslot s
  have hlt : dest flipV flipH s.width s.height s.position < s.consts.n := by
    rw [hn] at hleft ⊢
    exact dest_lt hleft
  have hcount : s.pixCount + 1 = BitVec.ofNat 32 (s.position + 1) := eq_ofNat_of_toNat
    (toNat_add_ofNat (d := 1) (Nat.lt_of_le_of_lt hleft (hn ▸ pixels_lt s)))
  have hword (d : Nat) := outWord_outWrite s (dest flipV flipH s.width s.height s.position) d s.pixel
  refine ⟨_, _, hdest, hlt, hexec.trans (if_pos hlt), ?_, fun d hd => ?_, ?_⟩
  · rw [outWord_congr (advancePixel_out _), hword, if_pos rfl]
  · rw [outWord_congr (advancePixel_out _), hword, if_neg hd]
  · rw [advancePixel_eq, ← hcount]
    rfl

/-! ### The host's accesses -/

/-- The bytes of a word are its digits to base 256 (R55). -/
theorem extract_byte_toNat (w : Word) (i : Nat) : (w.extractLsb' (8 * i) 8).toNat = w.toNat / 256 ^ i % 256 := by
  rw [BitVec.extractLsb'_toNat, Nat.shiftRight_eq_div_pow, Nat.pow_mul]

theorem setWidth_byte_toNat (b : Byte) : (b.setWidth 32 : Word).toNat = b.toNat :=
  BitVec.toNat_setWidth_of_le (by decide)

section
variable {q : List HostEvent}

theorem step_writeIn_ok {a : Nat} {b : Byte} (hq : s.hostQ = .writeIn a b :: q) (ha : a < 2 ^ s.params.inAddrBits) :
    step s = .next { s.withQueue q with inMem := memInsert s.inMem a b, tainted := s.tainted || s.busy } :=
  (step_writeIn hq).trans (if_pos (decide_eq_true ha))

theorem step_readIn_ok {a : Nat} (hq : s.hostQ = .readIn a :: q) (ha : a < 2 ^ s.params.inAddrBits) :
    step s = .next { s.withQueue q with rdata := (inByte s a).setWidth 32 } :=
  (step_readIn hq).trans (if_pos (decide_eq_true ha))

theorem step_inOutside {a : Nat} {b : Byte} (hq : s.hostQ = .writeIn a b :: q ∨ s.hostQ = .readIn a :: q)
    (ha : 2 ^ s.params.inAddrBits ≤ a) : step s = .fault .noInAddress := by
  have hout : ¬inAddressOk (s.withQueue q) a = true := fun hc => absurd (of_decide_eq_true hc) (Nat.not_lt.2 ha)
  rcases hq with hq | hq
  · exact (step_writeIn hq).trans (if_neg hout)
  · exact (step_readIn hq).trans (if_neg hout)

theorem step_readOut_ok {d : Nat} (hq : s.hostQ = .readOut d :: q) (hd : d < s.params.maxPixels) :
    step s = .next { countOutRead (s.withQueue q) with rdata := outSeen (s.withQueue q) d } :=
  (step_readOut hq).trans (if_pos hd)

theorem step_readOutByte_ok {a : Nat} (hq : s.hostQ = .readOutByte a :: q) (ha : a / 4 < s.params.maxPixels) :
    step s = .next { countOutRead (s.withQueue q) with
      rdata := (byteOf s.params.outByteOrder (outSeen (s.withQueue q) (a / 4)) (a % 4)).setWidth 32 } :=
  (step_readOutByte hq).trans (if_pos ha)

/-- While idle a read of OUT draws nothing and sees the word (R52). -/
theorem outSeen_idle (hb : s.busy = false) (d : Nat) :
    countOutRead (s.withQueue q) = s.withQueue q ∧ outSeen (s.withQueue q) d = outWord s d :=
  ⟨if_neg (by simp [hb]), if_neg (by simp [hb])⟩

/-- While BUSY a read of OUT draws a value (R66). -/
theorem countOutRead_busy (hb : s.busy = true) :
    countOutRead (s.withQueue q) = { s.withQueue q with draws := s.draws + 1 } := if_pos hb

end

/-- Settles O41: each access is its memory's operation inside the memory, and its fault outside. -/
theorem hostMemoryAccess : Obligations.HostMemoryAccess := by
  intro s q
  refine ⟨fun a b hq ha => ?_, fun a => step_readIn_ok, fun d hq hd hb => ?_, fun a hq ha hb => ?_, fun d hq hd hb => ?_,
    fun a hq ha hb => ?_, fun a b => step_inOutside, fun d hq hd => ?_, fun a hq ha => ?_⟩
  · refine ⟨_, step_writeIn_ok hq ha, fun a' => ?_, rfl⟩
    simp only [inByte, memLookup_memInsert]
    split <;> rfl
  · obtain ⟨hcount, hseen⟩ := outSeen_idle (q := q) hb d
    rw [step_readOut_ok hq hd, hcount, hseen]
  · obtain ⟨hcount, hseen⟩ := outSeen_idle (q := q) hb (a / 4)
    refine ⟨_, by rw [step_readOutByte_ok hq ha, hcount, hseen], ?_⟩
    rw [setWidth_byte_toNat]
    cases s.params.outByteOrder <;> exact extract_byte_toNat _ _
  · exact ⟨_, by rw [step_readOut_ok hq hd, countOutRead_busy hb]⟩
  · refine ⟨_, ?_, by rw [step_readOutByte_ok hq ha, countOutRead_busy hb]⟩
    rw [setWidth_byte_toNat]
    exact (byteOf _ _ _).isLt
  · exact (step_readOut hq).trans (if_neg (Nat.not_lt.2 hd))
  · exact (step_readOutByte hq).trans (if_neg (Nat.not_lt.2 ha))

end Sys2Proof.Machine
end

section
/-! PROOFS. START and its outcomes (R181, R208): the checks speak of the file in IN, through the header just latched. -/

namespace Sys2Proof.Machine

variable {s : State} {strict argb abgr : Bool} {chord : Word} {op : Instr}

/-! ### The state in which the checks run -/

/-- The state in which START runs its checks: the configuration of its word, cleared, and the header latched (R181). -/
def State.checked (s : State) (strict : Bool) (chord : Word) : State :=
  headerLatch (startEntry { s with strict := strict, chord := chord })

theorem checked_eq (s : State) (strict : Bool) (chord : Word) : ∃ a b c, s.checked strict chord =
    (startEntry { s with strict := strict, chord := chord }).withHeader a b c := headerLatch_eq _

theorem checked_latches (s : State) (strict : Bool) (chord : Word) : HeaderLatched s (s.checked strict chord) :=
  headerLatched_of_header_eq (headerLatch_header_congr rfl rfl)

/-- What the header latch and the entry of START leave of the registers the checks read. -/
theorem checked_regs (s : State) (strict : Bool) (chord : Word) : (s.checked strict chord).inLimit = s.inLimit ∧
    (s.checked strict chord).params = s.params ∧ (s.checked strict chord).chord = chord ∧
      (s.checked strict chord).strict = strict := by
  obtain ⟨a, b, c, e⟩ := checked_eq s strict chord
  rw [e]
  exact ⟨rfl, rfl, rfl, rfl⟩

/-- The latched header is the file's (R35, R59). -/
theorem checked_key (h : 18 ≤ s.inLimit) : (s.checked strict chord).key = fileKey s ∧
    (s.checked strict chord).typ = inByte s 2 := by
  obtain ⟨htyp, hdepth, hcmap, -⟩ := (checked_latches s strict chord).1 h
  rw [State.key, htyp, hdepth, hcmap]
  exact ⟨rfl, rfl⟩

/-- The decode constants computed from the latched header are the file's (R36). -/
theorem checked_consts (h : 18 ≤ s.inLimit) :
    constsOf (s.checked strict chord) (keyRle op) (keyModel op) = fileConsts s chord strict op := by
  obtain ⟨-, hdepth, hcmap, hdesc, hw, hh, -, hlen⟩ := (checked_latches s strict chord).1 h
  obtain ⟨-, -, hchord, hstrict⟩ := checked_regs s strict chord
  have hW : (s.checked strict chord).width = fileWidth s := hw.trans (le16_toNat s 12).symm
  have hH : (s.checked strict chord).height = fileHeight s := hh.trans (le16_toNat s 14).symm
  have hLen : (s.checked strict chord).cmapLen = fileCmapLen s := hlen.trans (le16_toNat s 5).symm
  have hbase (m : ColorModel) : baseOf (s.checked strict chord) m = fileBase s m := by
    cases m with
    | pal => rw [baseOf, hcmap, hLen]; rfl
    | tc | gs => rfl
  simp only [constsOf, hW, hH, hdepth, hcmap, hdesc, hchord, hstrict, hbase]
  rfl

/-- START's entry leaves what every outcome leaves of the registers START does not set later (R181). -/
theorem checked_common (s : State) (strict : Bool) (chord : Word) :
    StartCommon s (s.checked strict chord) strict chord := by
  refine ⟨checked_latches s strict chord, ?_⟩
  obtain ⟨a, b, c, e⟩ := checked_eq s strict chord
  rw [e]
  exact ⟨rfl, rfl, rfl, rfl, rfl, rfl, rfl, rfl, rfl, rfl, rfl, rfl⟩

/-- The flags with which the checks run (R181). -/
theorem checked_flags (s : State) (strict : Bool) (chord : Word) : (s.checked strict chord).busy = true ∧
    (s.checked strict chord).done = false ∧ (s.checked strict chord).err = false ∧ (s.checked strict chord).errCode = 0 ∧
      (s.checked strict chord).errCause = none ∧ (s.checked strict chord).inPtr = 0 ∧
        (s.checked strict chord).out = s.out := by
  obtain ⟨a, b, c, e⟩ := checked_eq s strict chord
  rw [e]
  exact ⟨rfl, rfl, rfl, rfl, rfl, rfl, rfl⟩

/-! ### A legal CHORD -/

/-- A legal CHORD by its bits and by its fields (R27, R205). -/
theorem chordLegal_iff (chord : Word) : chordLegal chord = true ↔ LegalOrder chord := by
  simp [LegalOrder, LegalShifts, chordLegal, shiftOk, chordRsh, chordGsh, chordBsh, chordAsh, and_assoc, or_assoc]

/-! ### The checks in their order (R208) -/

section
variable (strict)

theorem validate_order (h : ¬LegalOrder chord) :
    validate (s.checked strict chord) = .error .invalidChannelOrder := by
  obtain ⟨-, -, hchord, -⟩ := checked_regs s strict chord
  rw [validate, hchord]
  exact if_pos (Bool.eq_false_iff.2 fun hc => h ((chordLegal_iff chord).1 hc))

theorem validate_header (h : LegalOrder chord) (hL : s.inLimit < 18) :
    validate (s.checked strict chord) = .error (.truncatedInput .header) := by
  obtain ⟨hlimit, -, hchord, -⟩ := checked_regs s strict chord
  rw [validate, hchord, (chordLegal_iff chord).2 h, if_neg (by simp), hlimit, if_pos hL]

theorem validate_type (h : LegalOrder chord) (hL : 18 ≤ s.inLimit) (ht : imageType (inByte s 2) = none) :
    validate (s.checked strict chord) = .error .unsupportedImageType := by
  obtain ⟨hlimit, -, hchord, -⟩ := checked_regs s strict chord
  obtain ⟨-, htyp⟩ := checked_key (strict := strict) (chord := chord) hL
  simp [validate, hchord, hlimit, htyp, (chordLegal_iff chord).2 h, not_lt.2 hL, ht]

theorem validate_depth (h : LegalOrder chord) (hL : 18 ≤ s.inLimit) {rle : Bool} {model : ColorModel}
    (ht : imageType (inByte s 2) = some (rle, model)) {e : Reject} (hk : decodeKey (fileKey s) = .error e) :
    validate (s.checked strict chord) = .error .unsupportedPixelDepth := by
  obtain ⟨hlimit, -, hchord, -⟩ := checked_regs s strict chord
  obtain ⟨hkey, htyp⟩ := checked_key (strict := strict) (chord := chord) hL
  simp [validate, hchord, hlimit, htyp, hkey, (chordLegal_iff chord).2 h, not_lt.2 hL, ht, hk]

/-- A file with a legal key reaches the checks of its sizes, with the constants of R36. -/
theorem validate_key (h : LegalOrder chord) (hL : 18 ≤ s.inLimit) (hk : decodeKey (fileKey s) = .ok op) :
    validate (s.checked strict chord) = validateSizes (s.checked strict chord) (fileConsts s chord strict op) := by
  obtain ⟨hlimit, -, hchord, -⟩ := checked_regs s strict chord
  obtain ⟨hkey, htyp⟩ := checked_key (strict := strict) (chord := chord) hL
  have ht : imageType (inByte s 2) = some (keyRle op, keyModel op) := by
    simpa only [fileKey, keyType_mkKey] using (decodeKey_imageType hk).1
  simp [validate, hchord, hlimit, htyp, hkey, (chordLegal_iff chord).2 h, not_lt.2 hL, ht, hk, checked_consts hL]

end

/-! ### The outcomes -/

/-- START while idle, after the preset bits of its word (R180, R181). -/
theorem exec_start (hi : s.busy = false) (strict argb abgr : Bool) (x : BitVec 28) :
    exec (.start strict argb abgr x) s =
      .next (start { s with strict := strict, chord := presetChord argb abgr s.chord }) := by
  rw [show exec (.start strict argb abgr x) s = .next (ctrlWrite true strict argb abgr s) from rfl,
    ctrlWrite_idle hi, if_pos rfl, loadPreset_eq_presetChord]

theorem start_of_error {e : DecodeError} (h : validate (headerLatch (startEntry s)) = .error e) :
    start s = raiseError e (headerLatch (startEntry s)) := by
  obtain ⟨e', h', hs⟩ | ⟨c, h', -⟩ := start_cases s
  · rwa [Except.error.inj (h'.symm.trans h)] at hs
  · cases h'.symm.trans h

theorem start_of_ok {c : Consts} (h : validate (headerLatch (startEntry s)) = .ok c) :
    start s = beginStream c (headerLatch (startEntry s)) := by
  obtain ⟨e, h', -⟩ | ⟨c', h', hs⟩ := start_cases s
  · cases h'.symm.trans h
  · rwa [Except.ok.inj (h'.symm.trans h)] at hs

/-- A check that fails ends the decode in its error, with nothing consumed (R208, R209). -/
theorem start_raises {e : DecodeError} (h : validate (s.checked strict chord) = .error e) :
    StartRaises (.next (start { s with strict := strict, chord := chord })) s strict chord e := by
  have hstart : start { s with strict := strict, chord := chord } = raiseError e (s.checked strict chord) :=
    start_of_error h
  obtain ⟨hlatch, hstrict, hchord, hoor, hcount, hrem, -, hrest⟩ := checked_common s strict chord
  obtain ⟨-, hdone, -, -, -, hptr, -⟩ := checked_flags s strict chord
  rw [hstart]
  exact ⟨_, rfl, ⟨hlatch, hstrict, hchord, hoor, hcount, hrem, rfl, hrest⟩, code_toNat e, rfl, rfl, rfl, hdone, rfl, hptr⟩

/-- The colormap check speaks of a palette image's BASE. -/
theorem fileConsts_base_pal (hm : keyModel op = .pal) : (fileConsts s chord strict op).base = fileBase s .pal :=
  congrArg (fileBase s) hm

/-- A file every check accepts passes them, with the constants of R36. -/
theorem FileAccepted.valid (h : FileAccepted s chord op) (strict : Bool) :
    validate (s.checked strict chord) = .ok (fileConsts s chord strict op) := by
  obtain ⟨hlimit, hparams, -⟩ := checked_regs s strict chord
  rw [validate_key strict h.order h.header h.key, validateSizes_ok, hlimit, hparams]
  exact ⟨rfl, h.capacity, fun hm => (fileConsts_base_pal hm).trans_le (h.colormap hm), h.data⟩

/-- START on such a file begins its stream. -/
theorem FileAccepted.start_eq (h : FileAccepted s chord op) (strict : Bool) :
    start { s with strict := strict, chord := chord } =
      beginStream (fileConsts s chord strict op) (s.checked strict chord) :=
  start_of_ok (h.valid strict)

/-- IN_PTR at BASE is exact (R22, R181). -/
theorem FileAccepted.base_toNat (h : FileAccepted s chord op) :
    (BitVec.ofNat 32 (fileBase s (keyModel op))).toNat = fileBase s (keyModel op) :=
  base_toNat_of_validate (h.valid false)

/-- Settles O35: the checks pass, and a stream with a pixel in it is entered. -/
theorem startEntersStream : Obligations.StartEntersStream := by
  intro strict argb abgr x s op hi h hn
  have hcommon := checked_common s strict (presetChord argb abgr s.chord)
  obtain ⟨hbusy, hdone, herr, hcode, hcause, -, hout⟩ := checked_flags s strict (presetChord argb abgr s.chord)
  refine ⟨_, exec_start hi strict argb abgr x, ?_⟩
  rw [h.start_eq strict, beginStream, if_neg (show (fileConsts s _ strict op).n ≠ 0 from hn)]
  exact ⟨hcommon, rfl, h.base_toNat, hbusy, hdone, herr, hcode, hcause, rfl, hout⟩

/-- Settles O36: the checks pass, and an empty image is done at once. -/
theorem startEmptyImage : Obligations.StartEmptyImage := by
  intro strict argb abgr x s op hi h hn
  have hcommon := checked_common s strict (presetChord argb abgr s.chord)
  obtain ⟨-, -, herr, hcode, hcause, -, hout⟩ := checked_flags s strict (presetChord argb abgr s.chord)
  refine ⟨_, exec_start hi strict argb abgr x, ?_⟩
  rw [h.start_eq strict, beginStream, if_pos (show (fileConsts s _ strict op).n = 0 from hn)]
  exact ⟨hcommon, h.base_toNat, rfl, rfl, herr, hcode, hcause, rfl, hout⟩

/-- The size checks of a file with a legal key, each met when none before it applies (R208). -/
theorem start_raises_sizes (h : LegalOrder chord) (hL : 18 ≤ s.inLimit) (hk : decodeKey (fileKey s) = .ok op)
    {e : DecodeError} (he : validateSizes (s.checked strict chord) (fileConsts s chord strict op) = .error e) :
    StartRaises (.next (start { s with strict := strict, chord := chord })) s strict chord e :=
  start_raises ((validate_key strict h hL hk).trans he)

/-- Settles O37: each failing check, in its order. -/
theorem startErrors : Obligations.StartErrors := by
  intro strict argb abgr x s hi r chord
  obtain ⟨hlimit, hparams, -⟩ := checked_regs s strict chord
  simp only [r, exec_start hi strict argb abgr x]
  refine ⟨fun h => start_raises (validate_order strict h), fun h => ⟨fun hL => start_raises (validate_header strict h hL),
    fun hL => ⟨fun ht => start_raises (validate_type strict h hL (imageType_eq_none_iff.2 ht)), fun ht hk => ?_,
      fun op hk => ⟨fun hn => start_raises_sizes h hL hk ?_, fun hn =>
        ⟨fun hm hb => start_raises_sizes h hL hk ?_, fun hb hr hd => start_raises_sizes h hL hk ?_⟩⟩⟩⟩⟩
  · cases hd : imageType (inByte s 2) with
    | none => exact absurd ht (imageType_eq_none_iff.1 hd)
    | some p =>
      cases he : decodeKey (fileKey s) with
      | ok op => exact absurd he (hk op)
      | error e => exact start_raises (validate_depth strict h hL hd he)
  all_goals rw [validateSizes, hlimit, hparams]
  · exact if_pos hn
  · rw [if_neg (show ¬s.params.maxPixels < (fileConsts s chord strict op).n from not_lt.2 hn)]
    exact if_pos ⟨hm, hb.trans_eq (fileConsts_base_pal hm).symm⟩
  · rw [if_neg (show ¬s.params.maxPixels < (fileConsts s chord strict op).n from not_lt.2 hn),
      if_neg fun hc => ((fileConsts_base_pal hc.1).trans_le (hb hc.1)).not_gt hc.2]
    exact if_pos ⟨hr, hd⟩

end Sys2Proof.Machine
end
